-- ==== Sys2Proof/Word.lean ====
section
/-! DEFINITION. The word types of LZWCORE (spec/10_state.md R14, spec/00_scope.md R9, R10). Every register is an
unsigned bit vector, bit 0 the least significant; there is no signed quantity. -/

namespace Sys2Proof

/-- An 8-bit byte, of the input stream, of OUT or of a dictionary entry. -/
abbrev Byte := BitVec 8

/-- A code: "an integer in [0, 2^20)" (R13, R47). -/
abbrev Code := BitVec 20

/-- The source's `CodeOrNone` (R10). R60 advises an option type; its 21-bit register layout is `codeOrNoneBits`. -/
abbrev CodeOrNone := Option Code

/-- An 11-bit command word `op[2:0], data[7:0]` (R62). -/
abbrev CommandWord := BitVec 11

/-- A value of the status read port, 21 bits (R64). -/
abbrev PortWord := BitVec 21

end Sys2Proof
end

