-- ==== Sys2Proof/Config.lean ====
section
/-! DEFINITION. The constants the format fixes (spec/00_scope.md R6), the sizes derived from them, and the free
values of the model (log entry 6). -/

namespace Sys2Proof.Config

/-- INIT_BITS: `codeSize` at the start of every pass (R6). -/
abbrev initBits : Nat := 9

/-- FIRST_CODE: `nextCode` at the start of every pass, the first dynamically assigned code (R6). -/
abbrev firstCode : Nat := 256

/-- MAXBITS: the largest value of `codeSize` (R6). -/
abbrev maxBits : Nat := 20

/-- MAXCODE: the largest code value, the last dictionary index that may be created (R6). -/
abbrev maxCode : Nat := 1048575

/-- NROOT: the number of pre-seeded single-byte entries (R6). -/
abbrev nRoot : Nat := 256

/-- RSTACK_MAX: the longest string a code can have (R76 b). -/
abbrev rstackMax : Nat := 1048321

/-- The least PEND_W allowed, `maxCodeWidth + 7` (R7, R21, R147). The model's pending register has no upper bound
(log entry 12); that it never holds more than these many bits is a statement. -/
abbrev pendWMin : Nat := 27

/-- What a read of CODESIZE returns while the register is unspecified (R65, R136): a free value of the register's 5
bits, one for each number drawn. No body: nothing can be proved of it (log entry 6). -/
opaque freeCodeSize : Nat → BitVec 5

/-- What a read of NEXTCODE returns while the register is unspecified (R65, R136): a free value of the register's 21
bits, one for each number drawn (log entry 6). -/
opaque freeNextCode : Nat → BitVec 21

end Sys2Proof.Config
end

