-- ==== Sys2Proof/Syntax.lean ====
section
/-! DEFINITION. The instructions of LZWCORE, one constructor per row of spec/opcode_table.json, the modes a decoder
looks at, and the raw words that carry the instructions. -/

namespace Sys2Proof

/-- `status`, the block's sequencing state (R23). -/
inductive Status where
  | idle   -- no pass since reset
  | enc    -- encode pass running
  | dec    -- decode pass running
  | done   -- last pass ended normally
  | err    -- an error was raised; absorbing until reset
  deriving DecidableEq, Repr

/-- `errcode` (R24, R66). -/
inductive ErrCode where
  | none
  | invalidCode
  | protocol
  | illegalCmd
  deriving DecidableEq, Repr

/-- What the decoding of a word looks at beside the word: `status` for DATA and END (R69), `oldCode` and `nextCode`
for the class of a code (R94). -/
structure Mode where
  status   : Status
  oldCode  : CodeOrNone
  nextCode : BitVec 21
  deriving DecidableEq, Repr

/-- The instructions. The rows of one command word (`dataEncByte`, `dataDecByte`, `dataOutside`) and the four classes
of a code are told apart by the mode, not by the word. A `data` operand is the command word's low byte, which the
machine records on an error (R63). -/
inductive Instr where
  -- format C, command words (R62)
  | encStart (data : Byte)
  | decStart (data : Byte)
  | dataEncByte (byte : Byte)
  | dataDecByte (byte : Byte)
  | dataOutside (byte : Byte)
  | endEncEnd (data : Byte)
  | endDecEnd (data : Byte)
  | endOutside (data : Byte)
  | reserved0 (data : Byte)
  | reserved5 (data : Byte)
  | reserved6 (data : Byte)
  | reserved7 (data : Byte)
  -- format K, one code of the packed stream (R55, R94)
  | decCodeFirst (code : Code)
  | decCodeKwkwk (code : Code)
  | decCodeLookup (code : Code)
  | decCodeInvalid (code : Code)
  -- format U, micro-operations (R67)
  | dictInit
  | dictAppend (pfx : CodeOrNone) (byte : Byte) (insertLK : Bool)
  | dictLookup (pfx : CodeOrNone) (byte : Byte)
  | dictReconstruct (code : Code)
  | bpInit
  | bpWrite (code : Code) (width : BitVec 5)
  | bpFeed (byte : Byte)
  | bpRead (width : BitVec 5)
  | bpFlush
  -- format S, status reads (R64)
  | rdStatus
  | rdErrcode
  | rdErrinfo
  | rdCodesize
  | rdNextcode
  | rdReserved5
  | rdReserved6
  | rdReserved7
  deriving DecidableEq, Repr

/-- The operands that travel beside a micro-operation identifier "as named fields" (R67), raw: a CodeOrNone is its
21-bit register pattern (R60). `insertLK` is the flag R73's callers give DICT_APPEND (log entry 11). -/
inductive MicroOperands where
  | nothing
  | append (pfx : BitVec 21) (byte : Byte) (insertLK : Bool)
  | key (pfx : BitVec 21) (byte : Byte)
  | code (code : Code)
  | codeWidth (code : Code) (width : BitVec 5)
  | byte (byte : Byte)
  | width (width : BitVec 5)
  deriving DecidableEq, Repr

/-- One raw word, in one of the four formats of spec/30_encoding.md. Command words and status selects are on the
host's ports; a single code and a micro-operation are on no port (R67, R91) and stand for a step of a trace
(log entry 3). -/
inductive InstrWord where
  | cmd (w : CommandWord)
  | rd (sel : BitVec 3)
  | code (c : Code)
  | micro (u : BitVec 4) (operands : MicroOperands)
  deriving DecidableEq, Repr

/-- What reaches the block at one command boundary: the hardware reset (R135) or a word (log entries 1 and 16). -/
inductive Event where
  | reset
  | word (w : InstrWord)
  deriving DecidableEq, Repr

/-- The event is one a host can cause: reset, a command word or a status read (R67: the other words are on no port). -/
def Event.isHost : Event → Bool
  | .reset => true
  | .word (.cmd _) => true
  | .word (.rd _) => true
  | .word (.code _) => false
  | .word (.micro _ _) => false

end Sys2Proof
end

