-- ==== Sys2Proof/WellFormed.lean ====
section
/-! DEFINITION. The checks on an instruction that need no state: the bit packer's widths (R77), the appended entry's
prefix (R73) and the ranges the four classes of a code imply (R95, R96, R98). -/

namespace Sys2Proof

/-- "The contract covers `width` in 1..20" (R77). -/
def widthOk (w : BitVec 5) : Bool := decide (1 ≤ w.toNat) && decide (w.toNat ≤ Config.maxBits)

/-- An instruction whose operands lie in the ranges the spec gives them whatever the state. -/
def Instr.wellFormed : Instr → Bool
  | .encStart _ => true
  | .decStart _ => true
  | .dataEncByte _ => true
  | .dataDecByte _ => true
  | .dataOutside _ => true
  | .endEncEnd _ => true
  | .endDecEnd _ => true
  | .endOutside _ => true
  | .reserved0 _ => true
  | .reserved5 _ => true
  | .reserved6 _ => true
  | .reserved7 _ => true
  | .decCodeFirst c => decide (c.toNat < Config.firstCode)
  | .decCodeKwkwk c => decide (Config.firstCode ≤ c.toNat)
  | .decCodeLookup _ => true
  | .decCodeInvalid c => decide (Config.firstCode ≤ c.toNat)
  | .dictInit => true
  | .dictAppend pfx _ _ => pfx.isSome
  | .dictLookup _ _ => true
  | .dictReconstruct _ => true
  | .bpInit => true
  | .bpWrite _ w => widthOk w
  | .bpFeed _ => true
  | .bpRead w => widthOk w
  | .bpFlush => true
  | .rdStatus => true
  | .rdErrcode => true
  | .rdErrinfo => true
  | .rdCodesize => true
  | .rdNextcode => true
  | .rdReserved5 => true
  | .rdReserved6 => true
  | .rdReserved7 => true

end Sys2Proof
end

