-- ==== Sys2Proof/Decode.lean ====
section
/-! DEFINITION. The decoder, total on every raw word, and after it the encoder, both from the tables of
spec/30_encoding.md (R55, R60, R62, R64, R67) and the classification of R94. -/

namespace Sys2Proof

/-- Why a raw word is no instruction; the decoder rejects by name. None of these is on a host port; the rejections
are log entry 20. -/
inductive DecodeError where
  /-- A micro-operation identifier 9 to 15: "unused" (R67). -/
  | unusedMicroOp (u : BitVec 4)
  /-- A CodeOrNone pattern with `none = 1` and `code != 0`: "never produced" (R60). -/
  | codeOrNonePattern (bits : BitVec 21)
  /-- Operands that are not those R67 gives the identifier. -/
  | operandShape (u : BitVec 4)
  deriving DecidableEq, Repr

/-- The four cases of DEC_CODE (R94). -/
inductive CodeCase where
  | first
  | kwkwk
  | lookup
  | invalid
  deriving DecidableEq, Repr

/-- The class of a code, by value, in R94's order, with `nextCode` as it is before DEC_UPDATE (R145). -/
def classify (m : Mode) (c : Code) : CodeCase :=
  match m.oldCode with
  | none => if m.nextCode.toNat ≤ c.toNat then .invalid else .first
  | some _ =>
    if c.toNat = m.nextCode.toNat then .kwkwk
    else if c.toNat < m.nextCode.toNat then .lookup
    else .invalid

/-- The CodeOrNone register format (R60): bit 20 `none`, bits 19..0 `code`. -/
def codeOrNoneBits : CodeOrNone → BitVec 21
  | none => 1#1 ++ 0#20
  | some c => 0#1 ++ c

/-- R60 read back: a pattern with `none = 1` and `code != 0` is never produced; reading it back is
rejected (log entry 20). -/
def codeOrNoneOfBits (b : BitVec 21) : Except DecodeError CodeOrNone :=
  if b.getLsbD 20 then
    if b.extractLsb' 0 20 = 0#20 then .ok none else .error (.codeOrNonePattern b)
  else .ok (some (b.extractLsb' 0 20))

/-- A command word from its two fields (R62): `op` in bits 10..8, `data` in bits 7..0. -/
def commandWord (op : BitVec 3) (data : Byte) : CommandWord := op ++ data

/-- The `op` field of a command word (R62). -/
def opField (w : CommandWord) : BitVec 3 := w.extractLsb' 8 3

/-- The `data` field of a command word (R62). -/
def dataField (w : CommandWord) : Byte := w.extractLsb' 0 8

/-- Format C (R62, R69). In ERR, where every word is absorbed (R110), DATA and END decode to their rows outside a pass
(log entry 8). -/
def decodeCommand (st : Status) (w : CommandWord) : Instr :=
  let d := dataField w
  match (opField w).toNat with
  | 0 => .reserved0 d
  | 1 => .encStart d
  | 2 => .decStart d
  | 3 =>
    match st with
    | .enc => .dataEncByte d
    | .dec => .dataDecByte d
    | .idle => .dataOutside d
    | .done => .dataOutside d
    | .err => .dataOutside d
  | 4 =>
    match st with
    | .enc => .endEncEnd d
    | .dec => .endDecEnd d
    | .idle => .endOutside d
    | .done => .endOutside d
    | .err => .endOutside d
  | 5 => .reserved5 d
  | 6 => .reserved6 d
  | _ => .reserved7 d

/-- Format S (R64). -/
def decodeSelect (sel : BitVec 3) : Instr :=
  match sel.toNat with
  | 0 => .rdStatus
  | 1 => .rdErrcode
  | 2 => .rdErrinfo
  | 3 => .rdCodesize
  | 4 => .rdNextcode
  | 5 => .rdReserved5
  | 6 => .rdReserved6
  | _ => .rdReserved7

/-- Format K (R55, R94). -/
def decodeCode (m : Mode) (c : Code) : Instr :=
  match classify m c with
  | .first => .decCodeFirst c
  | .kwkwk => .decCodeKwkwk c
  | .lookup => .decCodeLookup c
  | .invalid => .decCodeInvalid c

/-- Format U (R67): each identifier with its own operands; other operands, and identifiers 9 to 15, are rejected
(log entry 20). -/
def decodeMicro (u : BitVec 4) (operands : MicroOperands) : Except DecodeError Instr :=
  match u.toNat with
  | 0 => match operands with | .nothing => .ok .dictInit | _ => .error (.operandShape u)
  | 1 =>
    match operands with
    | .append p b l => (codeOrNoneOfBits p).map fun q => .dictAppend q b l
    | _ => .error (.operandShape u)
  | 2 =>
    match operands with
    | .key p b => (codeOrNoneOfBits p).map fun q => .dictLookup q b
    | _ => .error (.operandShape u)
  | 3 => match operands with | .code c => .ok (.dictReconstruct c) | _ => .error (.operandShape u)
  | 4 => match operands with | .nothing => .ok .bpInit | _ => .error (.operandShape u)
  | 5 => match operands with | .codeWidth c w => .ok (.bpWrite c w) | _ => .error (.operandShape u)
  | 6 => match operands with | .byte b => .ok (.bpFeed b) | _ => .error (.operandShape u)
  | 7 => match operands with | .width w => .ok (.bpRead w) | _ => .error (.operandShape u)
  | 8 => match operands with | .nothing => .ok .bpFlush | _ => .error (.operandShape u)
  | _ => .error (.unusedMicroOp u)

/-- The decoder: total, one instruction or one named rejection for every raw word in every mode. -/
def decode (m : Mode) : InstrWord → Except DecodeError Instr
  | .cmd w => .ok (decodeCommand m.status w)
  | .rd sel => .ok (decodeSelect sel)
  | .code c => .ok (decodeCode m c)
  | .micro u ops => decodeMicro u ops

/-- The encoder, from the same tables. -/
def encode : Instr → InstrWord
  | .encStart d => .cmd (commandWord 1 d)
  | .decStart d => .cmd (commandWord 2 d)
  | .dataEncByte b => .cmd (commandWord 3 b)
  | .dataDecByte b => .cmd (commandWord 3 b)
  | .dataOutside b => .cmd (commandWord 3 b)
  | .endEncEnd d => .cmd (commandWord 4 d)
  | .endDecEnd d => .cmd (commandWord 4 d)
  | .endOutside d => .cmd (commandWord 4 d)
  | .reserved0 d => .cmd (commandWord 0 d)
  | .reserved5 d => .cmd (commandWord 5 d)
  | .reserved6 d => .cmd (commandWord 6 d)
  | .reserved7 d => .cmd (commandWord 7 d)
  | .decCodeFirst c => .code c
  | .decCodeKwkwk c => .code c
  | .decCodeLookup c => .code c
  | .decCodeInvalid c => .code c
  | .dictInit => .micro 0 .nothing
  | .dictAppend p b l => .micro 1 (.append (codeOrNoneBits p) b l)
  | .dictLookup p b => .micro 2 (.key (codeOrNoneBits p) b)
  | .dictReconstruct c => .micro 3 (.code c)
  | .bpInit => .micro 4 .nothing
  | .bpWrite c w => .micro 5 (.codeWidth c w)
  | .bpFeed b => .micro 6 (.byte b)
  | .bpRead w => .micro 7 (.width w)
  | .bpFlush => .micro 8 .nothing
  | .rdStatus => .rd 0
  | .rdErrcode => .rd 1
  | .rdErrinfo => .rd 2
  | .rdCodesize => .rd 3
  | .rdNextcode => .rd 4
  | .rdReserved5 => .rd 5
  | .rdReserved6 => .rd 6
  | .rdReserved7 => .rd 7

/-- The "condition" column of the opcode table, as far as it selects the row (R69, R94): which rows of one word a mode
selects. A row with a word of its own is selected in every mode. -/
def Instr.selectedIn (m : Mode) : Instr → Bool
  | .dataEncByte _ => decide (m.status = .enc)
  | .dataDecByte _ => decide (m.status = .dec)
  | .dataOutside _ => decide (m.status ≠ .enc) && decide (m.status ≠ .dec)
  | .endEncEnd _ => decide (m.status = .enc)
  | .endDecEnd _ => decide (m.status = .dec)
  | .endOutside _ => decide (m.status ≠ .enc) && decide (m.status ≠ .dec)
  | .decCodeFirst c => m.oldCode.isNone && decide (c.toNat < m.nextCode.toNat)
  | .decCodeKwkwk c => m.oldCode.isSome && decide (c.toNat = m.nextCode.toNat)
  | .decCodeLookup c => m.oldCode.isSome && decide (c.toNat < m.nextCode.toNat)
  | .decCodeInvalid c =>
      (m.oldCode.isNone && decide (m.nextCode.toNat ≤ c.toNat))
        || (m.oldCode.isSome && decide (m.nextCode.toNat < c.toNat))
  | .encStart _ => true
  | .decStart _ => true
  | .reserved0 _ => true
  | .reserved5 _ => true
  | .reserved6 _ => true
  | .reserved7 _ => true
  | .dictInit => true
  | .dictAppend _ _ _ => true
  | .dictLookup _ _ => true
  | .dictReconstruct _ => true
  | .bpInit => true
  | .bpWrite _ _ => true
  | .bpFeed _ => true
  | .bpRead _ => true
  | .bpFlush => true
  | .rdStatus => true
  | .rdErrcode => true
  | .rdErrinfo => true
  | .rdCodesize => true
  | .rdNextcode => true
  | .rdReserved5 => true
  | .rdReserved6 => true
  | .rdReserved7 => true

/-- Operands of zeros for a micro-operation identifier (log entry 9). -/
def zeroOperands (u : BitVec 4) : MicroOperands :=
  match u.toNat with
  | 1 => .append 0 0 false
  | 2 => .key 0 0
  | 3 => .code 0
  | 5 => .codeWidth 0 0
  | 6 => .byte 0
  | 7 => .width 0
  | _ => .nothing

/-- The raw word that `nbits` bits of value `w` stand for in the numbering of spec/opcode_table.json (log entry 9): 11
bits (16 in whole bytes) are a command word, 3 a status select, 4 a micro-operation identifier with operands of zeros,
17 to 24 a code. The table's 3-bit and 4-bit rows fill the same 8 bits: the selects 0 to 7 of the host's port come
first, and 8, which no select has, is the micro-operation of that number. -/
def tableWord (nbits w : Nat) : Option InstrWord :=
  let micro : InstrWord := .micro (BitVec.ofNat 4 w) (zeroOperands (BitVec.ofNat 4 w))
  match nbits with
  | 3 => if w < 8 then some (.rd (BitVec.ofNat 3 w)) else none
  | 4 => if w < 16 then some micro else none
  | 8 => if w < 8 then some (.rd (BitVec.ofNat 3 w)) else if w < 16 then some micro else none
  | 11 => if w < 2048 then some (.cmd (BitVec.ofNat 11 w)) else none
  | 16 => if w < 2048 then some (.cmd (BitVec.ofNat 11 w)) else none
  | n => if 17 ≤ n ∧ n ≤ 24 ∧ w < 1048576 then some (.code (BitVec.ofNat 20 w)) else none

/-- The mode `decodeTableWord` decodes in: `status` as after reset (R35) for a command word, and for a code, which
exists only in a decode pass, the mode of a pass just begun (R92). -/
def tableMode : InstrWord → Mode
  | .code _ => { status := .dec, oldCode := none, nextCode := 256 }
  | .cmd _ => { status := .idle, oldCode := none, nextCode := 0 }
  | .rd _ => { status := .idle, oldCode := none, nextCode := 0 }
  | .micro _ _ => { status := .idle, oldCode := none, nextCode := 0 }

/-- The instruction the decoder reads from a table word (log entry 9). -/
def decodeTableWord (nbits w : Nat) : Option Instr :=
  match tableWord nbits w with
  | some iw => (decode (tableMode iw) iw).toOption
  | none => none

/-- `STATUS` values (R65). -/
def statusBits : Status → BitVec 3
  | .idle => 0
  | .enc => 1
  | .dec => 2
  | .done => 3
  | .err => 4

/-- `ERRCODE` values (R66). -/
def errcodeBits : ErrCode → BitVec 2
  | .none => 0
  | .invalidCode => 1
  | .protocol => 2
  | .illegalCmd => 3

end Sys2Proof
end

