-- ==== Sys2Proof/Machine/State.lean ====
section
/-! DEFINITION. The state of LZWCORE: the thirteen fields of spec/10_state.md R14 and four of the model's own, the
reasons a step can stop, and the state after reset (R35). -/

namespace Sys2Proof.Machine

/-- A sparse store in ONE canonical form: (address, value) pairs, addresses strictly rising, no entry equal to what an
unlisted address reads as. -/
abbrev Memory (α : Type) := List (Nat × α)

/-- A dictionary entry: "the string encoded by `prefix`, followed by `byte`" (R26). R59's 29-bit layout is
`entryBits`. -/
structure Entry where
  pfx  : CodeOrNone
  byte : Byte
  deriving DecidableEq, Repr

/-- What the last status read or stand-alone micro-operation returned: the value lines of the read port (R64) and the
"result" column of R67. The model's own (log entry 7). -/
inductive Result where
  | nothing
  | port (v : PortWord)              -- a status read (R64)
  | newCode (c : Code)               -- DICT_APPEND (R73)
  | found (c : Option Code)          -- DICT_LOOKUP (R74)
  | string (s : List Byte)           -- DICT_RECONSTRUCT (R75)
  | read (c : Option Code)           -- BP_READ (R81); none is `exhausted`
  deriving DecidableEq, Repr

/-- The state of one instance. The first thirteen fields are R14's, in its order and with its widths; `pendingBits`
is a natural number because no result depends on PEND_W (R22, D14; log entry 12). -/
structure State where
  status       : Status
  errcode      : ErrCode
  errinfo      : BitVec 20
  codeSize     : BitVec 5
  nextCode     : BitVec 21
  prefixCode   : CodeOrNone
  oldCode      : CodeOrNone
  oldString    : List Byte
  pendingBits  : Nat
  pendingCount : BitVec 5
  ent          : Memory Entry
  lk           : Memory Code
  out          : List Byte
  /-- The model's own: the host's events not yet taken, oldest first (log entry 1). -/
  input        : List Event
  /-- The model's own (log entry 7). -/
  result       : Result
  /-- The model's own: a start command has run since reset, so CODESIZE and NEXTCODE are specified (R65; log entry 6). -/
  started      : Bool
  /-- The model's own: how many free values have been drawn (log entry 6). -/
  freeCount    : Nat
  deriving DecidableEq, Repr

/-- The reasons the machine stops. No event a host can cause reaches one from a state that keeps the invariants of
R33; the errors of R120 are no faults but next states with `status = ERR` (R124). -/
inductive Fault where
  /-- Raised by DICT_RECONSTRUCT on reading an ENT location that holds no value: "A model must make such a read
  impossible or a fault, never a value" (R34). Safe. -/
  | entryAbsent
  /-- Raised by DICT_RECONSTRUCT when the prefix chain never ends, which I2 of R33 rules out: a stuck state. Safe. -/
  | endlessChain
  deriving DecidableEq, Repr

/-- The reasons an operation is refused by name. -/
inductive Refusal where
  /-- Answered by the dispatch for an instruction that has no meaning yet. Safe. -/
  | notModelled (mnemonic : String)
  /-- Answered by the fetch for a raw word that is no instruction (R60, R67); none is on a host port. Safe. -/
  | undecodable (e : DecodeError)
  /-- Answered by BP_WRITE and BP_READ for a `width` outside 1..20: "a model refuses them" (R77, D15). Safe. -/
  | widthOutsideContract
  /-- Answered by BP_WRITE and BP_FLUSH with more than 7 bits pending (R79, R82). Safe. -/
  | pendingNotNormalized
  /-- Answered by BP_FEED with more than 19 bits pending (R80). Safe. -/
  | pendingTooFullToFeed
  /-- Answered by DICT_APPEND with `nextCode > MAXCODE` (R73 b, U9). Safe. -/
  | appendAtFullDictionary
  /-- Answered by DICT_APPEND for a prefix that is None or not below `nextCode` (R73). Safe. -/
  | appendPrefixNotAnEntry
  /-- Answered by DICT_RECONSTRUCT for a code not below `nextCode` (R75 d, U10). Safe. -/
  | reconstructNotAnEntry
  /-- Answered by DEC_CODE where it needs the first byte of an empty string (R11: only used where the length is at
  least 1). Safe. -/
  | firstByteOfEmptyString
  /-- Answered by a stand-alone DEC_CODE outside a decode pass: it runs only inside DEC_BYTE (R91; log entry 14).
  Safe. -/
  | noDecodePass
  deriving DecidableEq, Repr

/-- The answer of an operation: `Host.Outcome` with this machine's reasons, carrying a state, or a state and a value
returned. -/
abbrev Answer (α : Type) := Host.Outcome α Fault Refusal

/-- What the decoding looks at. -/
def State.mode (s : State) : Mode :=
  { status := s.status, oldCode := s.oldCode, nextCode := s.nextCode }

/-- The machine right after reset (R35): `status`, `errcode`, `errinfo` and `OUT` as the spec says. The spec leaves
every other field unspecified; DESIGN CHOICE (log entries 4 and 5): zero, None and nothing listed, and no statement
rests on it. Nothing has arrived (R36; log entry 1). -/
def State.reset : State where
  status       := .idle
  errcode      := .none
  errinfo      := 0
  codeSize     := 0
  nextCode     := 0
  prefixCode   := none
  oldCode      := none
  oldString    := []
  pendingBits  := 0
  pendingCount := 0
  ent          := []
  lk           := []
  out          := []
  input        := []
  result       := .nothing
  started      := false
  freeCount    := 0

end Sys2Proof.Machine
end

