-- ==== Sys2Proof/Machine/Operands.lean ====
section
/-! DEFINITION. The operand forms: low bits of a number (R9), the 29-bit entry and lookup-key formats (R59, R61), the
addresses of the two memories (R38, R39) and what `errinfo` records (R66). -/

namespace Sys2Proof.Machine

/-- `low_N(v)`, "`v mod 2^N`" (R9). -/
def low (n v : Nat) : Nat := v % 2 ^ n

/-- `v[7:0]` of a natural number, as a byte (R9). -/
def lowByte (v : Nat) : Byte := BitVec.ofNat 8 v

/-- `zext_20(b)`: the root code of a byte (R86, R117). -/
def rootCode (b : Byte) : Code := b.setWidth 20

/-- The entry format (R59): bit 28 `prefix.none`, bits 27..8 `prefix.code`, bits 7..0 `byte`. -/
def entryBits (e : Entry) : BitVec 29 := codeOrNoneBits e.pfx ++ e.byte

/-- The lookup key format (R61), "the same layout as an entry". -/
def keyBits (p : CodeOrNone) (b : Byte) : BitVec 29 := codeOrNoneBits p ++ b

/-- The address of a pair in LK: its 29-bit key (R39, R61). -/
def lkAddress (p : CodeOrNone) (b : Byte) : Nat := (keyBits p b).toNat

/-- The root entry of a byte value: `prefix = None`, `byte = index` (R26, R72). -/
def rootEntry (i : Nat) : Entry := { pfx := none, byte := BitVec.ofNat 8 i }

/-- What an unlisted ENT location reads as: the root entries, which R72 lets logic supply (log entry 5). -/
def entUnlisted (a : Nat) : Option Entry := if a < Config.nRoot then some (rootEntry a) else none

/-- What an unlisted LK key reads as: `(None, b)`, whose key is `2^28 + b`, reads as `b` (R72; log entry 5). -/
def lkUnlisted (a : Nat) : Option Code :=
  if 268435456 ≤ a ∧ a < 268435456 + Config.nRoot then some (BitVec.ofNat 20 (a - 268435456)) else none

/-- What `errinfo` records for PROTOCOL and ILLEGAL_CMD: `zext_20(cmd)`, the whole command word (R63, R66). -/
def commandInfo (op : BitVec 3) (data : Byte) : BitVec 20 := (commandWord op data).setWidth 20

end Sys2Proof.Machine
end

