-- ==== Sys2Proof/Machine/Flags.lean ====
section
/-! DEFINITION. The one-bit conditions of the block: the result flag of BP_READ and the level outputs (R30, R131), the
guard of the dictionary's cap (R73) and the two growth comparisons (R88, R99, R115). -/

namespace Sys2Proof.Machine

/-- `exhausted`: "fewer than `width` bits remain available in the pending register" (R81, R30 a). -/
def exhausted (pendingCount width : BitVec 5) : Bool := decide (pendingCount.toNat < width.toNat)

/-- The level output `done = (status = DONE)` (R30 b, R131). -/
def State.doneOutput (s : State) : Bool := decide (s.status = .done)

/-- The level output `err = (status = ERR)` (R30 c, R131). -/
def State.errOutput (s : State) : Bool := decide (s.status = .err)

/-- `nextCode <= MAXCODE`: an entry may be created (R73, R86, R99, R149). -/
def State.canAppend (s : State) : Bool := decide (s.nextCode.toNat ≤ Config.maxCode)

/-- The encoder's growth test, on `nextCode` after the increment: `nextCode = 2^codeSize and codeSize < MAXBITS`
(R86, R88). -/
def encoderGrows (nextCode : BitVec 21) (codeSize : BitVec 5) : Bool :=
  decide (nextCode.toNat = 2 ^ codeSize.toNat) && decide (codeSize.toNat < Config.maxBits)

/-- The decoder's growth test, on `nextCode` after the increment: `nextCode + 1 = 2^codeSize and codeSize < MAXBITS`
(R99). One more than the encoder's on purpose (R146). -/
def decoderGrows (nextCode : BitVec 21) (codeSize : BitVec 5) : Bool :=
  decide (nextCode.toNat + 1 = 2 ^ codeSize.toNat) && decide (codeSize.toNat < Config.maxBits)

/-- A start command has written CODESIZE and NEXTCODE since reset, so a read of them is specified (R65, R136;
log entry 6). -/
def State.progressSpecified (s : State) : Bool := s.started

end Sys2Proof.Machine
end

