-- ==== Sys2Proof/Machine/Ops.lean ====
section
/-! DEFINITION. The named operations over memory and registers, error entry (`State.raise`, R124) and the hardware
reset beside it, the only way back (R127, R135). -/

namespace Sys2Proof.Machine

/-- One operation after another, each "to completion before the next line" (R12); a stop ends the whole. -/
def andThen {α β : Type} (a : Answer α) (f : α → Answer β) : Answer β :=
  match a with
  | .next x => f x
  | .fault r => .fault r
  | .refused r => .refused r

/-! Sparse memories in canonical form. -/

/-- The listed value at an address. -/
def memFind {α : Type} : Memory α → Nat → Option α
  | [], _ => none
  | (k, v) :: m, a => if k = a then some v else memFind m a

/-- The list with the address listed at a value, in rising order. -/
def memInsert {α : Type} (a : Nat) (v : α) : Memory α → Memory α
  | [] => [(a, v)]
  | (k, w) :: m =>
    if a < k then (a, v) :: (k, w) :: m
    else if a = k then (a, v) :: m
    else (k, w) :: memInsert a v m

/-- The list without the address. -/
def memErase {α : Type} (a : Nat) : Memory α → Memory α
  | [] => []
  | (k, w) :: m => if k = a then m else (k, w) :: memErase a m

/-- Reading: the listed value, else what an unlisted address reads as. -/
def memRead {α : Type} (unlisted : Nat → Option α) (m : Memory α) (a : Nat) : Option α :=
  match memFind m a with
  | some v => some v
  | none => unlisted a

/-- Writing keeps the canonical form: the value an unlisted address reads as is not listed. -/
def memWrite {α : Type} [DecidableEq α] (unlisted : Nat → Option α) (m : Memory α) (a : Nat) (v : α) : Memory α :=
  if unlisted a = some v then memErase a m else memInsert a v m

/-- The canonical form: addresses strictly rising, no entry equal to what its address reads as unlisted. -/
abbrev Memory.wf {α : Type} [DecidableEq α] (unlisted : Nat → Option α) (m : Memory α) : Prop :=
  m.Pairwise (fun x y => x.1 < y.1) ∧ ∀ x ∈ m, unlisted x.1 ≠ some x.2

/-! ENT and LK. -/

/-- `ENT[c]`, "legal only for `c < nextCode`" (R12): "a location `ENT[i]` with `i >= nextCode` holds no value"
(R34). -/
def State.entRead (s : State) (c : Code) : Option Entry :=
  if c.toNat < s.nextCode.toNat then memRead entUnlisted s.ent c.toNat else none

/-- `ENT[a] <- e` (R38). -/
def State.entWrite (s : State) (a : Nat) (e : Entry) : State :=
  { s with ent := memWrite entUnlisted s.ent a e }

/-- `LK(p, b)` (R39): `Some code` or `None`, exact. -/
def State.lkRead (s : State) (p : CodeOrNone) (b : Byte) : Option Code :=
  memRead lkUnlisted s.lk (lkAddress p b)

/-- `LK(p, b) <- c` (R39, R73). -/
def State.lkWrite (s : State) (p : CodeOrNone) (b : Byte) (c : Code) : State :=
  { s with lk := memWrite lkUnlisted s.lk (lkAddress p b) c }

/-! Register updates. -/

/-- `status <- st`. -/
def State.setStatus (s : State) (st : Status) : State := { s with status := st }

/-- `codeSize <- codeSize + 1`: growth, "each time by exactly +1" (R16). -/
def State.grow (s : State) : State := { s with codeSize := s.codeSize + 1 }

/-- `nextCode <- nextCode + 1`: "21-bit add, no wrap" (R73). -/
def State.bumpNextCode (s : State) : State := { s with nextCode := s.nextCode + 1 }

/-- `prefixCode <- p`. -/
def State.setPrefixCode (s : State) (p : CodeOrNone) : State := { s with prefixCode := p }

/-- `oldCode <- Some c; oldString <- str`. -/
def State.setOld (s : State) (c : Code) (str : List Byte) : State := { s with oldCode := some c, oldString := str }

/-- `pendingBits <- bits; pendingCount <- count`, the count in the register's 5 bits (R22, R114: it never wraps). -/
def State.setPending (s : State) (bits count : Nat) : State :=
  { s with pendingBits := bits, pendingCount := BitVec.ofNat 5 count }

/-- `OUT <- OUT ++ bs`, "the only way bytes leave the block" (R11). -/
def State.emit (s : State) (bs : List Byte) : State := { s with out := s.out ++ bs }

/-- The value an operation returns (log entry 7). -/
def State.returning (s : State) (r : Result) : State := { s with result := r }

/-- The event list after an event has been taken (log entry 1). -/
def State.withInput (s : State) (l : List Event) : State := { s with input := l }

/-- One free value has been drawn (log entry 6). -/
def State.drawn (s : State) : State := { s with freeCount := s.freeCount + 1 }

/-! Error entry and reset. -/

/-- `raise E(info)` (R12, R124): "writes `status <- ERR`, `errcode <- E`, `errinfo <- info`, and ends the command;
nothing else changes". -/
def State.raise (s : State) (e : ErrCode) (info : BitVec 20) : State :=
  { s with status := .err, errcode := e, errinfo := info }

/-- The hardware reset (R135): every field of the block as in R35's reset column. The events that follow it and the
count of free values drawn are the model's own and stay (log entry 16). -/
def State.hardwareReset (s : State) : State :=
  { State.reset with input := s.input, freeCount := s.freeCount }

end Sys2Proof.Machine
end

