-- ==== Sys2Proof/Machine/BitPacker.lean ====
section
/-! DEFINITION. The bit packer and unpacker unit (spec/41_bitpacker.md): BP_INIT, BP_WRITE, BP_FEED, BP_READ, BP_FLUSH,
as the state machines call them, and the meaning of each as an instruction of its own (log entry 3), which the model
runs in every status, ERR included (log entry 21). -/

namespace Sys2Proof.Machine

/-- BP_INIT (R78). -/
def bpInit (s : State) : State := s.setPending 0 0

/-- The byte-peel loop of BP_WRITE (R79): the lowest `k` bytes of the register, the lowest first. -/
def peelBytes : Nat → Nat → List Byte
  | 0, _ => []
  | k + 1, bits => lowByte bits :: peelBytes k (bits >>> 8)

/-- BP_WRITE (R79): the `width` low bits of the code go in above the pending bits, and a complete byte leaves while 8
bits are pending, which is `count / 8` times. Precondition `pendingCount <= 7`, refused outside it (log entry 10);
widths outside 1..20 are refused (R77). -/
def bpWrite (c : Code) (width : BitVec 5) (s : State) : Answer State :=
  if widthOk width then
    if s.pendingCount.toNat ≤ 7 then
      let bits := s.pendingBits ||| (low width.toNat c.toNat <<< s.pendingCount.toNat)
      let count := s.pendingCount.toNat + width.toNat
      let k := count / 8
      .next ((s.emit (peelBytes k bits)).setPending (bits >>> (8 * k)) (count - 8 * k))
    else .refused .pendingNotNormalized
  else .refused .widthOutsideContract

/-- BP_FEED (R80). Precondition `pendingCount <= 19`, refused outside it (log entry 10). -/
def bpFeed (b : Byte) (s : State) : Answer State :=
  if s.pendingCount.toNat ≤ 19 then
    .next (s.setPending (s.pendingBits ||| (b.toNat <<< s.pendingCount.toNat)) (s.pendingCount.toNat + 8))
  else .refused .pendingTooFullToFeed

/-- BP_READ (R81): a code, or `none` for `exhausted`, which changes nothing. Widths outside 1..20 are refused (R77). -/
def bpRead (width : BitVec 5) (s : State) : Answer (State × Option Code) :=
  if widthOk width then
    if exhausted s.pendingCount width then .next (s, none)
    else
      .next (s.setPending (s.pendingBits >>> width.toNat) (s.pendingCount.toNat - width.toNat),
        some (BitVec.ofNat 20 (low width.toNat s.pendingBits)))
  else .refused .widthOutsideContract

/-- BP_FLUSH (R82). Precondition `pendingCount <= 7`, refused outside it (log entry 10). -/
def bpFlush (s : State) : Answer State :=
  if s.pendingCount.toNat ≤ 7 then
    let s1 := if 0 < s.pendingCount.toNat then s.emit [lowByte s.pendingBits] else s
    .next (s1.setPending 0 0)
  else .refused .pendingNotNormalized

/-- BP_INIT as a step of a trace, in every status (log entry 21). -/
def execBpInit (s : State) : Answer State := .next (bpInit s)

/-- BP_WRITE as a step of a trace, in every status (log entry 21). -/
def execBpWrite (c : Code) (width : BitVec 5) (s : State) : Answer State := bpWrite c width s

/-- BP_FEED as a step of a trace, in every status (log entry 21). -/
def execBpFeed (b : Byte) (s : State) : Answer State := bpFeed b s

/-- BP_READ as a step of a trace, in every status (log entry 21): the code or `exhausted` is returned. -/
def execBpRead (width : BitVec 5) (s : State) : Answer State :=
  andThen (bpRead width s) fun r => .next (r.1.returning (.read r.2))

/-- BP_FLUSH as a step of a trace, in every status (log entry 21). -/
def execBpFlush (s : State) : Answer State := bpFlush s

end Sys2Proof.Machine
end

