-- ==== Sys2Proof/Machine/Dictionary.lean ====
section
/-! DEFINITION. The dictionary unit (spec/40_dictionary.md): DICT_INIT, DICT_APPEND, DICT_LOOKUP, DICT_RECONSTRUCT, as
the state machines call them, and the meaning of each as an instruction of its own (log entry 3), which the model runs
in every status, ERR included (log entry 21). -/

namespace Sys2Proof.Machine

/-- DICT_INIT (R72): ENT holds exactly the 256 root entries, LK exactly the 256 root pairs, both by what an unlisted
address reads as; `nextCode <- 256`. LK is set in a decode pass too, where it is never read (log entry 13). -/
def dictInit (s : State) : State :=
  { s with ent := [], lk := [], nextCode := BitVec.ofNat 21 Config.firstCode }

/-- DICT_APPEND (R73), with the caller's `insertLK`: "adds one entry at the next sequential index". A call outside its
precondition is refused (R71, R73 b). -/
def dictAppend (insertLK : Bool) (p : CodeOrNone) (b : Byte) (s : State) : Answer (State × Code) :=
  if s.canAppend then
    match p with
    | none => .refused .appendPrefixNotAnEntry
    | some q =>
      if q.toNat < s.nextCode.toNat then
        let newCode : Code := s.nextCode.setWidth 20
        let s1 := s.entWrite s.nextCode.toNat { pfx := some q, byte := b }
        let s2 := if insertLK then s1.lkWrite (some q) b newCode else s1
        .next (s2.bumpNextCode, newCode)
      else .refused .appendPrefixNotAnEntry
  else .refused .appendAtFullDictionary

/-- DICT_LOOKUP (R74): "State written: none". -/
def dictLookup (p : CodeOrNone) (b : Byte) (s : State) : Option Code := s.lkRead p b

/-- The chain walk of R75 from a code, the bytes collected so far already in left-to-right order. Only the `nextCode`
locations below `nextCode` hold values, so a walk that visits more of them than that, the fuel the caller gives, has
come back to one and never ends. -/
def chainWalk (s : State) : Nat → Code → List Byte → Answer (List Byte)
  | 0, _, _ => .fault .endlessChain
  | n + 1, c, collected =>
    match s.entRead c with
    | none => .fault .entryAbsent
    | some e =>
      match e.pfx with
      | none => .next (e.byte :: collected)
      | some p => chainWalk s n p (e.byte :: collected)

/-- DICT_RECONSTRUCT (R75), `str(code)`. Precondition `code < nextCode`; a call outside it is refused (R75 d). -/
def dictReconstruct (c : Code) (s : State) : Answer (List Byte) :=
  if c.toNat < s.nextCode.toNat then chainWalk s s.nextCode.toNat c []
  else .refused .reconstructNotAnEntry

/-- DICT_INIT as a step of a trace, in every status (log entry 21). -/
def execDictInit (s : State) : Answer State := .next (dictInit s)

/-- DICT_APPEND as a step of a trace, in every status (log entry 21): the new code is returned. -/
def execDictAppend (p : CodeOrNone) (b : Byte) (insertLK : Bool) (s : State) : Answer State :=
  andThen (dictAppend insertLK p b s) fun r => .next (r.1.returning (.newCode r.2))

/-- DICT_LOOKUP as a step of a trace, in every status (log entry 21). -/
def execDictLookup (p : CodeOrNone) (b : Byte) (s : State) : Answer State :=
  .next (s.returning (.found (dictLookup p b s)))

/-- DICT_RECONSTRUCT as a step of a trace, in every status (log entry 21). -/
def execDictReconstruct (c : Code) (s : State) : Answer State :=
  andThen (dictReconstruct c s) fun str => .next (s.returning (.string str))

end Sys2Proof.Machine
end

