-- ==== Sys2Proof/Machine/Decoder.lean ====
section
/-! DEFINITION. The decoder state machine (spec/43_decoder.md): the effect of DEC_START, of DATA and of END when a
decode pass accepts them, DEC_CODE with its four cases, DEC_UPDATE and DEC_COMMIT, and the meanings of the four cases as
instructions of their own (log entries 3 and 14). -/

namespace Sys2Proof.Machine

/-- DEC_START when accepted (R92). -/
def decStart (s : State) : State :=
  { bpInit (dictInit s) with
    oldCode := none
    oldString := []
    codeSize := BitVec.ofNat 5 Config.initBits
    out := []
    status := .dec
    started := true }

/-- DEC_UPDATE (R99): the growth test is on the incremented `nextCode` and one more than the encoder's. -/
def decUpdate (fb : Byte) (s : State) : Answer State :=
  if s.canAppend then
    andThen (dictAppend false s.oldCode fb s) fun r =>
      .next (if decoderGrows r.1.nextCode r.1.codeSize then r.1.grow else r.1)
  else .next s

/-- DEC_COMMIT (R100). -/
def decCommit (newCode : Code) (str : List Byte) (s : State) : State := (s.setOld newCode str).emit str

/-- DEC_UPDATE with the first byte of the string just reconstructed, then DEC_COMMIT (R94, R96, R97). -/
def decUpdateCommit (newCode : Code) (str : List Byte) (s : State) : Answer State :=
  match str with
  | [] => .refused .firstByteOfEmptyString
  | fb :: _ => andThen (decUpdate fb s) fun s1 => .next (decCommit newCode str s1)

/-- Case FIRST (R95): no entry is created. -/
def decFirst (newCode : Code) (s : State) : Answer State :=
  andThen (dictReconstruct newCode s) fun str => .next (decCommit newCode str s)

/-- Case KWKWK (R96): `oldString ++ [oldString[0]]`, no table lookup. -/
def decKwkwk (newCode : Code) (s : State) : Answer State :=
  match s.oldString with
  | [] => .refused .firstByteOfEmptyString
  | b0 :: rest => decUpdateCommit newCode ((b0 :: rest) ++ [b0]) s

/-- Case LOOKUP (R97). -/
def decLookup (newCode : Code) (s : State) : Answer State :=
  andThen (dictReconstruct newCode s) fun str => decUpdateCommit newCode str s

/-- Case INVALID (R98): `raise INVALID_CODE(zext_20(newCode))`. -/
def decInvalid (newCode : Code) (s : State) : State := s.raise .invalidCode newCode

/-- DEC_CODE (R94): the case is selected by value, before anything changes. -/
def decCode (newCode : Code) (s : State) : Answer State :=
  match classify s.mode newCode with
  | .first => decFirst newCode s
  | .kwkwk => decKwkwk newCode s
  | .lookup => decLookup newCode s
  | .invalid => .next (decInvalid newCode s)

/-- DEC_BYTE (R93): feed one byte, read one code, process it if there is one; at most one code completes. -/
def decByte (b : Byte) (s : State) : Answer State :=
  andThen (bpFeed b s) fun s1 =>
  andThen (bpRead s1.codeSize s1) fun r =>
  match r.2 with
  | none => .next r.1
  | some c => decCode c r.1

/-- DEC_END (R101): the leftover bits are not read, not checked and not emitted. -/
def decEnd (s : State) : State := s.setStatus .done

/-- DEC_CODE as a step of a trace. It runs only inside a decode pass (R91), where alone the registers it reads are
specified; elsewhere it is refused (log entry 14). A code whose class is another row's is that row's (log entry 8). -/
def decCodeInPass (newCode : Code) (s : State) : Answer State :=
  match s.status with
  | .dec => decCode newCode s
  | .idle => .refused .noDecodePass
  | .enc => .refused .noDecodePass
  | .done => .refused .noDecodePass
  | .err => .refused .noDecodePass

/-- DEC_CODE, case FIRST (R95). -/
def execDecCodeFirst (newCode : Code) (s : State) : Answer State := decCodeInPass newCode s

/-- DEC_CODE, case KWKWK (R96). -/
def execDecCodeKwkwk (newCode : Code) (s : State) : Answer State := decCodeInPass newCode s

/-- DEC_CODE, case LOOKUP (R97). -/
def execDecCodeLookup (newCode : Code) (s : State) : Answer State := decCodeInPass newCode s

/-- DEC_CODE, case INVALID (R98). -/
def execDecCodeInvalid (newCode : Code) (s : State) : Answer State := decCodeInPass newCode s

end Sys2Proof.Machine
end

