-- ==== Sys2Proof/Machine/Encoder.lean ====
section
/-! DEFINITION. The encoder state machine (spec/42_encoder.md): the effect of ENC_START, of DATA and of END when an
encode pass accepts them. Dispatch by `status` is in Machine/Control.lean. -/

namespace Sys2Proof.Machine

/-- ENC_START when accepted (R85). -/
def encStart (s : State) : State :=
  { bpInit (dictInit s) with
    prefixCode := none
    codeSize := BitVec.ofNat 5 Config.initBits
    out := []
    status := .enc
    started := true }

/-- "if `prefixCode != None`: call BP_WRITE(the(prefixCode), codeSize)" (R86, R87). -/
def encEmit (s : State) : Answer State :=
  match s.prefixCode with
  | none => .next s
  | some p => bpWrite p s.codeSize s

/-- "if `nextCode <= MAXCODE`": append the pair, then the growth test on the incremented `nextCode` (R86, R88); nothing
at the cap (R89). -/
def encCreate (c : Byte) (s : State) : Answer State :=
  if s.canAppend then
    andThen (dictAppend true s.prefixCode c s) fun r =>
      .next (if encoderGrows r.1.nextCode r.1.codeSize then r.1.grow else r.1)
  else .next s

/-- ENC_BYTE (R86): extend the match on a hit; on a miss write, then append, then grow, then start anew from `c`. -/
def encByte (c : Byte) (s : State) : Answer State :=
  match dictLookup s.prefixCode c s with
  | some m => .next (s.setPrefixCode (some m))
  | none =>
    andThen (encEmit s) fun s1 =>
    andThen (encCreate c s1) fun s2 =>
    .next (s2.setPrefixCode (some (rootCode c)))

/-- ENC_END (R87). -/
def encEnd (s : State) : Answer State :=
  andThen (encEmit s) fun s1 =>
  andThen (bpFlush s1) fun s2 =>
  .next (s2.setStatus .done)

end Sys2Proof.Machine
end

