-- ==== Sys2Proof/Machine/Control.lean ====
section
/-! DEFINITION. Command dispatch (spec/44_control.md R105 to R110): what each command word does in each `status`. ERR
absorbs every word; a reserved operation raises ILLEGAL_CMD; a legal operation in a state that does not accept it raises
PROTOCOL. An instruction value whose row the present `status` does not select does what its command word does there
(log entry 8). -/

namespace Sys2Proof.Machine

/-- The columns ENC_START and DEC_START of R105. -/
def startCommand (op : BitVec 3) (begin : State → State) (data : Byte) (s : State) : Answer State :=
  match s.status with
  | .idle => .next (begin s)
  | .done => .next (begin s)
  | .enc => .next (s.raise .protocol (commandInfo op data))
  | .dec => .next (s.raise .protocol (commandInfo op data))
  | .err => .next s

/-- The column DATA of R105. -/
def dataCommand (byte : Byte) (s : State) : Answer State :=
  match s.status with
  | .idle => .next (s.raise .protocol (commandInfo 3 byte))
  | .enc => encByte byte s
  | .dec => decByte byte s
  | .done => .next (s.raise .protocol (commandInfo 3 byte))
  | .err => .next s

/-- The column END of R105. -/
def endCommand (data : Byte) (s : State) : Answer State :=
  match s.status with
  | .idle => .next (s.raise .protocol (commandInfo 4 data))
  | .enc => encEnd s
  | .dec => .next (decEnd s)
  | .done => .next (s.raise .protocol (commandInfo 4 data))
  | .err => .next s

/-- The column of the reserved operations of R105 (R109). -/
def reservedCommand (op : BitVec 3) (data : Byte) (s : State) : Answer State :=
  match s.status with
  | .idle => .next (s.raise .illegalCmd (commandInfo op data))
  | .enc => .next (s.raise .illegalCmd (commandInfo op data))
  | .dec => .next (s.raise .illegalCmd (commandInfo op data))
  | .done => .next (s.raise .illegalCmd (commandInfo op data))
  | .err => .next s

/-- ENC_START (R85, R105). -/
def execEncStart (data : Byte) (s : State) : Answer State := startCommand 1 encStart data s

/-- DEC_START (R92, R105). -/
def execDecStart (data : Byte) (s : State) : Answer State := startCommand 2 decStart data s

/-- DATA in an encode pass: ENC_BYTE (R86). -/
def execDataEncByte (byte : Byte) (s : State) : Answer State := dataCommand byte s

/-- DATA in a decode pass: DEC_BYTE (R93). -/
def execDataDecByte (byte : Byte) (s : State) : Answer State := dataCommand byte s

/-- DATA outside a pass (R105, R122). -/
def execDataOutside (byte : Byte) (s : State) : Answer State := dataCommand byte s

/-- END in an encode pass: ENC_END (R87). -/
def execEndEncEnd (data : Byte) (s : State) : Answer State := endCommand data s

/-- END in a decode pass: DEC_END (R101). -/
def execEndDecEnd (data : Byte) (s : State) : Answer State := endCommand data s

/-- END outside a pass (R105, R122). -/
def execEndOutside (data : Byte) (s : State) : Answer State := endCommand data s

/-- Reserved operation 0 (R109). -/
def execReserved0 (data : Byte) (s : State) : Answer State := reservedCommand 0 data s

/-- Reserved operation 5 (R109). -/
def execReserved5 (data : Byte) (s : State) : Answer State := reservedCommand 5 data s

/-- Reserved operation 6 (R109). -/
def execReserved6 (data : Byte) (s : State) : Answer State := reservedCommand 6 data s

/-- Reserved operation 7 (R109). -/
def execReserved7 (data : Byte) (s : State) : Answer State := reservedCommand 7 data s

end Sys2Proof.Machine
end

