-- ==== Sys2Proof/Machine/StatusPort.lean ====
section
/-! DEFINITION. The status read port (R64, R65, R111): a 21-bit value, zero-extended, and no other effect. The value
goes to the model's own field `result` (log entry 7). -/

namespace Sys2Proof.Machine

/-- A read that returns the value of a register (R64). -/
def portRead {w : Nat} (v : BitVec w) (s : State) : State := s.returning (.port (v.setWidth 21))

/-- A read of a progress register: its value once a start command has written it; before that "an unspecified value"
(R65, R136), a free value of the register's width (log entry 6). -/
def progressRead {w : Nat} (v : BitVec w) (free : Nat → BitVec w) (s : State) : State :=
  if s.progressSpecified then portRead v s else (portRead (free s.freeCount) s).drawn

/-- RD STATUS (R64, R65). -/
def execRdStatus (s : State) : Answer State := .next (portRead (statusBits s.status) s)

/-- RD ERRCODE (R64, R66). -/
def execRdErrcode (s : State) : Answer State := .next (portRead (errcodeBits s.errcode) s)

/-- RD ERRINFO (R64). -/
def execRdErrinfo (s : State) : Answer State := .next (portRead s.errinfo s)

/-- RD CODESIZE (R64, R65). -/
def execRdCodesize (s : State) : Answer State := .next (progressRead s.codeSize Config.freeCodeSize s)

/-- RD NEXTCODE (R64, R65). -/
def execRdNextcode (s : State) : Answer State := .next (progressRead s.nextCode Config.freeNextCode s)

/-- Select 5, reserved: "read as 0" (R64). -/
def execRdReserved5 (s : State) : Answer State := .next (portRead (0#21) s)

/-- Select 6, reserved: "read as 0" (R64). -/
def execRdReserved6 (s : State) : Answer State := .next (portRead (0#21) s)

/-- Select 7, reserved: "read as 0" (R64). -/
def execRdReserved7 (s : State) : Answer State := .next (portRead (0#21) s)

end Sys2Proof.Machine
end

