-- ==== Sys2Proof/Machine/Dispatch.lean ====
section
/-! DEFINITION. The dispatch: one arm per constructor of Instr, in the opcode table's order. -/

namespace Sys2Proof.Machine

def exec (i : Instr) (s : State) : Host.Outcome State Fault Refusal :=
  match i with
  | .encStart data => Sys2Proof.Machine.execEncStart data s
  | .decStart data => Sys2Proof.Machine.execDecStart data s
  | .dataEncByte byte => Sys2Proof.Machine.execDataEncByte byte s
  | .dataDecByte byte => Sys2Proof.Machine.execDataDecByte byte s
  | .dataOutside byte => Sys2Proof.Machine.execDataOutside byte s
  | .endEncEnd data => Sys2Proof.Machine.execEndEncEnd data s
  | .endDecEnd data => Sys2Proof.Machine.execEndDecEnd data s
  | .endOutside data => Sys2Proof.Machine.execEndOutside data s
  | .reserved0 data => Sys2Proof.Machine.execReserved0 data s
  | .reserved5 data => Sys2Proof.Machine.execReserved5 data s
  | .reserved6 data => Sys2Proof.Machine.execReserved6 data s
  | .reserved7 data => Sys2Proof.Machine.execReserved7 data s
  | .decCodeFirst code => Sys2Proof.Machine.execDecCodeFirst code s
  | .decCodeKwkwk code => Sys2Proof.Machine.execDecCodeKwkwk code s
  | .decCodeLookup code => Sys2Proof.Machine.execDecCodeLookup code s
  | .decCodeInvalid code => Sys2Proof.Machine.execDecCodeInvalid code s
  | .dictInit => Sys2Proof.Machine.execDictInit s
  | .dictAppend pfx byte insertLK => Sys2Proof.Machine.execDictAppend pfx byte insertLK s
  | .dictLookup pfx byte => Sys2Proof.Machine.execDictLookup pfx byte s
  | .dictReconstruct code => Sys2Proof.Machine.execDictReconstruct code s
  | .bpInit => Sys2Proof.Machine.execBpInit s
  | .bpWrite code width => Sys2Proof.Machine.execBpWrite code width s
  | .bpFeed byte => Sys2Proof.Machine.execBpFeed byte s
  | .bpRead width => Sys2Proof.Machine.execBpRead width s
  | .bpFlush => Sys2Proof.Machine.execBpFlush s
  | .rdStatus => Sys2Proof.Machine.execRdStatus s
  | .rdErrcode => Sys2Proof.Machine.execRdErrcode s
  | .rdErrinfo => Sys2Proof.Machine.execRdErrinfo s
  | .rdCodesize => Sys2Proof.Machine.execRdCodesize s
  | .rdNextcode => Sys2Proof.Machine.execRdNextcode s
  | .rdReserved5 => Sys2Proof.Machine.execRdReserved5 s
  | .rdReserved6 => Sys2Proof.Machine.execRdReserved6 s
  | .rdReserved7 => Sys2Proof.Machine.execRdReserved7 s

end Sys2Proof.Machine
end

