-- ==== Sys2Proof/Machine/Fetch.lean ====
section
/-! DEFINITION. Fetching: taking the oldest event of the event list and decoding its word in the present mode (R29,
R69, R104; log entry 1). -/

namespace Sys2Proof.Machine

/-- What the fetch finds, with the state once the event has been taken. -/
inductive Fetched where
  | quiet                            -- no event
  | reset (s : State)                -- the hardware reset (R135)
  | instr (i : Instr) (s : State)
  | notAnInstr (e : DecodeError)
  deriving DecidableEq, Repr

/-- The oldest event, decoded in the mode the state is in. -/
def fetch (s : State) : Fetched :=
  match s.input with
  | [] => .quiet
  | .reset :: rest => .reset (s.withInput rest)
  | .word w :: rest =>
    match decode s.mode w with
    | .ok i => .instr i (s.withInput rest)
    | .error e => .notAnInstr e

/-- The state in which the very next step takes `w`: the word stands first in the event list. A code exists only in a
decode pass (R91), so for a code outside one a pass is begun (log entry 2). -/
def State.placeWord (s : State) (w : InstrWord) : State :=
  match w with
  | .code c => (if s.status = .dec then s else decStart s).withInput (.word (.code c) :: s.input)
  | .cmd v => s.withInput (.word (.cmd v) :: s.input)
  | .rd sel => s.withInput (.word (.rd sel) :: s.input)
  | .micro u ops => s.withInput (.word (.micro u ops) :: s.input)

end Sys2Proof.Machine
end

