-- ==== Sys2Proof/Machine/Step.lean ====
section
/-! DEFINITION. One step: the oldest event takes effect, whole (R104: a command is atomic). With no event "the block
does nothing until a command arrives" (R36). -/

namespace Sys2Proof.Machine

/-- One step of the machine. -/
def step (s : State) : Host.Outcome State Fault Refusal :=
  match fetch s with
  | .quiet => .next s
  | .reset s1 => .next s1.hardwareReset
  | .instr i s1 => exec i s1
  | .notAnInstr e => .refused (.undecodable e)

/-- `s` with the table word of `nbits` bits and value `w` placed where `step` takes its next word (log entries 2 and
9). -/
def State.withFetchWord (s : State) (nbits w : Nat) : State :=
  match tableWord nbits w with
  | some iw => s.placeWord iw
  | none => s

end Sys2Proof.Machine
end

