-- ==== Sys2Proof/Safety.lean ====
section
/-! DEFINITION. What counts as a safe state and a safe run, in the terms the statements use: the invariants of
spec/10_state.md R33, the packed stream as a sequence of bits (spec/20_memory.md R42), the width schedule
(spec/30_encoding.md R57) and runs of command words. -/

namespace Sys2Proof.Machine

/-! Bits and widths. -/

/-- The `w` low bits of a number, bit 0 first (R42: "bits are always consumed/produced LSB-first"). -/
def lsbBits (w v : Nat) : List Bool := (List.range w).map v.testBit

/-- A byte sequence as a bit sequence: bit `n` is bit `n mod 8` of byte `floor(n / 8)` (R42). -/
def byteBits (bs : List Byte) : List Bool := bs.flatMap fun b => lsbBits 8 b.toNat

/-- The pending bits, the oldest first (R21). -/
def State.pendingList (s : State) : List Bool := lsbBits s.pendingCount.toNat s.pendingBits

/-- The packed stream written so far in an encode pass: the bytes of OUT, then the pending bits. -/
def State.streamBits (s : State) : List Bool := byteBits s.out ++ s.pendingList

/-- `bitlen(n)` for `n >= 1` (R9). -/
def bitlen (n : Nat) : Nat := Nat.log2 n + 1

/-- `min(20, max(9, bitlen n))`, the width both growth rules give (R33 I3, R57). -/
def widthFor (n : Nat) : Nat := min Config.maxBits (max Config.initBits (bitlen n))

/-- `W(k)`, the width of the `k`-th code of a stream (R57). -/
def widthSchedule (k : Nat) : Nat := widthFor (255 + k)

/-- The register above the pending bits is zero (R21). -/
def State.pendingClean (s : State) : Prop := s.pendingBits < 2 ^ s.pendingCount.toNat

/-! Invariants. -/

/-- The memories are in their canonical form. -/
def State.canonical (s : State) : Prop := Memory.wf entUnlisted s.ent ∧ Memory.wf lkUnlisted s.lk

/-- I1 and I2 of R33: the range of `nextCode`, exactly the locations below it hold values, and every dynamic entry's
prefix is a smaller code. -/
structure DictInv (s : State) : Prop where
  canon   : s.canonical
  low     : Config.firstCode ≤ s.nextCode.toNat
  high    : s.nextCode.toNat ≤ 2 ^ Config.maxBits
  listed  : ∀ x ∈ s.ent, Config.nRoot ≤ x.1 ∧ x.1 < s.nextCode.toNat
  dynamic : ∀ c : Code, Config.nRoot ≤ c.toNat → c.toNat < s.nextCode.toNat →
    ∃ p b, s.entRead c = some { pfx := some p, byte := b } ∧ p.toNat < c.toNat

/-- What holds at every command boundary of an encode pass (R33 I1 to I6, R22 a). -/
structure EncInv (s : State) : Prop where
  dict    : DictInv s
  index   : ∀ p b c, s.lkRead p b = some c ↔ s.entRead c = some { pfx := p, byte := b }
  pfxLow  : ∀ p, s.prefixCode = some p → p.toNat < s.nextCode.toNat
  width   : s.codeSize.toNat = widthFor s.nextCode.toNat
  pending : s.pendingCount.toNat < 8
  clean   : s.pendingClean

/-- What holds at every command boundary of a decode pass (R33 I1 to I3, I5, I7, R22 b, R103). -/
structure DecInv (s : State) : Prop where
  dict    : DictInv s
  first   : s.oldCode = none → s.oldString = [] ∧ s.nextCode.toNat = Config.firstCode
  old     : ∀ c, s.oldCode = some c → c.toNat < s.nextCode.toNat ∧ dictReconstruct c s = .next s.oldString
  width   : s.codeSize.toNat = widthFor (s.nextCode.toNat + 1)
  pending : s.pendingCount.toNat < s.codeSize.toNat
  clean   : s.pendingClean

/-- The control registers (R24, R35, R65, R66). -/
structure CtrlInv (s : State) : Prop where
  errIff    : s.errcode ≠ .none ↔ s.status = .err
  noInfo    : s.status ≠ .err → s.errinfo = 0
  idle      : s.status = .idle → s.started = false ∧ s.out = []
  running   : s.status = .enc ∨ s.status = .dec ∨ s.status = .done → s.started = true
  sizeRange : s.started = true → Config.initBits ≤ s.codeSize.toNat ∧ s.codeSize.toNat ≤ Config.maxBits
  nextRange : s.started = true → Config.firstCode ≤ s.nextCode.toNat ∧ s.nextCode.toNat ≤ 2 ^ Config.maxBits

/-- The whole invariant of R33 at a command boundary, for a block whose waiting events are a host's (log entry 3). -/
structure Inv (s : State) : Prop where
  canon : s.canonical
  ctrl  : CtrlInv s
  enc   : s.status = .enc → EncInv s
  dec   : s.status = .dec → DecInv s
  host  : ∀ e ∈ s.input, e.isHost = true

/-! What one new entry does. -/

/-- DICT_APPEND as its callers see it (R73, R38): the location `nextCode`, and no other, receives the pair, and
`nextCode` is incremented. -/
def EntryAppended (s t : State) (p : Code) (b : Byte) : Prop :=
  t.nextCode.toNat = s.nextCode.toNat + 1 ∧
  (∀ c : Code, c.toNat = s.nextCode.toNat → t.entRead c = some { pfx := some p, byte := b }) ∧
  (∀ c : Code, c.toNat ≠ s.nextCode.toNat → t.entRead c = s.entRead c)

/-- The encoder's half of R86 behind "if `nextCode <= MAXCODE`": entry, index pair, growth on `nextCode = 2^codeSize`;
at the cap nothing changes (R88, R89). -/
def EncoderCreates (s t : State) (p : Code) (b : Byte) : Prop :=
  (s.nextCode.toNat ≤ Config.maxCode →
    EntryAppended s t p b ∧
    (∀ c : Code, c.toNat = s.nextCode.toNat → t.lkRead (some p) b = some c) ∧
    (∀ q d, (q, d) ≠ (some p, b) → t.lkRead q d = s.lkRead q d) ∧
    t.codeSize.toNat =
      (if s.nextCode.toNat + 1 = 2 ^ s.codeSize.toNat ∧ s.codeSize.toNat < Config.maxBits then s.codeSize.toNat + 1
        else s.codeSize.toNat)) ∧
  (Config.maxCode < s.nextCode.toNat →
    t.nextCode = s.nextCode ∧ t.codeSize = s.codeSize ∧ t.ent = s.ent ∧ t.lk = s.lk)

/-- DEC_UPDATE (R99): entry and growth on `nextCode + 1 = 2^codeSize`, both of the incremented `nextCode`; at the cap
nothing changes; LK is not touched. -/
def DecoderUpdates (s t : State) (p : Code) (fb : Byte) : Prop :=
  (s.nextCode.toNat ≤ Config.maxCode →
    EntryAppended s t p fb ∧
    t.codeSize.toNat =
      (if s.nextCode.toNat + 1 + 1 = 2 ^ s.codeSize.toNat ∧ s.codeSize.toNat < Config.maxBits then s.codeSize.toNat + 1
        else s.codeSize.toNat)) ∧
  (Config.maxCode < s.nextCode.toNat → t.nextCode = s.nextCode ∧ t.codeSize = s.codeSize ∧ t.ent = s.ent)

/-- What the host can see of two states is the same: the five status registers' contents and OUT (R31, R41). -/
def SameView (s t : State) : Prop :=
  t.status = s.status ∧ t.errcode = s.errcode ∧ t.errinfo = s.errinfo ∧ t.codeSize = s.codeSize ∧
  t.nextCode = s.nextCode ∧ t.out = s.out

/-! Runs. -/

/-- `n` steps, stopping at the first stop. -/
def runSteps : Nat → State → Answer State
  | 0, s => .next s
  | n + 1, s => andThen (step s) (runSteps n)

/-- "A run is the fold of `step` over the host's command list" (R104): the words are all the events that wait, and one
step is made for each. -/
def runCommands (ws : List CommandWord) (s : State) : Answer State :=
  runSteps ws.length (s.withInput (ws.map fun w => .word (.cmd w)))

/-- `ENC_START; DATA* S; END` (R70). -/
def encodeScript (bytes : List Byte) : List CommandWord :=
  [commandWord 1 0] ++ bytes.map (commandWord 3) ++ [commandWord 4 0]

/-- `DEC_START; DATA* S; END` (R70). -/
def decodeScript (bytes : List Byte) : List CommandWord :=
  [commandWord 2 0] ++ bytes.map (commandWord 3) ++ [commandWord 4 0]

/-! The bit packer's symmetry (R83). -/

/-- `BP_WRITE(v_1, w_1) ... BP_WRITE(v_n, w_n); BP_FLUSH`. -/
def writeCodes : List (Code × BitVec 5) → State → Answer State
  | [], s => bpFlush s
  | (c, w) :: rest, s => andThen (bpWrite c w s) (writeCodes rest)

/-- BP_FEED bytes until `width` bits are pending or no byte is left; answers the bytes left. -/
def feedFor (width : BitVec 5) : List Byte → State → Answer (State × List Byte)
  | [], s => .next (s, [])
  | b :: bs, s =>
    if exhausted s.pendingCount width then andThen (bpFeed b s) (feedFor width bs) else .next (s, b :: bs)

/-- `BP_READ(w_1) ... BP_READ(w_n)`, each after enough bytes have been fed, "each byte fed no later than needed"; answers
what each read returned, and the bytes left. -/
def readCodes : List (BitVec 5) → List Byte → State → Answer (State × List (Option Code) × List Byte)
  | [], bs, s => .next (s, [], bs)
  | w :: ws, bs, s =>
    andThen (feedFor w bs s) fun f =>
    andThen (bpRead w f.1) fun r =>
    andThen (readCodes ws f.2 r.1) fun rest =>
    .next (rest.1, r.2 :: rest.2.1, rest.2.2)

end Sys2Proof.Machine
end

