-- ==== Sys2Proof/Certificates/Slice0/Obligations.lean ====
section
/-! DEFINITION. The statements for the provers. Each docstring names the rules of spec/ it formalises, and the log
entries for what is the model's choice. A frame is written `t = { s with f := t.f, … }`: every field but those named is
unchanged. Throughout, events wait in `input` (log entry 1), a returned value stands in `result` (log entry 7), and
micro-operations and single codes run as steps of a trace (log entry 3), micro-operations in every status (log
entry 21). -/

open Sys2Proof Sys2Proof.Machine

/-! ## The step and the encodings -/

/-- A step takes the oldest event: nothing when there is none (R36), the hardware reset (R135 says that it happens), or
the instruction the event's word decodes to in the present mode, run on the state with the event taken (R29, R104). The
model's choices in it: the list of events (log entry 1); in the reset clause, the values of the fields that R35 leaves
unspecified, which are State.reset's (log entries 4, 5 and 7), and that the later events and `freeCount` stay (log entry
16); and the refusal of a word that is no instruction (log entry 20). -/
def Obligations.StepRunsTheDecodedInstruction : Prop :=
  ∀ s : State,
    (s.input = [] → step s = .next s) ∧
    (∀ rest, s.input = .reset :: rest → step s = .next { State.reset with input := rest, freeCount := s.freeCount }) ∧
    (∀ w rest i, s.input = .word w :: rest → decode s.mode w = .ok i → step s = exec i { s with input := rest }) ∧
    (∀ w rest e, s.input = .word w :: rest → decode s.mode w = .error e → step s = .refused (.undecodable e))

/-- Every instruction comes back from its own word in every mode that selects its row (R62, R64, R67, R69, R94). The
rows of DATA and END in ERR are log entry 8, the operand `insertLK` is log entry 11, and the operands of a raw
micro-operation as register patterns are log entry 20. -/
def Obligations.DecodeOfEncodeIsTheInstruction : Prop :=
  ∀ (m : Mode) (i : Instr), i.selectedIn m = true → decode m (encode i) = .ok i

/-- Whatever word decodes, the instruction's encoding is that word, and the mode selects its row (R60, R62, R64, R67,
with the choices of log entries 8, 11 and 20). -/
def Obligations.EncodeOfDecodeIsTheWord : Prop :=
  ∀ (m : Mode) (w : InstrWord) (i : Instr), decode m w = .ok i → encode i = w ∧ i.selectedIn m = true

/-- Every 11-bit command word decodes, with the operation in bits 10..8 and the data in bits 7..0 (R62, R63, R68):
command words are 256 * op + data. Every 3-bit status select decodes, in every mode, to the register of its number in
the table of R64, 5 to 7 reserved. That DATA and END decode to their rows outside a pass in ERR too, where R110 absorbs
every word, is the model's reading (log entry 8). -/
def Obligations.CommandFieldsAreWhereTheTablePutsThem : Prop :=
  ∀ (m : Mode) (d : Byte),
    decode m (.cmd (BitVec.ofNat 11 (0x100 + d.toNat))) = .ok (.encStart d) ∧
    decode m (.cmd (BitVec.ofNat 11 (0x200 + d.toNat))) = .ok (.decStart d) ∧
    decode m (.cmd (BitVec.ofNat 11 d.toNat)) = .ok (.reserved0 d) ∧
    decode m (.cmd (BitVec.ofNat 11 (0x500 + d.toNat))) = .ok (.reserved5 d) ∧
    decode m (.cmd (BitVec.ofNat 11 (0x600 + d.toNat))) = .ok (.reserved6 d) ∧
    decode m (.cmd (BitVec.ofNat 11 (0x700 + d.toNat))) = .ok (.reserved7 d) ∧
    decode m (.cmd (BitVec.ofNat 11 (0x300 + d.toNat))) = .ok
      (match m.status with | .enc => .dataEncByte d | .dec => .dataDecByte d | _ => .dataOutside d) ∧
    decode m (.cmd (BitVec.ofNat 11 (0x400 + d.toNat))) = .ok
      (match m.status with | .enc => .endEncEnd d | .dec => .endDecEnd d | _ => .endOutside d) ∧
    decode m (.rd 0b000#3) = .ok .rdStatus ∧ decode m (.rd 0b001#3) = .ok .rdErrcode ∧
    decode m (.rd 0b010#3) = .ok .rdErrinfo ∧ decode m (.rd 0b011#3) = .ok .rdCodesize ∧
    decode m (.rd 0b100#3) = .ok .rdNextcode ∧ decode m (.rd 0b101#3) = .ok .rdReserved5 ∧
    decode m (.rd 0b110#3) = .ok .rdReserved6 ∧ decode m (.rd 0b111#3) = .ok .rdReserved7

/-- Six words written out from R62, R64, R67 and R94 decode to their instructions. A seventh, a micro-operation
identifier that R67 calls unused, is rejected by name: the rejection is the model's (log entry 20). -/
def Obligations.WordsOfTheSpecDecode : Prop :=
  decode { status := .idle, oldCode := none, nextCode := 0 } (.cmd 0b00100000000#11) = .ok (.encStart 0) ∧
  decode { status := .enc, oldCode := none, nextCode := 256 } (.cmd 0b01101000001#11) = .ok (.dataEncByte 0x41) ∧
  decode { status := .dec, oldCode := none, nextCode := 256 } (.cmd 0b01110000100#11) = .ok (.dataDecByte 0x84) ∧
  decode { status := .dec, oldCode := some 65, nextCode := 256 } (.code 256) = .ok (.decCodeKwkwk 256) ∧
  decode { status := .idle, oldCode := none, nextCode := 0 } (.rd 0b100#3) = .ok .rdNextcode ∧
  decode { status := .idle, oldCode := none, nextCode := 0 } (.micro 0b1000#4 .nothing) = .ok .bpFlush ∧
  decode { status := .idle, oldCode := none, nextCode := 0 } (.micro 0b1001#4 .nothing)
    = .error (.unusedMicroOp 0b1001#4)

/-- The 29-bit entry format and the 21-bit CodeOrNone format: `None` is `{1, 0}` and `Some c` is `{0, c}`, the prefix in
bits 28..8 and the byte in bits 7..0 (R59, R60, R61). The last clause is the model's: R60 says only that the patterns
with `none = 1` and `code != 0` are never produced, and reading one back is rejected by name (log entry 20). -/
def Obligations.EntryAndKeyFormats : Prop :=
  (codeOrNoneBits none).toNat = 2 ^ 20 ∧
  (∀ c : Code, (codeOrNoneBits (some c)).toNat = c.toNat) ∧
  (∀ e : Entry, (entryBits e).toNat = (codeOrNoneBits e.pfx).toNat * 256 + e.byte.toNat) ∧
  (∀ (p : CodeOrNone) (b : Byte), keyBits p b = entryBits { pfx := p, byte := b }) ∧
  (∀ p : CodeOrNone, codeOrNoneOfBits (codeOrNoneBits p) = .ok p) ∧
  (∀ b : BitVec 21, 2 ^ 20 < b.toNat → codeOrNoneOfBits b = .error (.codeOrNonePattern b))

/-- The table of R57. -/
def Obligations.WidthScheduleTable : Prop :=
  (∀ k, 1 ≤ k → k ≤ 256 → widthSchedule k = 9) ∧
  (∀ w k, 10 ≤ w → w ≤ 19 → 2 ^ (w - 1) - 255 ≤ k → k ≤ 2 ^ w - 256 → widthSchedule k = w) ∧
  (∀ k, 524033 ≤ k → widthSchedule k = 20)

/-! ## Reset, dispatch, errors -/

/-- The hardware reset gives `status`, `errcode`, `errinfo` and OUT the values of R35, from any state and with any
events waiting (R135); the model's reset state has them too, and both level outputs are low (R131). That the later
events stay is log entry 16. -/
def Obligations.ResetLeavesTheSpecifiedValues : Prop :=
  (State.reset.status = .idle ∧ State.reset.errcode = .none ∧ State.reset.errinfo = 0 ∧ State.reset.out = []) ∧
  ∀ s rest, s.input = .reset :: rest →
    ∃ t, step s = .next t ∧ t.status = .idle ∧ t.errcode = .none ∧ t.errinfo = 0 ∧ t.out = [] ∧ t.input = rest ∧
      t.doneOutput = false ∧ t.errOutput = false

/-- ENC_START (R85). In IDLE or DONE it begins an encode pass: the dictionary holds the 256 root entries and LK the 256
root pairs and nothing else, whatever an earlier pass left (R52), `prefixCode = None`, `codeSize = 9`, nothing pending,
OUT empty; `oldCode`, `oldString`, `errcode` and `errinfo` are unchanged. In ENC or DEC it raises PROTOCOL; in ERR it is
ignored. The `data` field changes only what an error records (R63). (`started` is the model's own bit, log entry 6.) -/
def Obligations.EncStartBeginsAFreshPass : Prop :=
  ∀ (d : Byte) (s : State),
    (s.status = .idle ∨ s.status = .done →
      ∃ t, exec (.encStart d) s = .next t ∧
        t.status = .enc ∧ t.codeSize = 9 ∧ t.nextCode = 256 ∧ t.prefixCode = none ∧ t.pendingBits = 0 ∧
        t.pendingCount = 0 ∧ t.out = [] ∧ t.started = true ∧
        (∀ c : Code, t.entRead c =
          if c.toNat < 256 then some { pfx := none, byte := BitVec.ofNat 8 c.toNat } else none) ∧
        (∀ b : Byte, t.lkRead none b = some (BitVec.ofNat 20 b.toNat)) ∧ (∀ p b, t.lkRead (some p) b = none) ∧
        t = { s with
          status := t.status, codeSize := t.codeSize, nextCode := t.nextCode, prefixCode := t.prefixCode,
          pendingBits := t.pendingBits, pendingCount := t.pendingCount, ent := t.ent, lk := t.lk, out := t.out,
          started := t.started }) ∧
    (s.status = .enc ∨ s.status = .dec →
      exec (.encStart d) s =
        .next { s with status := .err, errcode := .protocol, errinfo := BitVec.ofNat 20 (0x100 + d.toNat) }) ∧
    (s.status = .err → exec (.encStart d) s = .next s)

/-- DEC_START (R92). In IDLE or DONE it begins a decode pass: the dictionary holds the 256 root entries and nothing
else, `oldCode = None`, `oldString = []`, `codeSize = 9`, nothing pending, OUT empty; `prefixCode`, `errcode` and
`errinfo` are unchanged; LK, which a decode pass does not use, may change (log entry 13). In ENC or DEC it raises
PROTOCOL; in ERR it is ignored. (`started` is the model's own bit, log entry 6.) -/
def Obligations.DecStartBeginsAFreshPass : Prop :=
  ∀ (d : Byte) (s : State),
    (s.status = .idle ∨ s.status = .done →
      ∃ t, exec (.decStart d) s = .next t ∧
        t.status = .dec ∧ t.codeSize = 9 ∧ t.nextCode = 256 ∧ t.oldCode = none ∧ t.oldString = [] ∧
        t.pendingBits = 0 ∧ t.pendingCount = 0 ∧ t.out = [] ∧ t.started = true ∧
        (∀ c : Code, t.entRead c =
          if c.toNat < 256 then some { pfx := none, byte := BitVec.ofNat 8 c.toNat } else none) ∧
        t = { s with
          status := t.status, codeSize := t.codeSize, nextCode := t.nextCode, oldCode := t.oldCode,
          oldString := t.oldString, pendingBits := t.pendingBits, pendingCount := t.pendingCount, ent := t.ent,
          lk := t.lk, out := t.out, started := t.started }) ∧
    (s.status = .enc ∨ s.status = .dec →
      exec (.decStart d) s =
        .next { s with status := .err, errcode := .protocol, errinfo := BitVec.ofNat 20 (0x200 + d.toNat) }) ∧
    (s.status = .err → exec (.decStart d) s = .next s)

/-- PROTOCOL: a legal operation in a state that does not accept it, `DATA` or `END` with no pass running or a start
command while a pass is running. It sets ERR, records the whole command word and changes nothing else (R122, R105,
R124, R125). -/
def Obligations.MisplacedCommandsRaiseProtocol : Prop :=
  ∀ (d : Byte) (s : State),
    (s.status = .idle ∨ s.status = .done →
      exec (.dataOutside d) s =
        .next { s with status := .err, errcode := .protocol, errinfo := BitVec.ofNat 20 (0x300 + d.toNat) } ∧
      exec (.endOutside d) s =
        .next { s with status := .err, errcode := .protocol, errinfo := BitVec.ofNat 20 (0x400 + d.toNat) }) ∧
    (s.status = .enc ∨ s.status = .dec →
      exec (.encStart d) s =
        .next { s with status := .err, errcode := .protocol, errinfo := BitVec.ofNat 20 (0x100 + d.toNat) } ∧
      exec (.decStart d) s =
        .next { s with status := .err, errcode := .protocol, errinfo := BitVec.ofNat 20 (0x200 + d.toNat) })

/-- ILLEGAL_CMD: the reserved operations 0, 5, 6, 7 raise it in every state but ERR, record the whole command word and
change nothing else (R109, R123, R124, R125). -/
def Obligations.ReservedOperationsRaiseIllegalCmd : Prop :=
  ∀ (d : Byte) (s : State), s.status ≠ .err →
    exec (.reserved0 d) s =
      .next { s with status := .err, errcode := .illegalCmd, errinfo := BitVec.ofNat 20 d.toNat } ∧
    exec (.reserved5 d) s =
      .next { s with status := .err, errcode := .illegalCmd, errinfo := BitVec.ofNat 20 (0x500 + d.toNat) } ∧
    exec (.reserved6 d) s =
      .next { s with status := .err, errcode := .illegalCmd, errinfo := BitVec.ofNat 20 (0x600 + d.toNat) } ∧
    exec (.reserved7 d) s =
      .next { s with status := .err, errcode := .illegalCmd, errinfo := BitVec.ofNat 20 (0x700 + d.toNat) }

/-- In ERR every command word, legal or not, leaves the whole state unchanged, `errcode` and `errinfo` included (first
error wins), but for the event taken; only the hardware reset leaves ERR (R110). -/
def Obligations.ErrAbsorbsEveryCommandWord : Prop :=
  ∀ s : State, s.status = .err →
    (∀ w rest, s.input = .word (.cmd w) :: rest → step s = .next { s with input := rest }) ∧
    (∀ e rest t, s.input = e :: rest → e.isHost = true → step s = .next t → (t.status ≠ .err ↔ e = .reset))

/-- The complete transition graph of `status` over the host's events (R112): a status read keeps it; reset makes it
IDLE; and for command words, by `op` in bits 10..8. -/
def Obligations.StatusFollowsTheTransitionGraph : Prop :=
  ∀ (s t : State) (e : Event) (rest : List Event), s.input = e :: rest → step s = .next t →
    (e = .reset → t.status = .idle) ∧
    (∀ sel, e = .word (.rd sel) → t.status = s.status) ∧
    (∀ w : CommandWord, e = .word (.cmd w) →
      (s.status = .idle ∨ s.status = .done →
        t.status = if w.toNat / 256 = 1 then .enc else if w.toNat / 256 = 2 then .dec else .err) ∧
      (s.status = .enc →
        t.status = if w.toNat / 256 = 3 then .enc else if w.toNat / 256 = 4 then .done else .err) ∧
      (s.status = .dec → w.toNat / 256 = 3 →
        t.status = .dec ∨ (t.status = .err ∧ t.errcode = .invalidCode)) ∧
      (s.status = .dec → w.toNat / 256 ≠ 3 →
        t.status = if w.toNat / 256 = 4 then .done else .err) ∧
      (s.status = .err → t.status = .err))

/-- The status reads return the register, zero-extended to 21 bits, the reserved selects 0, and nothing else changes
(R64, R65, R66, R111). CODESIZE and NEXTCODE are stated where they are specified, that is once a start command has run
since reset (R65; `started` says so, log entry 6). -/
def Obligations.StatusReadsReturnTheRegisters : Prop :=
  ∀ s : State,
    (∃ v, exec .rdStatus s = .next { s with result := .port v } ∧
      v.toNat = (match s.status with | .idle => 0 | .enc => 1 | .dec => 2 | .done => 3 | .err => 4)) ∧
    (∃ v, exec .rdErrcode s = .next { s with result := .port v } ∧
      v.toNat = (match s.errcode with | .none => 0 | .invalidCode => 1 | .protocol => 2 | .illegalCmd => 3)) ∧
    (∃ v, exec .rdErrinfo s = .next { s with result := .port v } ∧ v.toNat = s.errinfo.toNat) ∧
    (s.started = true → ∃ v, exec .rdCodesize s = .next { s with result := .port v } ∧ v.toNat = s.codeSize.toNat) ∧
    (s.started = true → ∃ v, exec .rdNextcode s = .next { s with result := .port v } ∧ v.toNat = s.nextCode.toNat) ∧
    exec .rdReserved5 s = .next { s with result := .port 0 } ∧
    exec .rdReserved6 s = .next { s with result := .port 0 } ∧
    exec .rdReserved7 s = .next { s with result := .port 0 }

/-- Before the first start command a read of CODESIZE or NEXTCODE returns some value of the register's width, which the
statement leaves open, and changes no field of the block (R65, R136; the free value and its counter are the model's,
log entry 6). -/
def Obligations.ProgressReadsBeforeAStartAreUnspecified : Prop :=
  ∀ s : State, s.started = false →
    (∃ v : PortWord, v.toNat < 2 ^ 5 ∧
      exec .rdCodesize s = .next { s with result := .port v, freeCount := s.freeCount + 1 }) ∧
    (∃ v : PortWord, exec .rdNextcode s = .next { s with result := .port v, freeCount := s.freeCount + 1 })

/-- The level outputs are decodes of `status`: `done` is high exactly when a read of STATUS returns 3, `err` exactly
when it returns 4 (R131, R30), so the two are never high together. -/
def Obligations.LevelOutputsDecodeTheStatus : Prop :=
  ∀ s : State, ∃ v, exec .rdStatus s = .next { s with result := .port v } ∧
    (s.doneOutput = true ↔ v = 3) ∧ (s.errOutput = true ↔ v = 4) ∧ ¬ (s.doneOutput = true ∧ s.errOutput = true)

/-! ## The bit packer -/

/-- BP_INIT empties the pending register and changes nothing else; a BP_FLUSH after it emits nothing (R78). That both
run alone, in every status, is the model's choice (log entry 21). -/
def Obligations.BpInitEmptiesThePendingRegister : Prop :=
  ∀ s : State,
    exec .bpInit s = .next { s with pendingBits := 0, pendingCount := 0 } ∧
    exec .bpFlush { s with pendingBits := 0, pendingCount := 0 } = .next { s with pendingBits := 0, pendingCount := 0 }

/-- BP_WRITE appends exactly the `width` low bits of the code to the packed stream, bit 0 first, the high bits dropped
without a signal; complete bytes have left and fewer than 8 bits stay pending (R79, R42). Nothing else changes. That it
runs alone, in every status, is the model's choice (log entry 21). -/
def Obligations.BpWriteAppendsTheLowBits : Prop :=
  ∀ (c : Code) (w : BitVec 5) (s : State), 1 ≤ w.toNat → w.toNat ≤ 20 → s.pendingCount.toNat ≤ 7 → s.pendingClean →
    ∃ t, exec (.bpWrite c w) s = .next t ∧
      t.streamBits = s.streamBits ++ lsbBits w.toNat c.toNat ∧
      s.out <+: t.out ∧ t.out.length = s.out.length + (s.pendingCount.toNat + w.toNat) / 8 ∧
      t.pendingCount.toNat = (s.pendingCount.toNat + w.toNat) % 8 ∧ t.pendingClean ∧
      t = { s with out := t.out, pendingBits := t.pendingBits, pendingCount := t.pendingCount }

/-- BP_FEED appends the byte's bits to the pending bits, bit 0 first, and discards none (R80). Nothing else changes.
That it runs alone, in every status, is the model's choice (log entry 21). -/
def Obligations.BpFeedAppendsTheByte : Prop :=
  ∀ (b : Byte) (s : State), s.pendingCount.toNat ≤ 19 → s.pendingClean →
    ∃ t, exec (.bpFeed b) s = .next t ∧
      t.pendingList = s.pendingList ++ lsbBits 8 b.toNat ∧ t.pendingCount.toNat = s.pendingCount.toNat + 8 ∧
      t.pendingClean ∧ t = { s with pendingBits := t.pendingBits, pendingCount := t.pendingCount }

/-- BP_READ returns `exhausted` and changes nothing when fewer than `width` bits are pending; otherwise it removes
exactly the `width` oldest bits and returns them as a number below `2^width` (R81). That it runs alone, in every status,
is the model's choice (log entry 21). -/
def Obligations.BpReadTakesTheOldestBits : Prop :=
  ∀ (w : BitVec 5) (s : State), 1 ≤ w.toNat → w.toNat ≤ 20 → s.pendingClean →
    (s.pendingCount.toNat < w.toNat → exec (.bpRead w) s = .next { s with result := .read none }) ∧
    (w.toNat ≤ s.pendingCount.toNat →
      ∃ t c, exec (.bpRead w) s = .next t ∧ t.result = .read (some c) ∧ c.toNat < 2 ^ w.toNat ∧
        s.pendingList = lsbBits w.toNat c.toNat ++ t.pendingList ∧
        t.pendingCount.toNat = s.pendingCount.toNat - w.toNat ∧ t.pendingClean ∧
        t = { s with pendingBits := t.pendingBits, pendingCount := t.pendingCount, result := t.result })

/-- BP_FLUSH pads the packed stream with zeros to a byte boundary, by fewer than 8 bits, emits nothing when nothing is
pending, and leaves the register empty (R82, R44). Nothing else changes. That it runs alone, in every status, is the
model's choice (log entry 21). -/
def Obligations.BpFlushPadsToAByte : Prop :=
  ∀ s : State, s.pendingCount.toNat ≤ 7 → s.pendingClean →
    ∃ t pad, exec .bpFlush s = .next t ∧ pad < 8 ∧
      byteBits t.out = s.streamBits ++ List.replicate pad false ∧
      (s.pendingCount.toNat = 0 → t.out = s.out) ∧ t.pendingBits = 0 ∧ t.pendingCount = 0 ∧
      t = { s with out := t.out, pendingBits := t.pendingBits, pendingCount := t.pendingCount }

/-- Outside the bit packer's contract: a width outside 1..20 is refused, as R77 (D15) says of a model. R79, R80 and R82
state a precondition on the pending bits and no more; that a call outside it is refused too, by name, is the model's
choice (log entry 10), and so is that the calls are made alone, in every status (log entry 21). -/
def Obligations.BpCallsOutsideTheContractAreRefused : Prop :=
  ∀ (c : Code) (w : BitVec 5) (b : Byte) (s : State),
    (w.toNat = 0 ∨ 20 < w.toNat →
      exec (.bpWrite c w) s = .refused .widthOutsideContract ∧ exec (.bpRead w) s = .refused .widthOutsideContract) ∧
    (7 < s.pendingCount.toNat →
      exec .bpFlush s = .refused .pendingNotNormalized ∧
      (1 ≤ w.toNat → w.toNat ≤ 20 → exec (.bpWrite c w) s = .refused .pendingNotNormalized)) ∧
    (19 < s.pendingCount.toNat → exec (.bpFeed b) s = .refused .pendingTooFullToFeed)

/-- The bit packer's symmetry (R83): writing any sequence of `(value, width)` pairs with `width` in 1..20 and
`value < 2^width` from the empty register and flushing, then reading the same widths back in order from an empty
register fed with the bytes written, each byte no later than needed, returns the values; every byte is consumed and the
padding left pending is zero bits, fewer than 8. -/
def Obligations.BpWriteThenReadIsSymmetric : Prop :=
  ∀ (pairs : List (Code × BitVec 5)) (s r : State),
    (∀ x ∈ pairs, 1 ≤ x.2.toNat ∧ x.2.toNat ≤ 20 ∧ x.1.toNat < 2 ^ x.2.toNat) →
    s.pendingBits = 0 → s.pendingCount = 0 → s.out = [] → r.pendingBits = 0 → r.pendingCount = 0 →
    ∃ t u, writeCodes pairs s = .next t ∧
      readCodes (pairs.map (·.2)) t.out r = .next (u, pairs.map (some ·.1), []) ∧
      u.pendingBits = 0 ∧ u.pendingCount.toNat < 8 ∧
      u.pendingCount.toNat + (pairs.map (·.2.toNat)).sum = 8 * t.out.length

/-- In use the pending register never needs more than 27 bits, so no result depends on PEND_W (R22 c, R116, R147): with
what BP_WRITE ORs in in an encode pass, and with what BP_FEED ORs in in a decode pass. (The model's register is a
natural number, log entry 12.) -/
def Obligations.PendingRegisterFitsInTwentySevenBits : Prop :=
  (∀ (s : State) (c : Code), EncInv s →
    s.pendingCount.toNat + s.codeSize.toNat ≤ 27 ∧
    s.pendingBits ||| (low s.codeSize.toNat c.toNat <<< s.pendingCount.toNat) < 2 ^ Config.pendWMin) ∧
  (∀ (s : State) (b : Byte), DecInv s →
    s.pendingCount.toNat + 8 ≤ 27 ∧ s.pendingBits ||| (b.toNat <<< s.pendingCount.toNat) < 2 ^ Config.pendWMin)

/-! ## The dictionary -/

/-- DICT_INIT: the 256 root entries and root pairs, no other entry and no other pair, `nextCode = 256`; nothing else
changes (R72, R52). The canonical form is the model's representation (log entry 5), and that DICT_INIT runs alone, in
every status, is its choice (log entry 21). -/
def Obligations.DictInitMakesTheRoots : Prop :=
  ∀ s : State, ∃ t, exec .dictInit s = .next t ∧ t.nextCode = 256 ∧
    (∀ c : Code, t.entRead c =
      if c.toNat < 256 then some { pfx := none, byte := BitVec.ofNat 8 c.toNat } else none) ∧
    (∀ b : Byte, t.lkRead none b = some (BitVec.ofNat 20 b.toNat)) ∧ (∀ p b, t.lkRead (some p) b = none) ∧
    t.canonical ∧ t = { s with ent := t.ent, lk := t.lk, nextCode := t.nextCode }

/-- DICT_APPEND (R73): returns `nextCode`, writes that location and no other, inserts the pair in LK if and only if the
caller says so, changes no other pair, increments `nextCode` without wrapping; the new pair is visible to the very next
lookup and the new entry to the very next read (R51). The operand `insertLK` is log entry 11, the canonical form log
entry 5; that it runs alone, in every status, is the model's choice (log entry 21). -/
def Obligations.DictAppendCreatesTheNextEntry : Prop :=
  ∀ (p : Code) (b : Byte) (insertLK : Bool) (s : State), s.canonical → s.nextCode.toNat ≤ 1048575 →
    p.toNat < s.nextCode.toNat →
    ∃ t c, exec (.dictAppend (some p) b insertLK) s = .next t ∧
      t.result = .newCode c ∧ c.toNat = s.nextCode.toNat ∧ EntryAppended s t p b ∧
      (insertLK = true → t.lkRead (some p) b = some c) ∧
      (insertLK = false → t.lk = s.lk) ∧
      (∀ q d, (q, d) ≠ (some p, b) → t.lkRead q d = s.lkRead q d) ∧
      t.canonical ∧ t = { s with ent := t.ent, lk := t.lk, nextCode := t.nextCode, result := t.result }

/-- A DICT call that violates its precondition is refused, not given a value: an append at the full dictionary or with
a prefix that is no entry, a reconstruction of a code that is no entry (R71, R73 b, R75 d, U9, U10; the refusals' names
are log entry 10). That the calls are made alone, in every status, is the model's choice (log entry 21). -/
def Obligations.DictCallsOutsideTheContractAreRefused : Prop :=
  ∀ (p c : Code) (b : Byte) (l : Bool) (s : State),
    (1048575 < s.nextCode.toNat → ∀ q, exec (.dictAppend q b l) s = .refused .appendAtFullDictionary) ∧
    (s.nextCode.toNat ≤ 1048575 → exec (.dictAppend none b l) s = .refused .appendPrefixNotAnEntry) ∧
    (s.nextCode.toNat ≤ 1048575 → s.nextCode.toNat ≤ p.toNat →
      exec (.dictAppend (some p) b l) s = .refused .appendPrefixNotAnEntry) ∧
    (s.nextCode.toNat ≤ c.toNat → exec (.dictReconstruct c) s = .refused .reconstructNotAnEntry)

/-- DICT_LOOKUP answers and changes nothing else (R74); in an encode pass it is exact: it hits a code if and only if
that code's entry is the pair, and `(None, b)` always hits `b` (R27, R39). That it runs alone, in every status, is the
model's choice (log entry 21). -/
def Obligations.DictLookupIsExact : Prop :=
  ∀ (p : CodeOrNone) (b : Byte) (s : State),
    ∃ r, exec (.dictLookup p b) s = .next { s with result := .found r } ∧
      (EncInv s → (∀ c, r = some c ↔ s.entRead c = some { pfx := p, byte := b }) ∧
        (p = none → r = some (BitVec.ofNat 20 b.toNat)) ∧ (∀ c, r = some c → c.toNat < s.nextCode.toNat))

/-- DICT_RECONSTRUCT (R75): `str(c) = [c]` for a root and `str(c) = str(p) ++ [b]` where `ENT[c] = (Some p, b)`; the
string is returned and nothing else changes. That it runs alone, in every status, is the model's choice (log
entry 21). -/
def Obligations.ReconstructFollowsThePrefixChain : Prop :=
  ∀ (c : Code) (s : State), DictInv s → c.toNat < s.nextCode.toNat →
    ∃ str, exec (.dictReconstruct c) s = .next { s with result := .string str } ∧ str ≠ [] ∧
      (c.toNat < 256 → str = [BitVec.ofNat 8 c.toNat]) ∧
      (∀ p b, s.entRead c = some { pfx := some p, byte := b } →
        ∃ front, exec (.dictReconstruct p) s = .next { s with result := .string front } ∧ str = front ++ [b])

/-- The length of a string (R76): 1 for a root, at most `c - 254` for a dynamic code, hence at most RSTACK_MAX. -/
def Obligations.StringsAreNoLongerThanTheirCodeAllows : Prop :=
  ∀ (c : Code) (s : State) (str : List Byte), DictInv s → dictReconstruct c s = .next str →
    1 ≤ str.length ∧ (c.toNat < 256 → str.length = 1) ∧ (256 ≤ c.toNat → str.length ≤ c.toNat - 254) ∧
    str.length ≤ Config.rstackMax

/-! ## The encoder -/

/-- ENC_BYTE on a hit extends the match, emits nothing and changes nothing else (R86, step 1). -/
def Obligations.EncByteHitExtendsTheMatch : Prop :=
  ∀ (c : Byte) (m : Code) (s : State), s.status = .enc → s.lkRead s.prefixCode c = some m →
    exec (.dataEncByte c) s = .next { s with prefixCode := some m }

/-- ENC_BYTE on a miss (R86, step 2; R88, R89): the match's code goes out at the width in force before any growth, 1 to
3 bytes leave; then, below the cap, the entry and the pair are created and the width grows if `nextCode` has just
reached `2^codeSize`; then the match starts anew from the byte. -/
def Obligations.EncByteMissWritesThenAppendsThenGrows : Prop :=
  ∀ (c : Byte) (s : State), s.status = .enc → EncInv s → s.lkRead s.prefixCode c = none →
    ∃ t p, s.prefixCode = some p ∧ exec (.dataEncByte c) s = .next t ∧
      t.streamBits = s.streamBits ++ lsbBits s.codeSize.toNat p.toNat ∧
      s.out.length + 1 ≤ t.out.length ∧ t.out.length ≤ s.out.length + 3 ∧ s.out <+: t.out ∧
      EncoderCreates s t p c ∧
      t.prefixCode = some (BitVec.ofNat 20 c.toNat) ∧
      t = { s with
        out := t.out, pendingBits := t.pendingBits, pendingCount := t.pendingCount, ent := t.ent, lk := t.lk,
        nextCode := t.nextCode, codeSize := t.codeSize, prefixCode := t.prefixCode }

/-- ENC_END (R87): the last match's code is written if there is one, the stream is padded with fewer than 8 zeros to a
byte boundary, `status = DONE`; no entry is created and nothing else changes. -/
def Obligations.EncEndWritesAndFlushes : Prop :=
  ∀ (d : Byte) (s : State), s.status = .enc → EncInv s →
    ∃ t pad, exec (.endEncEnd d) s = .next t ∧ t.status = .done ∧ pad < 8 ∧
      byteBits t.out = s.streamBits ++
        (match s.prefixCode with | none => [] | some p => lsbBits s.codeSize.toNat p.toNat) ++
        List.replicate pad false ∧
      (s.prefixCode = none → s.pendingCount = 0 → t.out = s.out) ∧
      t.out.length ≤ s.out.length + 4 ∧ t.pendingBits = 0 ∧ t.pendingCount = 0 ∧
      t = { s with
        status := t.status, out := t.out, pendingBits := t.pendingBits, pendingCount := t.pendingCount }

/-! ## The decoder -/

/-- DEC_BYTE while no code completes (R93): the byte's bits are appended to the pending bits and nothing else
changes. -/
def Obligations.DecByteWaitsForAWholeCode : Prop :=
  ∀ (b : Byte) (s : State), s.status = .dec → DecInv s → s.pendingCount.toNat + 8 < s.codeSize.toNat →
    ∃ t, exec (.dataDecByte b) s = .next t ∧ t.pendingList = s.pendingList ++ lsbBits 8 b.toNat ∧ t.pendingClean ∧
      t = { s with pendingBits := t.pendingBits, pendingCount := t.pendingCount }

/-- DEC_BYTE when the byte completes a code (R93, R56): the `codeSize` oldest bits are taken as a number, LSB first,
fewer than 8 stay pending, and DEC_CODE runs on that code with the pending register as BP_READ left it, the case
selected by value (R94). -/
def Obligations.DecByteRunsTheCodeItCompletes : Prop :=
  ∀ (b : Byte) (s : State), s.status = .dec → DecInv s → s.codeSize.toNat ≤ s.pendingCount.toNat + 8 →
    ∃ (c : Code) (r t : State),
      s.pendingList ++ lsbBits 8 b.toNat = lsbBits s.codeSize.toNat c.toNat ++ r.pendingList ∧
      c.toNat < 2 ^ s.codeSize.toNat ∧ r.pendingCount.toNat < 8 ∧ r.pendingClean ∧
      r = { s with pendingBits := r.pendingBits, pendingCount := r.pendingCount } ∧
      exec (.dataDecByte b) s = .next t ∧ exec (decodeCode s.mode c) r = .next t

/-- Case FIRST (R95): the one byte is emitted, no entry is created, `nextCode` and `codeSize` are unchanged. -/
def Obligations.FirstCodeIsEmittedWithoutAnEntry : Prop :=
  ∀ (c : Code) (s : State), s.status = .dec → DecInv s → s.oldCode = none → c.toNat < s.nextCode.toNat →
    exec (.decCodeFirst c) s =
      .next { s with
        oldCode := some c, oldString := [BitVec.ofNat 8 c.toNat], out := s.out ++ [BitVec.ofNat 8 c.toNat] }

/-- Case KWKWK (R96, R99, R100): the string is `oldString ++ [oldString[0]]`; the entry created is the code's own, with
`oldCode` as its prefix, and afterwards its string is the one emitted. -/
def Obligations.KwkwkCodeRepeatsTheOldString : Prop :=
  ∀ (c o : Code) (s : State), s.status = .dec → DecInv s → s.oldCode = some o → c.toNat = s.nextCode.toNat →
    ∃ t b0 rest, s.oldString = b0 :: rest ∧ exec (.decCodeKwkwk c) s = .next t ∧
      t.oldCode = some c ∧ t.oldString = s.oldString ++ [b0] ∧ t.out = s.out ++ (s.oldString ++ [b0]) ∧
      DecoderUpdates s t o b0 ∧ t.nextCode.toNat = s.nextCode.toNat + 1 ∧
      dictReconstruct c t = .next (s.oldString ++ [b0]) ∧
      t = { s with
        oldCode := t.oldCode, oldString := t.oldString, out := t.out, ent := t.ent, nextCode := t.nextCode,
        codeSize := t.codeSize }

/-- Case LOOKUP (R97, R99, R100): the string is the table's, the entry `(oldCode, first byte)` is created below the
cap, the string is emitted. -/
def Obligations.LookupCodeUsesTheTable : Prop :=
  ∀ (c o : Code) (s : State), s.status = .dec → DecInv s → s.oldCode = some o → c.toNat < s.nextCode.toNat →
    ∃ t b0 rest, dictReconstruct c s = .next (b0 :: rest) ∧ exec (.decCodeLookup c) s = .next t ∧
      t.oldCode = some c ∧ t.oldString = b0 :: rest ∧ t.out = s.out ++ (b0 :: rest) ∧
      DecoderUpdates s t o b0 ∧
      t = { s with
        oldCode := t.oldCode, oldString := t.oldString, out := t.out, ent := t.ent, nextCode := t.nextCode,
        codeSize := t.codeSize }

/-- Case INVALID (R98, R121, R124): a first code that is no entry, or a later code above `nextCode`, raises INVALID_CODE
and records the code; nothing else changes, so no byte is emitted and no entry appended. -/
def Obligations.InvalidCodeIsAnError : Prop :=
  ∀ (c : Code) (s : State), s.status = .dec →
    (s.oldCode = none ∧ s.nextCode.toNat ≤ c.toNat) ∨ (s.oldCode ≠ none ∧ s.nextCode.toNat < c.toNat) →
    exec (.decCodeInvalid c) s = .next { s with status := .err, errcode := .invalidCode, errinfo := c }

/-- DEC_END (R101): `status = DONE`; the leftover bits are not read, not checked, not emitted, and nothing else
changes. -/
def Obligations.DecEndIgnoresTheLeftoverBits : Prop :=
  ∀ (d : Byte) (s : State), s.status = .dec → exec (.endDecEnd d) s = .next { s with status := .done }

/-- The model's choice (log entry 14): a code as a step of a trace is refused outside a decode pass. -/
def Obligations.CodesOutsideADecodePassAreRefused : Prop :=
  ∀ (c : Code) (s : State), s.status ≠ .dec →
    exec (.decCodeFirst c) s = .refused .noDecodePass ∧ exec (.decCodeKwkwk c) s = .refused .noDecodePass ∧
    exec (.decCodeLookup c) s = .refused .noDecodePass ∧ exec (.decCodeInvalid c) s = .refused .noDecodePass

/-! ## The whole machine -/

/-- Every step, whatever event it takes, keeps ENT and LK in canonical form: listed addresses rising, none listed at
what it reads as unlisted. The form, with the roots read by logic, is the model's own representation of the two memories
(log entry 5), not a rule of the spec; what the memories hold is R38 and R39. -/
def Obligations.StepKeepsTheMemoriesCanonical : Prop :=
  ∀ s t : State, s.canonical → step s = .next t → t.canonical

/-- The invariants I1 to I7 of R33, with those of the control registers (R24, R65), hold in the reset state and after
the hardware reset of a state whose waiting events are a host's. In IDLE it asks only for the control registers and the
model's canonical form and bit `started` (log entries 5 and 6), not for the other values log entry 4 names. -/
def Obligations.ResetHasTheInvariant : Prop :=
  Inv State.reset ∧ ∀ s : State, (∀ e ∈ s.input, e.isHost = true) → Inv s.hardwareReset

/-- From every state with the invariant of R33, a step leads to a state with it; the invariant holds the model's
canonical form and bit `started` too (log entries 5 and 6) and only a host's events waiting (log entry 3). -/
def Obligations.StepKeepsTheInvariant : Prop :=
  ∀ s t : State, Inv s → step s = .next t → Inv t

/-- From every state with the invariant, whatever events a host sends, no step faults and none is refused: "a command,
once issued, completes" (R152, R113), no location without a value is read (R34) and no unit is called outside its
contract (R71, R77). -/
def Obligations.HostEventsNeverStop : Prop :=
  ∀ s : State, Inv s → ∃ t, step s = .next t

/-- Within a pass `codeSize` never decreases, grows by at most 1 a command and never exceeds 20; `nextCode` never
decreases, grows by at most 1 a command and never exceeds 2^20 (R16, R17, R90 e, R103 c): over every host event but a
reset and an accepted start command. (`started` is the model's own bit, log entry 6.) -/
def Obligations.CodeSizeAndNextCodeOnlyGrow : Prop :=
  ∀ (s t : State) (e : Event) (rest : List Event), Inv s → s.started = true → s.input = e :: rest → e ≠ .reset →
    (s.status = .done → ∀ w : CommandWord, e = .word (.cmd w) → w.toNat / 256 ≠ 1 ∧ w.toNat / 256 ≠ 2) →
    step s = .next t →
    s.codeSize.toNat ≤ t.codeSize.toNat ∧ t.codeSize.toNat ≤ s.codeSize.toNat + 1 ∧ t.codeSize.toNat ≤ 20 ∧
    s.nextCode.toNat ≤ t.nextCode.toNat ∧ t.nextCode.toNat ≤ s.nextCode.toNat + 1 ∧ t.nextCode.toNat ≤ 2 ^ 20

/-- Within a pass OUT is append-only, and an entry, once created, is never changed (R26, R28, R38): over every host
event but a reset and an accepted start command. (`started` is the model's own bit, log entry 6.) -/
def Obligations.OutputAndEntriesAreNeverTakenBack : Prop :=
  ∀ (s t : State) (e : Event) (rest : List Event), Inv s → s.started = true → s.input = e :: rest → e ≠ .reset →
    (s.status = .done → ∀ w : CommandWord, e = .word (.cmd w) → w.toNat / 256 ≠ 1 ∧ w.toNat / 256 ≠ 2) →
    step s = .next t →
    s.out <+: t.out ∧ ∀ c x, s.entRead c = some x → t.entRead c = some x

/-- Nothing of an earlier pass, nor of the unspecified registers, reaches a later one (R106, R52, R148, R136): from two
states outside a pass that agree only on the error registers, the same start command followed by the same command words
shows the host the same status registers and the same output. -/
def Obligations.PassesForgetTheStateBefore : Prop :=
  ∀ (s1 s2 : State) (op : BitVec 3) (d : Byte) (ws : List CommandWord),
    s1.status = .idle ∨ s1.status = .done → s2.status = .idle ∨ s2.status = .done → op = 1 ∨ op = 2 →
    s1.errcode = s2.errcode → s1.errinfo = s2.errinfo →
    ∃ t1 t2, runCommands (commandWord op d :: ws) s1 = .next t1 ∧ runCommands (commandWord op d :: ws) s2 = .next t2 ∧
      SameView t1 t2

/-- The packed stream (R54, R57, R90): for every byte sequence, an encode pass from any state outside a pass ends in
DONE; OUT is the concatenation, LSB first, of codes of the widths `W(1), W(2), …`, each code below `2^W(k)`, and fewer
than 8 zero bits; and the strings of the codes, in order, are the input. -/
def Obligations.EncodedStreamHasTheFormat : Prop :=
  ∀ (bytes : List Byte) (s : State), s.status = .idle ∨ s.status = .done →
    ∃ (t : State) (codes : List Code) (strs : List (List Byte)) (pad : Nat),
      runCommands (encodeScript bytes) s = .next t ∧ t.status = .done ∧ pad < 8 ∧
      byteBits t.out =
        (codes.zipIdx 1).flatMap (fun x => lsbBits (widthSchedule x.2) x.1.toNat) ++ List.replicate pad false ∧
      (∀ x ∈ codes.zipIdx 1, x.1.toNat < 2 ^ widthSchedule x.2) ∧
      codes.map (fun c => dictReconstruct c t) = strs.map .next ∧ strs.flatten = bytes

/-- The round trip and the lock-step of the two sides (R102): for every byte sequence, an encode pass from any state
outside a pass, followed by a decode pass over what it wrote, both end in DONE; the second one's output is the sequence,
and both end with the same entries and the same `nextCode`. -/
def Obligations.DecodingAnEncodedStreamGivesTheInput : Prop :=
  ∀ (bytes : List Byte) (s : State), s.status = .idle ∨ s.status = .done →
    ∃ t u, runCommands (encodeScript bytes) s = .next t ∧ t.status = .done ∧
      runCommands (decodeScript t.out) t = .next u ∧ u.status = .done ∧ u.out = bytes ∧
      u.nextCode = t.nextCode ∧ ∀ c : Code, u.entRead c = t.entRead c

/-! ## Micro-operation identifiers -/

/-- The table of R67: each of the nine identifiers, with its own operands, decodes in every mode to the operation of its
row. The operands as register patterns (R60) are log entry 20, the flag of DICT_APPEND is log entry 11. -/
def Obligations.MicroOperationIdentifiersAreTheTables : Prop :=
  ∀ (m : Mode) (p : CodeOrNone) (c : Code) (b : Byte) (w : BitVec 5) (l : Bool),
    decode m (.micro 0b0000#4 .nothing) = .ok .dictInit ∧
    decode m (.micro 0b0001#4 (.append (codeOrNoneBits p) b l)) = .ok (.dictAppend p b l) ∧
    decode m (.micro 0b0010#4 (.key (codeOrNoneBits p) b)) = .ok (.dictLookup p b) ∧
    decode m (.micro 0b0011#4 (.code c)) = .ok (.dictReconstruct c) ∧
    decode m (.micro 0b0100#4 .nothing) = .ok .bpInit ∧
    decode m (.micro 0b0101#4 (.codeWidth c w)) = .ok (.bpWrite c w) ∧
    decode m (.micro 0b0110#4 (.byte b)) = .ok (.bpFeed b) ∧
    decode m (.micro 0b0111#4 (.width w)) = .ok (.bpRead w) ∧
    decode m (.micro 0b1000#4 .nothing) = .ok .bpFlush
end

