-- ==== Sys2Proof/Laws/State.lean ====
section
/-! SUPPORT. One lemma per field per named update of State, true by rfl, so that no later proof unfolds a record
update. Generated from the list of fields and the list of updates. -/

namespace Sys2Proof.Machine

/-! `State.entWrite` -/

@[simp] theorem State.entWrite_status (s : State) (a : Nat) (e : Entry) : (s.entWrite a e).status = s.status := rfl
@[simp] theorem State.entWrite_errcode (s : State) (a : Nat) (e : Entry) : (s.entWrite a e).errcode = s.errcode := rfl
@[simp] theorem State.entWrite_errinfo (s : State) (a : Nat) (e : Entry) : (s.entWrite a e).errinfo = s.errinfo := rfl
@[simp] theorem State.entWrite_codeSize (s : State) (a : Nat) (e : Entry) : (s.entWrite a e).codeSize = s.codeSize := rfl
@[simp] theorem State.entWrite_nextCode (s : State) (a : Nat) (e : Entry) : (s.entWrite a e).nextCode = s.nextCode := rfl
@[simp] theorem State.entWrite_prefixCode (s : State) (a : Nat) (e : Entry) : (s.entWrite a e).prefixCode = s.prefixCode := rfl
@[simp] theorem State.entWrite_oldCode (s : State) (a : Nat) (e : Entry) : (s.entWrite a e).oldCode = s.oldCode := rfl
@[simp] theorem State.entWrite_oldString (s : State) (a : Nat) (e : Entry) : (s.entWrite a e).oldString = s.oldString := rfl
@[simp] theorem State.entWrite_pendingBits (s : State) (a : Nat) (e : Entry) : (s.entWrite a e).pendingBits = s.pendingBits := rfl
@[simp] theorem State.entWrite_pendingCount (s : State) (a : Nat) (e : Entry) : (s.entWrite a e).pendingCount = s.pendingCount := rfl
@[simp] theorem State.entWrite_ent (s : State) (a : Nat) (e : Entry) : (s.entWrite a e).ent = memWrite entUnlisted s.ent a e := rfl
@[simp] theorem State.entWrite_lk (s : State) (a : Nat) (e : Entry) : (s.entWrite a e).lk = s.lk := rfl
@[simp] theorem State.entWrite_out (s : State) (a : Nat) (e : Entry) : (s.entWrite a e).out = s.out := rfl
@[simp] theorem State.entWrite_input (s : State) (a : Nat) (e : Entry) : (s.entWrite a e).input = s.input := rfl
@[simp] theorem State.entWrite_result (s : State) (a : Nat) (e : Entry) : (s.entWrite a e).result = s.result := rfl
@[simp] theorem State.entWrite_started (s : State) (a : Nat) (e : Entry) : (s.entWrite a e).started = s.started := rfl
@[simp] theorem State.entWrite_freeCount (s : State) (a : Nat) (e : Entry) : (s.entWrite a e).freeCount = s.freeCount := rfl

/-! `State.lkWrite` -/

@[simp] theorem State.lkWrite_status (s : State) (p : CodeOrNone) (b : Byte) (c : Code) : (s.lkWrite p b c).status = s.status := rfl
@[simp] theorem State.lkWrite_errcode (s : State) (p : CodeOrNone) (b : Byte) (c : Code) : (s.lkWrite p b c).errcode = s.errcode := rfl
@[simp] theorem State.lkWrite_errinfo (s : State) (p : CodeOrNone) (b : Byte) (c : Code) : (s.lkWrite p b c).errinfo = s.errinfo := rfl
@[simp] theorem State.lkWrite_codeSize (s : State) (p : CodeOrNone) (b : Byte) (c : Code) : (s.lkWrite p b c).codeSize = s.codeSize := rfl
@[simp] theorem State.lkWrite_nextCode (s : State) (p : CodeOrNone) (b : Byte) (c : Code) : (s.lkWrite p b c).nextCode = s.nextCode := rfl
@[simp] theorem State.lkWrite_prefixCode (s : State) (p : CodeOrNone) (b : Byte) (c : Code) : (s.lkWrite p b c).prefixCode = s.prefixCode := rfl
@[simp] theorem State.lkWrite_oldCode (s : State) (p : CodeOrNone) (b : Byte) (c : Code) : (s.lkWrite p b c).oldCode = s.oldCode := rfl
@[simp] theorem State.lkWrite_oldString (s : State) (p : CodeOrNone) (b : Byte) (c : Code) : (s.lkWrite p b c).oldString = s.oldString := rfl
@[simp] theorem State.lkWrite_pendingBits (s : State) (p : CodeOrNone) (b : Byte) (c : Code) : (s.lkWrite p b c).pendingBits = s.pendingBits := rfl
@[simp] theorem State.lkWrite_pendingCount (s : State) (p : CodeOrNone) (b : Byte) (c : Code) : (s.lkWrite p b c).pendingCount = s.pendingCount := rfl
@[simp] theorem State.lkWrite_ent (s : State) (p : CodeOrNone) (b : Byte) (c : Code) : (s.lkWrite p b c).ent = s.ent := rfl
@[simp] theorem State.lkWrite_lk (s : State) (p : CodeOrNone) (b : Byte) (c : Code) : (s.lkWrite p b c).lk = memWrite lkUnlisted s.lk (lkAddress p b) c := rfl
@[simp] theorem State.lkWrite_out (s : State) (p : CodeOrNone) (b : Byte) (c : Code) : (s.lkWrite p b c).out = s.out := rfl
@[simp] theorem State.lkWrite_input (s : State) (p : CodeOrNone) (b : Byte) (c : Code) : (s.lkWrite p b c).input = s.input := rfl
@[simp] theorem State.lkWrite_result (s : State) (p : CodeOrNone) (b : Byte) (c : Code) : (s.lkWrite p b c).result = s.result := rfl
@[simp] theorem State.lkWrite_started (s : State) (p : CodeOrNone) (b : Byte) (c : Code) : (s.lkWrite p b c).started = s.started := rfl
@[simp] theorem State.lkWrite_freeCount (s : State) (p : CodeOrNone) (b : Byte) (c : Code) : (s.lkWrite p b c).freeCount = s.freeCount := rfl

/-! `State.setStatus` -/

@[simp] theorem State.setStatus_status (s : State) (st : Status) : (s.setStatus st).status = st := rfl
@[simp] theorem State.setStatus_errcode (s : State) (st : Status) : (s.setStatus st).errcode = s.errcode := rfl
@[simp] theorem State.setStatus_errinfo (s : State) (st : Status) : (s.setStatus st).errinfo = s.errinfo := rfl
@[simp] theorem State.setStatus_codeSize (s : State) (st : Status) : (s.setStatus st).codeSize = s.codeSize := rfl
@[simp] theorem State.setStatus_nextCode (s : State) (st : Status) : (s.setStatus st).nextCode = s.nextCode := rfl
@[simp] theorem State.setStatus_prefixCode (s : State) (st : Status) : (s.setStatus st).prefixCode = s.prefixCode := rfl
@[simp] theorem State.setStatus_oldCode (s : State) (st : Status) : (s.setStatus st).oldCode = s.oldCode := rfl
@[simp] theorem State.setStatus_oldString (s : State) (st : Status) : (s.setStatus st).oldString = s.oldString := rfl
@[simp] theorem State.setStatus_pendingBits (s : State) (st : Status) : (s.setStatus st).pendingBits = s.pendingBits := rfl
@[simp] theorem State.setStatus_pendingCount (s : State) (st : Status) : (s.setStatus st).pendingCount = s.pendingCount := rfl
@[simp] theorem State.setStatus_ent (s : State) (st : Status) : (s.setStatus st).ent = s.ent := rfl
@[simp] theorem State.setStatus_lk (s : State) (st : Status) : (s.setStatus st).lk = s.lk := rfl
@[simp] theorem State.setStatus_out (s : State) (st : Status) : (s.setStatus st).out = s.out := rfl
@[simp] theorem State.setStatus_input (s : State) (st : Status) : (s.setStatus st).input = s.input := rfl
@[simp] theorem State.setStatus_result (s : State) (st : Status) : (s.setStatus st).result = s.result := rfl
@[simp] theorem State.setStatus_started (s : State) (st : Status) : (s.setStatus st).started = s.started := rfl
@[simp] theorem State.setStatus_freeCount (s : State) (st : Status) : (s.setStatus st).freeCount = s.freeCount := rfl

/-! `State.grow` -/

@[simp] theorem State.grow_status (s : State) : (s.grow).status = s.status := rfl
@[simp] theorem State.grow_errcode (s : State) : (s.grow).errcode = s.errcode := rfl
@[simp] theorem State.grow_errinfo (s : State) : (s.grow).errinfo = s.errinfo := rfl
@[simp] theorem State.grow_codeSize (s : State) : (s.grow).codeSize = s.codeSize + 1 := rfl
@[simp] theorem State.grow_nextCode (s : State) : (s.grow).nextCode = s.nextCode := rfl
@[simp] theorem State.grow_prefixCode (s : State) : (s.grow).prefixCode = s.prefixCode := rfl
@[simp] theorem State.grow_oldCode (s : State) : (s.grow).oldCode = s.oldCode := rfl
@[simp] theorem State.grow_oldString (s : State) : (s.grow).oldString = s.oldString := rfl
@[simp] theorem State.grow_pendingBits (s : State) : (s.grow).pendingBits = s.pendingBits := rfl
@[simp] theorem State.grow_pendingCount (s : State) : (s.grow).pendingCount = s.pendingCount := rfl
@[simp] theorem State.grow_ent (s : State) : (s.grow).ent = s.ent := rfl
@[simp] theorem State.grow_lk (s : State) : (s.grow).lk = s.lk := rfl
@[simp] theorem State.grow_out (s : State) : (s.grow).out = s.out := rfl
@[simp] theorem State.grow_input (s : State) : (s.grow).input = s.input := rfl
@[simp] theorem State.grow_result (s : State) : (s.grow).result = s.result := rfl
@[simp] theorem State.grow_started (s : State) : (s.grow).started = s.started := rfl
@[simp] theorem State.grow_freeCount (s : State) : (s.grow).freeCount = s.freeCount := rfl

/-! `State.bumpNextCode` -/

@[simp] theorem State.bumpNextCode_status (s : State) : (s.bumpNextCode).status = s.status := rfl
@[simp] theorem State.bumpNextCode_errcode (s : State) : (s.bumpNextCode).errcode = s.errcode := rfl
@[simp] theorem State.bumpNextCode_errinfo (s : State) : (s.bumpNextCode).errinfo = s.errinfo := rfl
@[simp] theorem State.bumpNextCode_codeSize (s : State) : (s.bumpNextCode).codeSize = s.codeSize := rfl
@[simp] theorem State.bumpNextCode_nextCode (s : State) : (s.bumpNextCode).nextCode = s.nextCode + 1 := rfl
@[simp] theorem State.bumpNextCode_prefixCode (s : State) : (s.bumpNextCode).prefixCode = s.prefixCode := rfl
@[simp] theorem State.bumpNextCode_oldCode (s : State) : (s.bumpNextCode).oldCode = s.oldCode := rfl
@[simp] theorem State.bumpNextCode_oldString (s : State) : (s.bumpNextCode).oldString = s.oldString := rfl
@[simp] theorem State.bumpNextCode_pendingBits (s : State) : (s.bumpNextCode).pendingBits = s.pendingBits := rfl
@[simp] theorem State.bumpNextCode_pendingCount (s : State) : (s.bumpNextCode).pendingCount = s.pendingCount := rfl
@[simp] theorem State.bumpNextCode_ent (s : State) : (s.bumpNextCode).ent = s.ent := rfl
@[simp] theorem State.bumpNextCode_lk (s : State) : (s.bumpNextCode).lk = s.lk := rfl
@[simp] theorem State.bumpNextCode_out (s : State) : (s.bumpNextCode).out = s.out := rfl
@[simp] theorem State.bumpNextCode_input (s : State) : (s.bumpNextCode).input = s.input := rfl
@[simp] theorem State.bumpNextCode_result (s : State) : (s.bumpNextCode).result = s.result := rfl
@[simp] theorem State.bumpNextCode_started (s : State) : (s.bumpNextCode).started = s.started := rfl
@[simp] theorem State.bumpNextCode_freeCount (s : State) : (s.bumpNextCode).freeCount = s.freeCount := rfl

/-! `State.setPrefixCode` -/

@[simp] theorem State.setPrefixCode_status (s : State) (p : CodeOrNone) : (s.setPrefixCode p).status = s.status := rfl
@[simp] theorem State.setPrefixCode_errcode (s : State) (p : CodeOrNone) : (s.setPrefixCode p).errcode = s.errcode := rfl
@[simp] theorem State.setPrefixCode_errinfo (s : State) (p : CodeOrNone) : (s.setPrefixCode p).errinfo = s.errinfo := rfl
@[simp] theorem State.setPrefixCode_codeSize (s : State) (p : CodeOrNone) : (s.setPrefixCode p).codeSize = s.codeSize := rfl
@[simp] theorem State.setPrefixCode_nextCode (s : State) (p : CodeOrNone) : (s.setPrefixCode p).nextCode = s.nextCode := rfl
@[simp] theorem State.setPrefixCode_prefixCode (s : State) (p : CodeOrNone) : (s.setPrefixCode p).prefixCode = p := rfl
@[simp] theorem State.setPrefixCode_oldCode (s : State) (p : CodeOrNone) : (s.setPrefixCode p).oldCode = s.oldCode := rfl
@[simp] theorem State.setPrefixCode_oldString (s : State) (p : CodeOrNone) : (s.setPrefixCode p).oldString = s.oldString := rfl
@[simp] theorem State.setPrefixCode_pendingBits (s : State) (p : CodeOrNone) : (s.setPrefixCode p).pendingBits = s.pendingBits := rfl
@[simp] theorem State.setPrefixCode_pendingCount (s : State) (p : CodeOrNone) : (s.setPrefixCode p).pendingCount = s.pendingCount := rfl
@[simp] theorem State.setPrefixCode_ent (s : State) (p : CodeOrNone) : (s.setPrefixCode p).ent = s.ent := rfl
@[simp] theorem State.setPrefixCode_lk (s : State) (p : CodeOrNone) : (s.setPrefixCode p).lk = s.lk := rfl
@[simp] theorem State.setPrefixCode_out (s : State) (p : CodeOrNone) : (s.setPrefixCode p).out = s.out := rfl
@[simp] theorem State.setPrefixCode_input (s : State) (p : CodeOrNone) : (s.setPrefixCode p).input = s.input := rfl
@[simp] theorem State.setPrefixCode_result (s : State) (p : CodeOrNone) : (s.setPrefixCode p).result = s.result := rfl
@[simp] theorem State.setPrefixCode_started (s : State) (p : CodeOrNone) : (s.setPrefixCode p).started = s.started := rfl
@[simp] theorem State.setPrefixCode_freeCount (s : State) (p : CodeOrNone) : (s.setPrefixCode p).freeCount = s.freeCount := rfl

/-! `State.setOld` -/

@[simp] theorem State.setOld_status (s : State) (c : Code) (str : List Byte) : (s.setOld c str).status = s.status := rfl
@[simp] theorem State.setOld_errcode (s : State) (c : Code) (str : List Byte) : (s.setOld c str).errcode = s.errcode := rfl
@[simp] theorem State.setOld_errinfo (s : State) (c : Code) (str : List Byte) : (s.setOld c str).errinfo = s.errinfo := rfl
@[simp] theorem State.setOld_codeSize (s : State) (c : Code) (str : List Byte) : (s.setOld c str).codeSize = s.codeSize := rfl
@[simp] theorem State.setOld_nextCode (s : State) (c : Code) (str : List Byte) : (s.setOld c str).nextCode = s.nextCode := rfl
@[simp] theorem State.setOld_prefixCode (s : State) (c : Code) (str : List Byte) : (s.setOld c str).prefixCode = s.prefixCode := rfl
@[simp] theorem State.setOld_oldCode (s : State) (c : Code) (str : List Byte) : (s.setOld c str).oldCode = some c := rfl
@[simp] theorem State.setOld_oldString (s : State) (c : Code) (str : List Byte) : (s.setOld c str).oldString = str := rfl
@[simp] theorem State.setOld_pendingBits (s : State) (c : Code) (str : List Byte) : (s.setOld c str).pendingBits = s.pendingBits := rfl
@[simp] theorem State.setOld_pendingCount (s : State) (c : Code) (str : List Byte) : (s.setOld c str).pendingCount = s.pendingCount := rfl
@[simp] theorem State.setOld_ent (s : State) (c : Code) (str : List Byte) : (s.setOld c str).ent = s.ent := rfl
@[simp] theorem State.setOld_lk (s : State) (c : Code) (str : List Byte) : (s.setOld c str).lk = s.lk := rfl
@[simp] theorem State.setOld_out (s : State) (c : Code) (str : List Byte) : (s.setOld c str).out = s.out := rfl
@[simp] theorem State.setOld_input (s : State) (c : Code) (str : List Byte) : (s.setOld c str).input = s.input := rfl
@[simp] theorem State.setOld_result (s : State) (c : Code) (str : List Byte) : (s.setOld c str).result = s.result := rfl
@[simp] theorem State.setOld_started (s : State) (c : Code) (str : List Byte) : (s.setOld c str).started = s.started := rfl
@[simp] theorem State.setOld_freeCount (s : State) (c : Code) (str : List Byte) : (s.setOld c str).freeCount = s.freeCount := rfl

/-! `State.setPending` -/

@[simp] theorem State.setPending_status (s : State) (bits count : Nat) : (s.setPending bits count).status = s.status := rfl
@[simp] theorem State.setPending_errcode (s : State) (bits count : Nat) : (s.setPending bits count).errcode = s.errcode := rfl
@[simp] theorem State.setPending_errinfo (s : State) (bits count : Nat) : (s.setPending bits count).errinfo = s.errinfo := rfl
@[simp] theorem State.setPending_codeSize (s : State) (bits count : Nat) : (s.setPending bits count).codeSize = s.codeSize := rfl
@[simp] theorem State.setPending_nextCode (s : State) (bits count : Nat) : (s.setPending bits count).nextCode = s.nextCode := rfl
@[simp] theorem State.setPending_prefixCode (s : State) (bits count : Nat) : (s.setPending bits count).prefixCode = s.prefixCode := rfl
@[simp] theorem State.setPending_oldCode (s : State) (bits count : Nat) : (s.setPending bits count).oldCode = s.oldCode := rfl
@[simp] theorem State.setPending_oldString (s : State) (bits count : Nat) : (s.setPending bits count).oldString = s.oldString := rfl
@[simp] theorem State.setPending_pendingBits (s : State) (bits count : Nat) : (s.setPending bits count).pendingBits = bits := rfl
@[simp] theorem State.setPending_pendingCount (s : State) (bits count : Nat) : (s.setPending bits count).pendingCount = BitVec.ofNat 5 count := rfl
@[simp] theorem State.setPending_ent (s : State) (bits count : Nat) : (s.setPending bits count).ent = s.ent := rfl
@[simp] theorem State.setPending_lk (s : State) (bits count : Nat) : (s.setPending bits count).lk = s.lk := rfl
@[simp] theorem State.setPending_out (s : State) (bits count : Nat) : (s.setPending bits count).out = s.out := rfl
@[simp] theorem State.setPending_input (s : State) (bits count : Nat) : (s.setPending bits count).input = s.input := rfl
@[simp] theorem State.setPending_result (s : State) (bits count : Nat) : (s.setPending bits count).result = s.result := rfl
@[simp] theorem State.setPending_started (s : State) (bits count : Nat) : (s.setPending bits count).started = s.started := rfl
@[simp] theorem State.setPending_freeCount (s : State) (bits count : Nat) : (s.setPending bits count).freeCount = s.freeCount := rfl

/-! `State.emit` -/

@[simp] theorem State.emit_status (s : State) (bs : List Byte) : (s.emit bs).status = s.status := rfl
@[simp] theorem State.emit_errcode (s : State) (bs : List Byte) : (s.emit bs).errcode = s.errcode := rfl
@[simp] theorem State.emit_errinfo (s : State) (bs : List Byte) : (s.emit bs).errinfo = s.errinfo := rfl
@[simp] theorem State.emit_codeSize (s : State) (bs : List Byte) : (s.emit bs).codeSize = s.codeSize := rfl
@[simp] theorem State.emit_nextCode (s : State) (bs : List Byte) : (s.emit bs).nextCode = s.nextCode := rfl
@[simp] theorem State.emit_prefixCode (s : State) (bs : List Byte) : (s.emit bs).prefixCode = s.prefixCode := rfl
@[simp] theorem State.emit_oldCode (s : State) (bs : List Byte) : (s.emit bs).oldCode = s.oldCode := rfl
@[simp] theorem State.emit_oldString (s : State) (bs : List Byte) : (s.emit bs).oldString = s.oldString := rfl
@[simp] theorem State.emit_pendingBits (s : State) (bs : List Byte) : (s.emit bs).pendingBits = s.pendingBits := rfl
@[simp] theorem State.emit_pendingCount (s : State) (bs : List Byte) : (s.emit bs).pendingCount = s.pendingCount := rfl
@[simp] theorem State.emit_ent (s : State) (bs : List Byte) : (s.emit bs).ent = s.ent := rfl
@[simp] theorem State.emit_lk (s : State) (bs : List Byte) : (s.emit bs).lk = s.lk := rfl
@[simp] theorem State.emit_out (s : State) (bs : List Byte) : (s.emit bs).out = s.out ++ bs := rfl
@[simp] theorem State.emit_input (s : State) (bs : List Byte) : (s.emit bs).input = s.input := rfl
@[simp] theorem State.emit_result (s : State) (bs : List Byte) : (s.emit bs).result = s.result := rfl
@[simp] theorem State.emit_started (s : State) (bs : List Byte) : (s.emit bs).started = s.started := rfl
@[simp] theorem State.emit_freeCount (s : State) (bs : List Byte) : (s.emit bs).freeCount = s.freeCount := rfl

/-! `State.returning` -/

@[simp] theorem State.returning_status (s : State) (r : Result) : (s.returning r).status = s.status := rfl
@[simp] theorem State.returning_errcode (s : State) (r : Result) : (s.returning r).errcode = s.errcode := rfl
@[simp] theorem State.returning_errinfo (s : State) (r : Result) : (s.returning r).errinfo = s.errinfo := rfl
@[simp] theorem State.returning_codeSize (s : State) (r : Result) : (s.returning r).codeSize = s.codeSize := rfl
@[simp] theorem State.returning_nextCode (s : State) (r : Result) : (s.returning r).nextCode = s.nextCode := rfl
@[simp] theorem State.returning_prefixCode (s : State) (r : Result) : (s.returning r).prefixCode = s.prefixCode := rfl
@[simp] theorem State.returning_oldCode (s : State) (r : Result) : (s.returning r).oldCode = s.oldCode := rfl
@[simp] theorem State.returning_oldString (s : State) (r : Result) : (s.returning r).oldString = s.oldString := rfl
@[simp] theorem State.returning_pendingBits (s : State) (r : Result) : (s.returning r).pendingBits = s.pendingBits := rfl
@[simp] theorem State.returning_pendingCount (s : State) (r : Result) : (s.returning r).pendingCount = s.pendingCount := rfl
@[simp] theorem State.returning_ent (s : State) (r : Result) : (s.returning r).ent = s.ent := rfl
@[simp] theorem State.returning_lk (s : State) (r : Result) : (s.returning r).lk = s.lk := rfl
@[simp] theorem State.returning_out (s : State) (r : Result) : (s.returning r).out = s.out := rfl
@[simp] theorem State.returning_input (s : State) (r : Result) : (s.returning r).input = s.input := rfl
@[simp] theorem State.returning_result (s : State) (r : Result) : (s.returning r).result = r := rfl
@[simp] theorem State.returning_started (s : State) (r : Result) : (s.returning r).started = s.started := rfl
@[simp] theorem State.returning_freeCount (s : State) (r : Result) : (s.returning r).freeCount = s.freeCount := rfl

/-! `State.withInput` -/

@[simp] theorem State.withInput_status (s : State) (l : List Event) : (s.withInput l).status = s.status := rfl
@[simp] theorem State.withInput_errcode (s : State) (l : List Event) : (s.withInput l).errcode = s.errcode := rfl
@[simp] theorem State.withInput_errinfo (s : State) (l : List Event) : (s.withInput l).errinfo = s.errinfo := rfl
@[simp] theorem State.withInput_codeSize (s : State) (l : List Event) : (s.withInput l).codeSize = s.codeSize := rfl
@[simp] theorem State.withInput_nextCode (s : State) (l : List Event) : (s.withInput l).nextCode = s.nextCode := rfl
@[simp] theorem State.withInput_prefixCode (s : State) (l : List Event) : (s.withInput l).prefixCode = s.prefixCode := rfl
@[simp] theorem State.withInput_oldCode (s : State) (l : List Event) : (s.withInput l).oldCode = s.oldCode := rfl
@[simp] theorem State.withInput_oldString (s : State) (l : List Event) : (s.withInput l).oldString = s.oldString := rfl
@[simp] theorem State.withInput_pendingBits (s : State) (l : List Event) : (s.withInput l).pendingBits = s.pendingBits := rfl
@[simp] theorem State.withInput_pendingCount (s : State) (l : List Event) : (s.withInput l).pendingCount = s.pendingCount := rfl
@[simp] theorem State.withInput_ent (s : State) (l : List Event) : (s.withInput l).ent = s.ent := rfl
@[simp] theorem State.withInput_lk (s : State) (l : List Event) : (s.withInput l).lk = s.lk := rfl
@[simp] theorem State.withInput_out (s : State) (l : List Event) : (s.withInput l).out = s.out := rfl
@[simp] theorem State.withInput_input (s : State) (l : List Event) : (s.withInput l).input = l := rfl
@[simp] theorem State.withInput_result (s : State) (l : List Event) : (s.withInput l).result = s.result := rfl
@[simp] theorem State.withInput_started (s : State) (l : List Event) : (s.withInput l).started = s.started := rfl
@[simp] theorem State.withInput_freeCount (s : State) (l : List Event) : (s.withInput l).freeCount = s.freeCount := rfl

/-! `State.drawn` -/

@[simp] theorem State.drawn_status (s : State) : (s.drawn).status = s.status := rfl
@[simp] theorem State.drawn_errcode (s : State) : (s.drawn).errcode = s.errcode := rfl
@[simp] theorem State.drawn_errinfo (s : State) : (s.drawn).errinfo = s.errinfo := rfl
@[simp] theorem State.drawn_codeSize (s : State) : (s.drawn).codeSize = s.codeSize := rfl
@[simp] theorem State.drawn_nextCode (s : State) : (s.drawn).nextCode = s.nextCode := rfl
@[simp] theorem State.drawn_prefixCode (s : State) : (s.drawn).prefixCode = s.prefixCode := rfl
@[simp] theorem State.drawn_oldCode (s : State) : (s.drawn).oldCode = s.oldCode := rfl
@[simp] theorem State.drawn_oldString (s : State) : (s.drawn).oldString = s.oldString := rfl
@[simp] theorem State.drawn_pendingBits (s : State) : (s.drawn).pendingBits = s.pendingBits := rfl
@[simp] theorem State.drawn_pendingCount (s : State) : (s.drawn).pendingCount = s.pendingCount := rfl
@[simp] theorem State.drawn_ent (s : State) : (s.drawn).ent = s.ent := rfl
@[simp] theorem State.drawn_lk (s : State) : (s.drawn).lk = s.lk := rfl
@[simp] theorem State.drawn_out (s : State) : (s.drawn).out = s.out := rfl
@[simp] theorem State.drawn_input (s : State) : (s.drawn).input = s.input := rfl
@[simp] theorem State.drawn_result (s : State) : (s.drawn).result = s.result := rfl
@[simp] theorem State.drawn_started (s : State) : (s.drawn).started = s.started := rfl
@[simp] theorem State.drawn_freeCount (s : State) : (s.drawn).freeCount = s.freeCount + 1 := rfl

/-! `State.raise` -/

@[simp] theorem State.raise_status (s : State) (e : ErrCode) (i : BitVec 20) : (s.raise e i).status = .err := rfl
@[simp] theorem State.raise_errcode (s : State) (e : ErrCode) (i : BitVec 20) : (s.raise e i).errcode = e := rfl
@[simp] theorem State.raise_errinfo (s : State) (e : ErrCode) (i : BitVec 20) : (s.raise e i).errinfo = i := rfl
@[simp] theorem State.raise_codeSize (s : State) (e : ErrCode) (i : BitVec 20) : (s.raise e i).codeSize = s.codeSize := rfl
@[simp] theorem State.raise_nextCode (s : State) (e : ErrCode) (i : BitVec 20) : (s.raise e i).nextCode = s.nextCode := rfl
@[simp] theorem State.raise_prefixCode (s : State) (e : ErrCode) (i : BitVec 20) : (s.raise e i).prefixCode = s.prefixCode := rfl
@[simp] theorem State.raise_oldCode (s : State) (e : ErrCode) (i : BitVec 20) : (s.raise e i).oldCode = s.oldCode := rfl
@[simp] theorem State.raise_oldString (s : State) (e : ErrCode) (i : BitVec 20) : (s.raise e i).oldString = s.oldString := rfl
@[simp] theorem State.raise_pendingBits (s : State) (e : ErrCode) (i : BitVec 20) : (s.raise e i).pendingBits = s.pendingBits := rfl
@[simp] theorem State.raise_pendingCount (s : State) (e : ErrCode) (i : BitVec 20) : (s.raise e i).pendingCount = s.pendingCount := rfl
@[simp] theorem State.raise_ent (s : State) (e : ErrCode) (i : BitVec 20) : (s.raise e i).ent = s.ent := rfl
@[simp] theorem State.raise_lk (s : State) (e : ErrCode) (i : BitVec 20) : (s.raise e i).lk = s.lk := rfl
@[simp] theorem State.raise_out (s : State) (e : ErrCode) (i : BitVec 20) : (s.raise e i).out = s.out := rfl
@[simp] theorem State.raise_input (s : State) (e : ErrCode) (i : BitVec 20) : (s.raise e i).input = s.input := rfl
@[simp] theorem State.raise_result (s : State) (e : ErrCode) (i : BitVec 20) : (s.raise e i).result = s.result := rfl
@[simp] theorem State.raise_started (s : State) (e : ErrCode) (i : BitVec 20) : (s.raise e i).started = s.started := rfl
@[simp] theorem State.raise_freeCount (s : State) (e : ErrCode) (i : BitVec 20) : (s.raise e i).freeCount = s.freeCount := rfl

/-! `State.hardwareReset` -/

@[simp] theorem State.hardwareReset_status (s : State) : s.hardwareReset.status = .idle := rfl
@[simp] theorem State.hardwareReset_errcode (s : State) : s.hardwareReset.errcode = .none := rfl
@[simp] theorem State.hardwareReset_errinfo (s : State) : s.hardwareReset.errinfo = 0 := rfl
@[simp] theorem State.hardwareReset_codeSize (s : State) : s.hardwareReset.codeSize = 0 := rfl
@[simp] theorem State.hardwareReset_nextCode (s : State) : s.hardwareReset.nextCode = 0 := rfl
@[simp] theorem State.hardwareReset_prefixCode (s : State) : s.hardwareReset.prefixCode = none := rfl
@[simp] theorem State.hardwareReset_oldCode (s : State) : s.hardwareReset.oldCode = none := rfl
@[simp] theorem State.hardwareReset_oldString (s : State) : s.hardwareReset.oldString = [] := rfl
@[simp] theorem State.hardwareReset_pendingBits (s : State) : s.hardwareReset.pendingBits = 0 := rfl
@[simp] theorem State.hardwareReset_pendingCount (s : State) : s.hardwareReset.pendingCount = 0 := rfl
@[simp] theorem State.hardwareReset_ent (s : State) : s.hardwareReset.ent = [] := rfl
@[simp] theorem State.hardwareReset_lk (s : State) : s.hardwareReset.lk = [] := rfl
@[simp] theorem State.hardwareReset_out (s : State) : s.hardwareReset.out = [] := rfl
@[simp] theorem State.hardwareReset_input (s : State) : s.hardwareReset.input = s.input := rfl
@[simp] theorem State.hardwareReset_result (s : State) : s.hardwareReset.result = .nothing := rfl
@[simp] theorem State.hardwareReset_started (s : State) : s.hardwareReset.started = false := rfl
@[simp] theorem State.hardwareReset_freeCount (s : State) : s.hardwareReset.freeCount = s.freeCount := rfl

/-! `dictInit` -/

@[simp] theorem dictInit_status (s : State) : (dictInit s).status = s.status := rfl
@[simp] theorem dictInit_errcode (s : State) : (dictInit s).errcode = s.errcode := rfl
@[simp] theorem dictInit_errinfo (s : State) : (dictInit s).errinfo = s.errinfo := rfl
@[simp] theorem dictInit_codeSize (s : State) : (dictInit s).codeSize = s.codeSize := rfl
@[simp] theorem dictInit_nextCode (s : State) : (dictInit s).nextCode = BitVec.ofNat 21 Config.firstCode := rfl
@[simp] theorem dictInit_prefixCode (s : State) : (dictInit s).prefixCode = s.prefixCode := rfl
@[simp] theorem dictInit_oldCode (s : State) : (dictInit s).oldCode = s.oldCode := rfl
@[simp] theorem dictInit_oldString (s : State) : (dictInit s).oldString = s.oldString := rfl
@[simp] theorem dictInit_pendingBits (s : State) : (dictInit s).pendingBits = s.pendingBits := rfl
@[simp] theorem dictInit_pendingCount (s : State) : (dictInit s).pendingCount = s.pendingCount := rfl
@[simp] theorem dictInit_ent (s : State) : (dictInit s).ent = [] := rfl
@[simp] theorem dictInit_lk (s : State) : (dictInit s).lk = [] := rfl
@[simp] theorem dictInit_out (s : State) : (dictInit s).out = s.out := rfl
@[simp] theorem dictInit_input (s : State) : (dictInit s).input = s.input := rfl
@[simp] theorem dictInit_result (s : State) : (dictInit s).result = s.result := rfl
@[simp] theorem dictInit_started (s : State) : (dictInit s).started = s.started := rfl
@[simp] theorem dictInit_freeCount (s : State) : (dictInit s).freeCount = s.freeCount := rfl

/-! `bpInit` -/

@[simp] theorem bpInit_status (s : State) : (bpInit s).status = s.status := rfl
@[simp] theorem bpInit_errcode (s : State) : (bpInit s).errcode = s.errcode := rfl
@[simp] theorem bpInit_errinfo (s : State) : (bpInit s).errinfo = s.errinfo := rfl
@[simp] theorem bpInit_codeSize (s : State) : (bpInit s).codeSize = s.codeSize := rfl
@[simp] theorem bpInit_nextCode (s : State) : (bpInit s).nextCode = s.nextCode := rfl
@[simp] theorem bpInit_prefixCode (s : State) : (bpInit s).prefixCode = s.prefixCode := rfl
@[simp] theorem bpInit_oldCode (s : State) : (bpInit s).oldCode = s.oldCode := rfl
@[simp] theorem bpInit_oldString (s : State) : (bpInit s).oldString = s.oldString := rfl
@[simp] theorem bpInit_pendingBits (s : State) : (bpInit s).pendingBits = 0 := rfl
@[simp] theorem bpInit_pendingCount (s : State) : (bpInit s).pendingCount = 0 := rfl
@[simp] theorem bpInit_ent (s : State) : (bpInit s).ent = s.ent := rfl
@[simp] theorem bpInit_lk (s : State) : (bpInit s).lk = s.lk := rfl
@[simp] theorem bpInit_out (s : State) : (bpInit s).out = s.out := rfl
@[simp] theorem bpInit_input (s : State) : (bpInit s).input = s.input := rfl
@[simp] theorem bpInit_result (s : State) : (bpInit s).result = s.result := rfl
@[simp] theorem bpInit_started (s : State) : (bpInit s).started = s.started := rfl
@[simp] theorem bpInit_freeCount (s : State) : (bpInit s).freeCount = s.freeCount := rfl

/-! `encStart` -/

@[simp] theorem encStart_status (s : State) : (encStart s).status = .enc := rfl
@[simp] theorem encStart_errcode (s : State) : (encStart s).errcode = s.errcode := rfl
@[simp] theorem encStart_errinfo (s : State) : (encStart s).errinfo = s.errinfo := rfl
@[simp] theorem encStart_codeSize (s : State) : (encStart s).codeSize = BitVec.ofNat 5 Config.initBits := rfl
@[simp] theorem encStart_nextCode (s : State) : (encStart s).nextCode = BitVec.ofNat 21 Config.firstCode := rfl
@[simp] theorem encStart_prefixCode (s : State) : (encStart s).prefixCode = none := rfl
@[simp] theorem encStart_oldCode (s : State) : (encStart s).oldCode = s.oldCode := rfl
@[simp] theorem encStart_oldString (s : State) : (encStart s).oldString = s.oldString := rfl
@[simp] theorem encStart_pendingBits (s : State) : (encStart s).pendingBits = 0 := rfl
@[simp] theorem encStart_pendingCount (s : State) : (encStart s).pendingCount = 0 := rfl
@[simp] theorem encStart_ent (s : State) : (encStart s).ent = [] := rfl
@[simp] theorem encStart_lk (s : State) : (encStart s).lk = [] := rfl
@[simp] theorem encStart_out (s : State) : (encStart s).out = [] := rfl
@[simp] theorem encStart_input (s : State) : (encStart s).input = s.input := rfl
@[simp] theorem encStart_result (s : State) : (encStart s).result = s.result := rfl
@[simp] theorem encStart_started (s : State) : (encStart s).started = true := rfl
@[simp] theorem encStart_freeCount (s : State) : (encStart s).freeCount = s.freeCount := rfl

/-! `decStart` -/

@[simp] theorem decStart_status (s : State) : (decStart s).status = .dec := rfl
@[simp] theorem decStart_errcode (s : State) : (decStart s).errcode = s.errcode := rfl
@[simp] theorem decStart_errinfo (s : State) : (decStart s).errinfo = s.errinfo := rfl
@[simp] theorem decStart_codeSize (s : State) : (decStart s).codeSize = BitVec.ofNat 5 Config.initBits := rfl
@[simp] theorem decStart_nextCode (s : State) : (decStart s).nextCode = BitVec.ofNat 21 Config.firstCode := rfl
@[simp] theorem decStart_prefixCode (s : State) : (decStart s).prefixCode = s.prefixCode := rfl
@[simp] theorem decStart_oldCode (s : State) : (decStart s).oldCode = none := rfl
@[simp] theorem decStart_oldString (s : State) : (decStart s).oldString = [] := rfl
@[simp] theorem decStart_pendingBits (s : State) : (decStart s).pendingBits = 0 := rfl
@[simp] theorem decStart_pendingCount (s : State) : (decStart s).pendingCount = 0 := rfl
@[simp] theorem decStart_ent (s : State) : (decStart s).ent = [] := rfl
@[simp] theorem decStart_lk (s : State) : (decStart s).lk = [] := rfl
@[simp] theorem decStart_out (s : State) : (decStart s).out = [] := rfl
@[simp] theorem decStart_input (s : State) : (decStart s).input = s.input := rfl
@[simp] theorem decStart_result (s : State) : (decStart s).result = s.result := rfl
@[simp] theorem decStart_started (s : State) : (decStart s).started = true := rfl
@[simp] theorem decStart_freeCount (s : State) : (decStart s).freeCount = s.freeCount := rfl

end Sys2Proof.Machine
end

