-- ==== Sys2Proof/Laws/Memory.lean ====
section
/-! SUPPORT. The laws of the sparse memories: read after write, writes to different addresses, the canonical form. -/

namespace Sys2Proof.Machine

section
variable {α : Type}

/-- An address below every listed one is not listed. -/
theorem memFind_eq_none_of_lt {m : Memory α} {a : Nat} (h : ∀ x ∈ m, a < x.1) : memFind m a = none := by
  induction m with
  | nil => rfl
  | cons x m ih =>
    have hx := h x (by simp)
    simp only [memFind, if_neg (show ¬ x.1 = a by omega)]
    exact ih fun y hy => h y (by simp [hy])

theorem memFind_insert_same (m : Memory α) (a : Nat) (v : α) : memFind (memInsert a v m) a = some v := by
  induction m with
  | nil => simp [memInsert, memFind]
  | cons x m ih =>
    obtain ⟨k, w⟩ := x
    simp only [memInsert]
    split
    · simp [memFind]
    · split
      · simp [memFind]
      · simp only [memFind, if_neg (show ¬ k = a by omega)]; exact ih

theorem memFind_insert_ne (m : Memory α) {a b : Nat} (v : α) (h : b ≠ a) :
    memFind (memInsert a v m) b = memFind m b := by
  induction m with
  | nil => simp [memInsert, memFind, Ne.symm h]
  | cons x m ih =>
    obtain ⟨k, w⟩ := x
    simp only [memInsert]
    split
    · simp [memFind, Ne.symm h]
    · split
      · next hk => subst hk; simp [memFind, Ne.symm h]
      · simp only [memFind, ih]

theorem memFind_erase_ne (m : Memory α) {a b : Nat} (h : b ≠ a) : memFind (memErase a m) b = memFind m b := by
  induction m with
  | nil => rfl
  | cons x m ih =>
    obtain ⟨k, w⟩ := x
    simp only [memErase]
    split
    · next hk => subst hk; simp [memFind, Ne.symm h]
    · simp only [memFind, ih]

theorem memFind_erase_same {m : Memory α} (hm : m.Pairwise fun x y => x.1 < y.1) (a : Nat) :
    memFind (memErase a m) a = none := by
  induction m with
  | nil => rfl
  | cons x m ih =>
    obtain ⟨k, w⟩ := x
    rw [List.pairwise_cons] at hm
    simp only [memErase]
    split
    · next hk => exact memFind_eq_none_of_lt fun y hy => by have := hm.1 y hy; simp at this; omega
    · next hk => simp only [memFind, if_neg hk]; exact ih hm.2

theorem mem_memInsert {m : Memory α} {a : Nat} {v : α} {x : Nat × α} (h : x ∈ memInsert a v m) :
    x = (a, v) ∨ x ∈ m := by
  induction m with
  | nil => simpa [memInsert] using h
  | cons y m ih =>
    obtain ⟨k, w⟩ := y
    simp only [memInsert] at h
    split at h
    · simpa using h
    · split at h
      · simp at h; tauto
      · simp only [List.mem_cons] at h ⊢; tauto

theorem mem_memErase {m : Memory α} {a : Nat} {x : Nat × α} (h : x ∈ memErase a m) : x ∈ m := by
  induction m with
  | nil => simp [memErase] at h
  | cons y m ih =>
    obtain ⟨k, w⟩ := y
    simp only [memErase] at h
    split at h
    · simp [h]
    · simp only [List.mem_cons] at h ⊢; tauto

theorem memInsert_sorted {m : Memory α} (hm : m.Pairwise fun x y => x.1 < y.1) (a : Nat) (v : α) :
    (memInsert a v m).Pairwise fun x y => x.1 < y.1 := by
  induction m with
  | nil => simp [memInsert]
  | cons x m ih =>
    obtain ⟨k, w⟩ := x
    have hm' := hm
    rw [List.pairwise_cons] at hm
    simp only [memInsert]
    split
    · next hk =>
      refine List.pairwise_cons.2 ⟨fun y hy => ?_, hm'⟩
      rcases List.mem_cons.1 hy with rfl | hy
      · exact hk
      · have := hm.1 y hy; simp at this ⊢; omega
    · split
      · next hk => subst hk; exact List.pairwise_cons.2 ⟨hm.1, hm.2⟩
      · refine List.pairwise_cons.2 ⟨fun y hy => ?_, ih hm.2⟩
        rcases mem_memInsert hy with rfl | hy
        · simp; omega
        · exact hm.1 y hy

theorem memErase_sorted {m : Memory α} (hm : m.Pairwise fun x y => x.1 < y.1) (a : Nat) :
    (memErase a m).Pairwise fun x y => x.1 < y.1 := by
  induction m with
  | nil => simp [memErase]
  | cons x m ih =>
    obtain ⟨k, w⟩ := x
    rw [List.pairwise_cons] at hm
    simp only [memErase]
    split
    · exact hm.2
    · exact List.pairwise_cons.2 ⟨fun y hy => hm.1 y (mem_memErase hy), ih hm.2⟩

/-- Equal canonical content means equal data: a listed pair is found. -/
theorem memFind_of_mem {m : Memory α} (hm : m.Pairwise fun x y => x.1 < y.1) {x : Nat × α} (h : x ∈ m) :
    memFind m x.1 = some x.2 := by
  induction m with
  | nil => simp at h
  | cons y m ih =>
    rw [List.pairwise_cons] at hm
    rcases List.mem_cons.1 h with rfl | h
    · simp [memFind]
    · have := hm.1 x h
      simp only [memFind, if_neg (show ¬ y.1 = x.1 by omega)]
      exact ih hm.2 h

theorem mem_of_memFind {m : Memory α} {a : Nat} {v : α} (h : memFind m a = some v) : (a, v) ∈ m := by
  induction m with
  | nil => simp [memFind] at h
  | cons y m ih =>
    obtain ⟨k, w⟩ := y
    simp only [memFind] at h
    split at h
    · next hk => subst hk; simp at h; simp [h]
    · simp [ih h]

/-- The empty list reads as unlisted everywhere. -/
theorem memRead_nil (u : Nat → Option α) (a : Nat) : memRead u [] a = u a := rfl

variable [DecidableEq α] {u : Nat → Option α} {m : Memory α}

/-- Read after write, the same address. -/
theorem memRead_write_same (hm : m.wf u) (a : Nat) (v : α) : memRead u (memWrite u m a v) a = some v := by
  unfold memRead memWrite
  split_ifs with h
  · rw [memFind_erase_same hm.1]; exact h
  · rw [memFind_insert_same]

/-- A write leaves every other address alone. -/
theorem memRead_write_ne (m : Memory α) {a b : Nat} (v : α) (h : b ≠ a) :
    memRead u (memWrite u m a v) b = memRead u m b := by
  unfold memRead memWrite
  split_ifs
  · rw [memFind_erase_ne m h]
  · rw [memFind_insert_ne m v h]

/-- A write keeps the canonical form. -/
theorem memWrite_wf (hm : m.wf u) (a : Nat) (v : α) : (memWrite u m a v).wf u := by
  unfold memWrite
  split_ifs with h
  · exact ⟨memErase_sorted hm.1 a, fun x hx => hm.2 x (mem_memErase hx)⟩
  · refine ⟨memInsert_sorted hm.1 a v, fun x hx => ?_⟩
    rcases mem_memInsert hx with rfl | hx
    · exact h
    · exact hm.2 x hx

/-- A written list holds only the written pair and old ones. -/
theorem mem_memWrite {a : Nat} {v : α} {x : Nat × α} (h : x ∈ memWrite u m a v) : x = (a, v) ∨ x ∈ m := by
  unfold memWrite at h
  split_ifs at h
  · exact .inr (mem_memErase h)
  · exact mem_memInsert h

end

end Sys2Proof.Machine
end

