-- ==== Sys2Proof/Laws/Operands.lean ====
section
/-! SUPPORT. The laws of the operand forms: the numeric values of the formats of R59 to R61, the addresses of the two
memories, what unlisted addresses read as, and the registers' arithmetic, which never wraps in use (R114). -/

namespace Sys2Proof.Machine

/-! Formats. -/

@[simp] theorem codeOrNoneBits_none_toNat : (codeOrNoneBits none).toNat = 2 ^ 20 := by decide

@[simp] theorem codeOrNoneBits_some_toNat (c : Code) : (codeOrNoneBits (some c)).toNat = c.toNat := by
  show (0#1 ++ c).toNat = c.toNat
  rw [BitVec.toNat_append]
  simp

/-- A format's value is the sum of its two fields' places. -/
theorem append_byte_toNat {n : Nat} (x : BitVec n) (b : Byte) : (x ++ b).toNat = x.toNat * 256 + b.toNat := by
  rw [BitVec.toNat_append, Nat.shiftLeft_eq, ← Nat.shiftLeft_eq, ← Nat.shiftLeft_add_eq_or_of_lt b.isLt,
    Nat.shiftLeft_eq]

theorem entryBits_toNat (e : Entry) : (entryBits e).toNat = (codeOrNoneBits e.pfx).toNat * 256 + e.byte.toNat :=
  append_byte_toNat _ _

theorem lkAddress_eq (p : CodeOrNone) (b : Byte) : lkAddress p b = (codeOrNoneBits p).toNat * 256 + b.toNat :=
  append_byte_toNat _ _

@[simp] theorem lkAddress_none (b : Byte) : lkAddress none b = 268435456 + b.toNat := by
  rw [lkAddress_eq, codeOrNoneBits_none_toNat]; norm_num

@[simp] theorem lkAddress_some (c : Code) (b : Byte) : lkAddress (some c) b = c.toNat * 256 + b.toNat := by
  rw [lkAddress_eq, codeOrNoneBits_some_toNat]

/-- Different pairs have different addresses. -/
theorem lkAddress_inj {p q : CodeOrNone} {b d : Byte} (h : lkAddress p b = lkAddress q d) : p = q ∧ b = d := by
  have hb := b.isLt
  have hd := d.isLt
  rcases p with _ | p <;> rcases q with _ | q <;> simp only [lkAddress_none, lkAddress_some] at h
  · exact ⟨rfl, BitVec.eq_of_toNat_eq (by omega)⟩
  · have := q.isLt; omega
  · have := p.isLt; omega
  · exact ⟨congrArg some (BitVec.eq_of_toNat_eq (by omega)), BitVec.eq_of_toNat_eq (by omega)⟩

/-! What unlisted addresses read as. -/

theorem rootCode_toNat (b : Byte) : (rootCode b).toNat = b.toNat := by
  have := b.isLt
  simp only [rootCode, BitVec.toNat_setWidth]
  omega

theorem rootCode_eq_ofNat (b : Byte) : rootCode b = BitVec.ofNat 20 b.toNat := by
  apply BitVec.eq_of_toNat_eq
  simp [rootCode]

@[simp] theorem lkUnlisted_none (b : Byte) : lkUnlisted (lkAddress none b) = some (rootCode b) := by
  have hb := b.isLt
  have h : 268435456 + b.toNat - 268435456 = b.toNat := Nat.add_sub_cancel_left ..
  rw [lkAddress_none, lkUnlisted, if_pos ⟨Nat.le_add_right .., Nat.add_lt_add_left hb _⟩, h, rootCode_eq_ofNat]

@[simp] theorem lkUnlisted_some (c : Code) (b : Byte) : lkUnlisted (lkAddress (some c) b) = none := by
  have hb := b.isLt
  have hc := c.isLt
  rw [lkAddress_some, lkUnlisted, if_neg]
  omega

/-! ENT and LK. -/

theorem State.entRead_lt {s : State} {c : Code} {e : Entry} (h : s.entRead c = some e) : c.toNat < s.nextCode.toNat := by
  unfold State.entRead at h
  split at h
  · assumption
  · simp at h

theorem State.entRead_of_lt {s : State} {c : Code} (h : c.toNat < s.nextCode.toNat) :
    s.entRead c = memRead entUnlisted s.ent c.toNat := if_pos h

theorem State.entRead_of_le {s : State} {c : Code} (h : s.nextCode.toNat ≤ c.toNat) : s.entRead c = none :=
  if_neg (by omega)

/-- What an entry read depends on. -/
theorem State.entRead_congr {s t : State} (he : t.ent = s.ent) (hn : t.nextCode = s.nextCode) (c : Code) :
    t.entRead c = s.entRead c := by
  unfold State.entRead; rw [he, hn]

/-- What a lookup depends on. -/
theorem State.lkRead_congr {s t : State} (h : t.lk = s.lk) (p : CodeOrNone) (b : Byte) : t.lkRead p b = s.lkRead p b := by
  unfold State.lkRead; rw [h]

/-! The registers' arithmetic. -/

theorem nextCode_succ_toNat {n : BitVec 21} (h : n.toNat ≤ 1048576) : (n + 1).toNat = n.toNat + 1 := by
  rw [BitVec.toNat_add]
  have : (1 : BitVec 21).toNat = 1 := rfl
  omega

theorem codeSize_succ_toNat {n : BitVec 5} (h : n.toNat < 31) : (n + 1).toNat = n.toNat + 1 := by
  rw [BitVec.toNat_add]
  have : (1 : BitVec 5).toNat = 1 := rfl
  omega

theorem count_ofNat_toNat {n : Nat} (h : n < 32) : (BitVec.ofNat 5 n).toNat = n := by
  rw [BitVec.toNat_ofNat]; omega

theorem newCode_toNat {n : BitVec 21} (h : n.toNat ≤ 1048575) : (n.setWidth 20 : Code).toNat = n.toNat := by
  rw [BitVec.toNat_setWidth]; omega

/-- A command word is `256 * op + data`. -/
theorem commandWord_toNat (op : BitVec 3) (d : Byte) : (commandWord op d).toNat = op.toNat * 256 + d.toNat :=
  append_byte_toNat _ _

theorem commandInfo_toNat (op : BitVec 3) (d : Byte) : (commandInfo op d).toNat = op.toNat * 256 + d.toNat := by
  have h1 := op.isLt
  have h2 := d.isLt
  simp only [commandInfo, BitVec.toNat_setWidth, commandWord_toNat]
  omega

@[simp] theorem opField_commandWord (op : BitVec 3) (d : Byte) : opField (commandWord op d) = op := by
  apply BitVec.eq_of_toNat_eq
  have h1 := op.isLt
  have h2 := d.isLt
  simp only [opField, BitVec.extractLsb'_toNat, commandWord_toNat, Nat.shiftRight_eq_div_pow]
  omega

@[simp] theorem dataField_commandWord (op : BitVec 3) (d : Byte) : dataField (commandWord op d) = d := by
  apply BitVec.eq_of_toNat_eq
  have h2 := d.isLt
  simp only [dataField, BitVec.extractLsb'_toNat, commandWord_toNat, Nat.shiftRight_zero]
  omega

/-- A command word is its two fields. -/
theorem commandWord_fields (w : CommandWord) : commandWord (opField w) (dataField w) = w := by
  apply BitVec.eq_of_toNat_eq
  have := w.isLt
  simp only [commandWord_toNat, opField, dataField, BitVec.extractLsb'_toNat, Nat.shiftRight_eq_div_pow]
  omega

theorem opField_toNat (w : CommandWord) : (opField w).toNat = w.toNat / 256 := by
  have := w.isLt
  simp only [opField, BitVec.extractLsb'_toNat, Nat.shiftRight_eq_div_pow]
  omega

end Sys2Proof.Machine
end

