-- ==== Sys2Proof/Laws/Bits.lean ====
section
/-! SUPPORT. Bit sequences (R42): the bits of a number split, joined and shifted, and the bytes peeled off the pending
register. -/

namespace Sys2Proof.Machine

@[simp] theorem lsbBits_length (w v : Nat) : (lsbBits w v).length = w := by simp [lsbBits]

@[simp] theorem lsbBits_zero_width (v : Nat) : lsbBits 0 v = [] := rfl

theorem lsbBits_getElem {w v i : Nat} (h : i < (lsbBits w v).length) : (lsbBits w v)[i] = v.testBit i := by
  simp [lsbBits]

/-- Two bit sequences of numbers are equal when their bits are. -/
theorem lsbBits_congr {w v v' : Nat} (h : ∀ i, i < w → v.testBit i = v'.testBit i) : lsbBits w v = lsbBits w v' := by
  unfold lsbBits
  exact List.map_congr_left fun i hi => h i (List.mem_range.1 hi)

/-- The bits of a number, split at any place. -/
theorem lsbBits_add (m n v : Nat) : lsbBits (m + n) v = lsbBits m v ++ lsbBits n (v >>> m) := by
  unfold lsbBits
  rw [List.range_add, List.map_append, List.map_map]
  congr 1
  apply List.map_congr_left
  intro i _
  simp [Nat.testBit_shiftRight]

theorem lsbBits_zero (w : Nat) : lsbBits w 0 = List.replicate w false := by
  apply List.ext_getElem <;> simp [lsbBits]

theorem lsbBits_low (w v : Nat) : lsbBits w (low w v) = lsbBits w v :=
  lsbBits_congr fun i hi => by simp [low, Nat.testBit_mod_two_pow, hi]

/-- Bits ORed in above a clean register follow the register's bits. -/
theorem lsbBits_or_shift {n x : Nat} (hx : x < 2 ^ n) (w y : Nat) :
    lsbBits (n + w) (x ||| (y <<< n)) = lsbBits n x ++ lsbBits w y := by
  rw [lsbBits_add]
  congr 1
  · refine lsbBits_congr fun i hi => ?_
    simp [Nat.testBit_or, Nat.testBit_shiftLeft, show ¬ n ≤ i by omega]
  · refine lsbBits_congr fun i _ => ?_
    have : x.testBit (n + i) = false := Nat.testBit_lt_two_pow (lt_of_lt_of_le hx (Nat.pow_le_pow_right (by omega) (by omega)))
    simp [Nat.testBit_or, Nat.testBit_shiftLeft, Nat.testBit_shiftRight, this]

/-- Bits ORed in above a clean register keep it within its new count. -/
theorem or_shift_lt {n x w y : Nat} (hx : x < 2 ^ n) (hy : y < 2 ^ w) : x ||| (y <<< n) < 2 ^ (n + w) := by
  apply Nat.or_lt_two_pow
  · exact lt_of_lt_of_le hx (Nat.pow_le_pow_right (by omega) (by omega))
  · rw [Nat.shiftLeft_eq, Nat.pow_add, Nat.mul_comm]
    exact Nat.mul_lt_mul_of_pos_left hy (Nat.two_pow_pos n)

theorem shiftRight_lt {x n k : Nat} (hx : x < 2 ^ n) (hk : k ≤ n) : x >>> k < 2 ^ (n - k) := by
  rw [Nat.shiftRight_eq_div_pow, Nat.div_lt_iff_lt_mul (Nat.two_pow_pos k), ← Nat.pow_add]
  rwa [Nat.sub_add_cancel hk]

theorem low_lt (w v : Nat) : low w v < 2 ^ w := Nat.mod_lt _ (Nat.two_pow_pos w)

theorem lowByte_toNat (v : Nat) : (lowByte v).toNat = low 8 v := by simp [lowByte, low]

@[simp] theorem byteBits_nil : byteBits [] = [] := rfl

@[simp] theorem byteBits_cons (b : Byte) (bs : List Byte) : byteBits (b :: bs) = lsbBits 8 b.toNat ++ byteBits bs := by
  simp [byteBits]

@[simp] theorem byteBits_append (as bs : List Byte) : byteBits (as ++ bs) = byteBits as ++ byteBits bs := by
  simp [byteBits]

@[simp] theorem byteBits_length (bs : List Byte) : (byteBits bs).length = 8 * bs.length := by
  induction bs with
  | nil => rfl
  | cons b bs ih => simp [ih]; omega

@[simp] theorem peelBytes_length (k bits : Nat) : (peelBytes k bits).length = k := by
  induction k generalizing bits with
  | zero => rfl
  | succ k ih => simp [peelBytes, ih]

/-- The bytes peeled off, then what stays, are the register's bits. -/
theorem byteBits_peelBytes (k r bits : Nat) :
    byteBits (peelBytes k bits) ++ lsbBits r (bits >>> (8 * k)) = lsbBits (8 * k + r) bits := by
  induction k generalizing bits with
  | zero => simp [peelBytes]
  | succ k ih =>
    rw [peelBytes, byteBits_cons, List.append_assoc, show 8 * (k + 1) = 8 + 8 * k by omega, Nat.shiftRight_add, ih,
      lowByte_toNat, lsbBits_low, Nat.add_assoc, ← lsbBits_add]

/-- A number is determined by its bits. -/
theorem eq_of_lsbBits {w x y : Nat} (hx : x < 2 ^ w) (hy : y < 2 ^ w) (h : lsbBits w x = lsbBits w y) : x = y := by
  apply Nat.eq_of_testBit_eq
  intro i
  by_cases hi : i < w
  · have h1 := lsbBits_getElem (w := w) (v := x) (i := i) (by simpa)
    have h2 := lsbBits_getElem (w := w) (v := y) (i := i) (by simpa)
    rw [← h1, ← h2]; simp [h]
  · have hle : 2 ^ w ≤ 2 ^ i := Nat.pow_le_pow_right (by omega) (by omega)
    rw [Nat.testBit_lt_two_pow (lt_of_lt_of_le hx hle), Nat.testBit_lt_two_pow (lt_of_lt_of_le hy hle)]

end Sys2Proof.Machine
end

