-- ==== Sys2Proof/Laws/Units.lean ====
section
/-! SUPPORT. For each shared operation one lemma that says once everything it can do when it answers a next state, and
one that says when it does; later proofs cite these and unfold no operation. -/

namespace Sys2Proof.Machine

/-! Sequencing. -/

@[simp] theorem andThen_next {α β : Type} (x : α) (f : α → Answer β) : andThen (.next x) f = f x := rfl
@[simp] theorem andThen_fault {α β : Type} (r : Fault) (f : α → Answer β) :
    andThen (.fault r : Answer α) f = .fault r := rfl
@[simp] theorem andThen_refused {α β : Type} (r : Refusal) (f : α → Answer β) :
    andThen (.refused r : Answer α) f = .refused r := rfl

/-- A sequence answers a value exactly when both parts do. -/
theorem andThen_eq_next {α β : Type} {a : Answer α} {f : α → Answer β} {y : β} :
    andThen a f = .next y ↔ ∃ x, a = .next x ∧ f x = .next y := by
  cases a <;> simp [andThen]

/-! Well-formed widths. -/

theorem widthOk_iff {w : BitVec 5} : widthOk w = true ↔ 1 ≤ w.toNat ∧ w.toNat ≤ 20 := by simp [widthOk]

theorem exhausted_iff {c w : BitVec 5} : exhausted c w = true ↔ c.toNat < w.toNat := by simp [exhausted]

/-! The dictionary. -/

/-- The state DICT_APPEND leaves. -/
theorem dictAppend_eq {s : State} {p : Code} {b : Byte} {l : Bool} (hn : s.nextCode.toNat ≤ 1048575)
    (hp : p.toNat < s.nextCode.toNat) :
    dictAppend l (some p) b s =
      .next (((if l then (s.entWrite s.nextCode.toNat { pfx := some p, byte := b }).lkWrite (some p) b
          (s.nextCode.setWidth 20) else s.entWrite s.nextCode.toNat { pfx := some p, byte := b })).bumpNextCode,
        s.nextCode.setWidth 20) := by
  simp [dictAppend, State.canAppend, hn, hp]

/-- DICT_APPEND answers only inside its contract. -/
theorem dictAppend_next {s : State} {p : CodeOrNone} {b : Byte} {l : Bool} {r : State × Code}
    (h : dictAppend l p b s = .next r) :
    ∃ q, p = some q ∧ s.nextCode.toNat ≤ 1048575 ∧ q.toNat < s.nextCode.toNat ∧
      r = (((if l then (s.entWrite s.nextCode.toNat { pfx := some q, byte := b }).lkWrite (some q) b
          (s.nextCode.setWidth 20) else s.entWrite s.nextCode.toNat { pfx := some q, byte := b })).bumpNextCode,
        s.nextCode.setWidth 20) := by
  have hc : s.nextCode.toNat ≤ 1048575 := by
    by_contra hc
    simp [dictAppend, State.canAppend, hc] at h
  cases p with
  | none => simp [dictAppend, State.canAppend, hc] at h
  | some q =>
    have hq : q.toNat < s.nextCode.toNat := by
      by_contra hq
      simp [dictAppend, State.canAppend, hc, hq] at h
    rw [dictAppend_eq hc hq] at h
    cases h
    exact ⟨q, rfl, hc, hq, rfl⟩

/-- One step of the chain walk, at a root. -/
theorem chainWalk_root {s : State} {n : Nat} {c : Code} {b : Byte} {acc : List Byte}
    (h : s.entRead c = some { pfx := none, byte := b }) : chainWalk s (n + 1) c acc = .next (b :: acc) := by
  simp [chainWalk, h]

/-- One step of the chain walk, at a dynamic entry. -/
theorem chainWalk_dynamic {s : State} {n : Nat} {c p : Code} {b : Byte} {acc : List Byte}
    (h : s.entRead c = some { pfx := some p, byte := b }) :
    chainWalk s (n + 1) c acc = chainWalk s n p (b :: acc) := by
  simp [chainWalk, h]

/-- DICT_RECONSTRUCT answers only inside its contract. -/
theorem dictReconstruct_next {s : State} {c : Code} {str : List Byte} (h : dictReconstruct c s = .next str) :
    c.toNat < s.nextCode.toNat ∧ chainWalk s s.nextCode.toNat c [] = .next str := by
  unfold dictReconstruct at h
  split at h
  · exact ⟨‹_›, h⟩
  · cases h

theorem dictReconstruct_eq {s : State} {c : Code} (h : c.toNat < s.nextCode.toNat) :
    dictReconstruct c s = chainWalk s s.nextCode.toNat c [] := if_pos h

/-! The bit packer. -/

theorem bpWrite_eq {s : State} {c : Code} {w : BitVec 5} (h1 : 1 ≤ w.toNat) (h2 : w.toNat ≤ 20)
    (hp : s.pendingCount.toNat ≤ 7) :
    bpWrite c w s =
      .next ((s.emit (peelBytes ((s.pendingCount.toNat + w.toNat) / 8)
          (s.pendingBits ||| (low w.toNat c.toNat <<< s.pendingCount.toNat)))).setPending
        ((s.pendingBits ||| (low w.toNat c.toNat <<< s.pendingCount.toNat)) >>>
          (8 * ((s.pendingCount.toNat + w.toNat) / 8)))
        (s.pendingCount.toNat + w.toNat - 8 * ((s.pendingCount.toNat + w.toNat) / 8))) := by
  simp [bpWrite, widthOk_iff.2 ⟨h1, h2⟩, hp]

theorem bpWrite_next {s t : State} {c : Code} {w : BitVec 5} (h : bpWrite c w s = .next t) :
    1 ≤ w.toNat ∧ w.toNat ≤ 20 ∧ s.pendingCount.toNat ≤ 7 ∧
      t = (s.emit (peelBytes ((s.pendingCount.toNat + w.toNat) / 8)
          (s.pendingBits ||| (low w.toNat c.toNat <<< s.pendingCount.toNat)))).setPending
        ((s.pendingBits ||| (low w.toNat c.toNat <<< s.pendingCount.toNat)) >>>
          (8 * ((s.pendingCount.toNat + w.toNat) / 8)))
        (s.pendingCount.toNat + w.toNat - 8 * ((s.pendingCount.toNat + w.toNat) / 8)) := by
  by_cases hw : widthOk w = true
  · by_cases hp : s.pendingCount.toNat ≤ 7
    · obtain ⟨h1, h2⟩ := widthOk_iff.1 hw
      rw [bpWrite_eq h1 h2 hp] at h
      cases h
      exact ⟨h1, h2, hp, rfl⟩
    · simp [bpWrite, hw, hp] at h
  · simp [bpWrite, hw] at h

theorem bpFeed_eq {s : State} {b : Byte} (hp : s.pendingCount.toNat ≤ 19) :
    bpFeed b s =
      .next (s.setPending (s.pendingBits ||| (b.toNat <<< s.pendingCount.toNat)) (s.pendingCount.toNat + 8)) :=
  if_pos hp

theorem bpFeed_next {s t : State} {b : Byte} (h : bpFeed b s = .next t) :
    s.pendingCount.toNat ≤ 19 ∧
      t = s.setPending (s.pendingBits ||| (b.toNat <<< s.pendingCount.toNat)) (s.pendingCount.toNat + 8) := by
  by_cases hp : s.pendingCount.toNat ≤ 19
  · rw [bpFeed_eq hp] at h; cases h; exact ⟨hp, rfl⟩
  · simp [bpFeed, hp] at h

theorem bpRead_exhausted {s : State} {w : BitVec 5} (h1 : 1 ≤ w.toNat) (h2 : w.toNat ≤ 20)
    (h : s.pendingCount.toNat < w.toNat) : bpRead w s = .next (s, none) := by
  simp [bpRead, widthOk_iff.2 ⟨h1, h2⟩, exhausted_iff.2 h]

theorem bpRead_code {s : State} {w : BitVec 5} (h1 : 1 ≤ w.toNat) (h2 : w.toNat ≤ 20)
    (h : w.toNat ≤ s.pendingCount.toNat) :
    bpRead w s =
      .next (s.setPending (s.pendingBits >>> w.toNat) (s.pendingCount.toNat - w.toNat),
        some (BitVec.ofNat 20 (low w.toNat s.pendingBits))) := by
  have : exhausted s.pendingCount w = false := by simp [exhausted]; omega
  simp [bpRead, widthOk_iff.2 ⟨h1, h2⟩, this]

theorem bpRead_next {s : State} {w : BitVec 5} {r : State × Option Code} (h : bpRead w s = .next r) :
    1 ≤ w.toNat ∧ w.toNat ≤ 20 ∧
      (s.pendingCount.toNat < w.toNat ∧ r = (s, none) ∨
        w.toNat ≤ s.pendingCount.toNat ∧
          r = (s.setPending (s.pendingBits >>> w.toNat) (s.pendingCount.toNat - w.toNat),
            some (BitVec.ofNat 20 (low w.toNat s.pendingBits)))) := by
  by_cases hw : widthOk w = true
  · obtain ⟨h1, h2⟩ := widthOk_iff.1 hw
    refine ⟨h1, h2, ?_⟩
    rcases Nat.lt_or_ge s.pendingCount.toNat w.toNat with he | he
    · rw [bpRead_exhausted h1 h2 he] at h; cases h; exact .inl ⟨he, rfl⟩
    · rw [bpRead_code h1 h2 he] at h; cases h; exact .inr ⟨he, rfl⟩
  · simp [bpRead, hw] at h

theorem bpFlush_empty {s : State} (h : s.pendingCount.toNat = 0) : bpFlush s = .next (s.setPending 0 0) := by
  simp [bpFlush, h]

theorem bpFlush_some {s : State} (h1 : 0 < s.pendingCount.toNat) (h2 : s.pendingCount.toNat ≤ 7) :
    bpFlush s = .next ((s.emit [lowByte s.pendingBits]).setPending 0 0) := by
  simp [bpFlush, h1, h2]

theorem bpFlush_next {s t : State} (h : bpFlush s = .next t) :
    s.pendingCount.toNat ≤ 7 ∧
      (s.pendingCount.toNat = 0 ∧ t = s.setPending 0 0 ∨
        0 < s.pendingCount.toNat ∧ t = (s.emit [lowByte s.pendingBits]).setPending 0 0) := by
  by_cases hp : s.pendingCount.toNat ≤ 7
  · refine ⟨hp, ?_⟩
    rcases Nat.eq_zero_or_pos s.pendingCount.toNat with h0 | h0
    · rw [bpFlush_empty h0] at h; cases h; exact .inl ⟨h0, rfl⟩
    · rw [bpFlush_some h0 hp] at h; cases h; exact .inr ⟨h0, rfl⟩
  · simp [bpFlush, hp] at h

/-! The state machines. -/

/-- Everything ENC_BYTE can do. -/
theorem encByte_next {s t : State} {c : Byte} (h : encByte c s = .next t) :
    (∃ m, s.lkRead s.prefixCode c = some m ∧ t = s.setPrefixCode (some m)) ∨
    (s.lkRead s.prefixCode c = none ∧ ∃ s1 s2, encEmit s = .next s1 ∧ encCreate c s1 = .next s2 ∧
      t = s2.setPrefixCode (some (rootCode c))) := by
  unfold encByte dictLookup at h
  split at h
  · next m hm => cases h; exact .inl ⟨m, hm, rfl⟩
  · next hm =>
    obtain ⟨s1, h1, h⟩ := andThen_eq_next.1 h
    obtain ⟨s2, h2, h⟩ := andThen_eq_next.1 h
    cases h
    exact .inr ⟨hm, s1, s2, h1, h2, rfl⟩

/-- Everything the creating half of ENC_BYTE can do. -/
theorem encCreate_next {s t : State} {c : Byte} (h : encCreate c s = .next t) :
    (1048575 < s.nextCode.toNat ∧ t = s) ∨
    (s.nextCode.toNat ≤ 1048575 ∧ ∃ r, dictAppend true s.prefixCode c s = .next r ∧
      t = if encoderGrows r.1.nextCode r.1.codeSize then r.1.grow else r.1) := by
  unfold encCreate State.canAppend at h
  split at h
  · next hc =>
    obtain ⟨r, h1, h⟩ := andThen_eq_next.1 h
    cases h
    exact .inr ⟨by simpa using hc, r, h1, rfl⟩
  · next hc => cases h; exact .inl ⟨by simpa using hc, rfl⟩

/-- Everything DEC_UPDATE can do. -/
theorem decUpdate_next {s t : State} {fb : Byte} (h : decUpdate fb s = .next t) :
    (1048575 < s.nextCode.toNat ∧ t = s) ∨
    (s.nextCode.toNat ≤ 1048575 ∧ ∃ r, dictAppend false s.oldCode fb s = .next r ∧
      t = if decoderGrows r.1.nextCode r.1.codeSize then r.1.grow else r.1) := by
  unfold decUpdate State.canAppend at h
  split at h
  · next hc =>
    obtain ⟨r, h1, h⟩ := andThen_eq_next.1 h
    cases h
    exact .inr ⟨by simpa using hc, r, h1, rfl⟩
  · next hc => cases h; exact .inl ⟨by simpa using hc, rfl⟩

/-- Everything DEC_UPDATE and DEC_COMMIT together can do. -/
theorem decUpdateCommit_next {s t : State} {c : Code} {str : List Byte} (h : decUpdateCommit c str s = .next t) :
    ∃ fb rest s1, str = fb :: rest ∧ decUpdate fb s = .next s1 ∧ t = decCommit c str s1 := by
  unfold decUpdateCommit at h
  split at h
  · cases h
  · next fb rest =>
    obtain ⟨s1, h1, h⟩ := andThen_eq_next.1 h
    cases h
    exact ⟨fb, rest, s1, rfl, h1, rfl⟩

/-- Everything DEC_CODE can do, by the class of the code. -/
theorem decCode_next {s t : State} {c : Code} (h : decCode c s = .next t) :
    (classify s.mode c = .first ∧ ∃ str, dictReconstruct c s = .next str ∧ t = decCommit c str s) ∨
    (classify s.mode c = .kwkwk ∧ ∃ b0 rest, s.oldString = b0 :: rest ∧
      decUpdateCommit c (s.oldString ++ [b0]) s = .next t) ∨
    (classify s.mode c = .lookup ∧ ∃ str, dictReconstruct c s = .next str ∧ decUpdateCommit c str s = .next t) ∨
    (classify s.mode c = .invalid ∧ t = s.raise .invalidCode c) := by
  unfold decCode at h
  split at h
  · next hc =>
    obtain ⟨str, h1, h⟩ := andThen_eq_next.1 h
    cases h
    exact .inl ⟨hc, str, h1, rfl⟩
  · next hc =>
    unfold decKwkwk at h
    split at h
    · cases h
    · next b0 rest ho => exact .inr (.inl ⟨hc, b0, rest, ho, by rw [ho]; exact h⟩)
  · next hc =>
    obtain ⟨str, h1, h⟩ := andThen_eq_next.1 h
    exact .inr (.inr (.inl ⟨hc, str, h1, h⟩))
  · next hc => cases h; exact .inr (.inr (.inr ⟨hc, rfl⟩))

/-- Everything DEC_BYTE can do: feed, then read a code or none, then DEC_CODE on the code. -/
theorem decByte_next {s t : State} {b : Byte} (h : decByte b s = .next t) :
    ∃ s1 r, bpFeed b s = .next s1 ∧ bpRead s1.codeSize s1 = .next r ∧
      (r.2 = none ∧ t = r.1 ∨ ∃ c, r.2 = some c ∧ decCode c r.1 = .next t) := by
  unfold decByte at h
  obtain ⟨s1, h1, h⟩ := andThen_eq_next.1 h
  obtain ⟨r, h2, h⟩ := andThen_eq_next.1 h
  refine ⟨s1, r, h1, h2, ?_⟩
  split at h
  · next hr => cases h; exact .inl ⟨hr, rfl⟩
  · next c hr => exact .inr ⟨c, hr, h⟩

/-- Everything ENC_END can do. -/
theorem encEnd_next {s t : State} (h : encEnd s = .next t) :
    ∃ s1 s2, encEmit s = .next s1 ∧ bpFlush s1 = .next s2 ∧ t = s2.setStatus .done := by
  unfold encEnd at h
  obtain ⟨s1, h1, h⟩ := andThen_eq_next.1 h
  obtain ⟨s2, h2, h⟩ := andThen_eq_next.1 h
  cases h
  exact ⟨s1, s2, h1, h2, rfl⟩

/-- Everything a step can do: nothing, a reset, an instruction run, or a named refusal. -/
theorem step_next {s t : State} (h : step s = .next t) :
    (s.input = [] ∧ t = s) ∨
    (∃ rest, s.input = .reset :: rest ∧ t = (s.withInput rest).hardwareReset) ∨
    (∃ w rest i, s.input = .word w :: rest ∧ decode s.mode w = .ok i ∧ exec i (s.withInput rest) = .next t) := by
  unfold step fetch at h
  split at h
  · next hf =>
    split at hf
    · next hi => cases h; exact .inl ⟨hi, rfl⟩
    · cases hf
    · split at hf <;> cases hf
  · next s1 hf =>
    split at hf
    · cases hf
    · next rest hi => cases hf; cases h; exact .inr (.inl ⟨rest, hi, rfl⟩)
    · split at hf <;> cases hf
  · next i s1 hf =>
    split at hf
    · cases hf
    · cases hf
    · next w rest hi =>
      split at hf
      · next j hd => cases hf; exact .inr (.inr ⟨w, rest, i, hi, hd, h⟩)
      · cases hf
  · cases h

end Sys2Proof.Machine
end

