-- ==== Sys2Proof/Laws/Dictionary.lean ====
section
/-! SUPPORT. The two memories and the prefix chain: what depends on which fields, that the canonical form is kept, what
the roots read as, and that a dictionary with its invariant gives every code a string that later entries do not
change. -/

namespace Sys2Proof.Machine

/-! The canonical form. -/

theorem State.canonical_congr {s t : State} (h : s.canonical) (h1 : t.ent = s.ent) (h2 : t.lk = s.lk) : t.canonical := by
  unfold State.canonical at *; rw [h1, h2]; exact h

theorem State.canonical_of_nil {t : State} (h1 : t.ent = []) (h2 : t.lk = []) : t.canonical := by
  unfold State.canonical; rw [h1, h2]
  exact ⟨⟨List.Pairwise.nil, by intro x hx; cases hx⟩, ⟨List.Pairwise.nil, by intro x hx; cases hx⟩⟩

/-- Every memory operation keeps the canonical form: the write of ENT. -/
theorem State.entWrite_canonical {s : State} (h : s.canonical) (a : Nat) (e : Entry) : (s.entWrite a e).canonical :=
  ⟨memWrite_wf h.1 a e, h.2⟩

/-- Every memory operation keeps the canonical form: the write of LK. -/
theorem State.lkWrite_canonical {s : State} (h : s.canonical) (p : CodeOrNone) (b : Byte) (c : Code) :
    (s.lkWrite p b c).canonical :=
  ⟨h.1, memWrite_wf h.2 _ c⟩

theorem State.reset_canonical : State.reset.canonical := State.canonical_of_nil rfl rfl

/-! The roots. -/

/-- With nothing listed and `nextCode = 256`, ENT reads as the 256 root entries. -/
theorem entRead_of_nil {t : State} (h1 : t.ent = []) (h2 : t.nextCode = 256) (c : Code) :
    t.entRead c = if c.toNat < 256 then some { pfx := none, byte := BitVec.ofNat 8 c.toNat } else none := by
  unfold State.entRead
  rw [h1, h2, memRead_nil]
  have : (256 : BitVec 21).toNat = 256 := rfl
  rw [this]
  split
  · next h => simp [entUnlisted, Config.nRoot, h, rootEntry]
  · rfl

theorem lkRead_none_of_nil {t : State} (h1 : t.lk = []) (b : Byte) :
    t.lkRead none b = some (BitVec.ofNat 20 b.toNat) := by
  unfold State.lkRead
  rw [h1, memRead_nil, lkUnlisted_none, rootCode_eq_ofNat]

theorem lkRead_some_of_nil {t : State} (h1 : t.lk = []) (p : Code) (b : Byte) : t.lkRead (some p) b = none := by
  unfold State.lkRead
  rw [h1, memRead_nil, lkUnlisted_some]

theorem DictInv.entRead_root {s : State} (h : DictInv s) {c : Code} (hc : c.toNat < 256) :
    s.entRead c = some { pfx := none, byte := BitVec.ofNat 8 c.toNat } := by
  have := h.low
  simp only [Config.firstCode] at this
  have hnone : memFind s.ent c.toNat = none := memFind_eq_none_of_lt fun x hx => by
    have := (h.listed x hx).1
    simp only [Config.nRoot] at this
    omega
  rw [State.entRead_of_lt (by omega), memRead, hnone]
  simp [entUnlisted, Config.nRoot, hc, rootEntry]

/-! What the invariant of the dictionary depends on. -/

theorem DictInv.congr {s t : State} (h : DictInv s) (h1 : t.ent = s.ent) (h2 : t.lk = s.lk)
    (h3 : t.nextCode = s.nextCode) : DictInv t := by
  obtain ⟨a, b, c, d, e⟩ := h
  refine ⟨State.canonical_congr a h1 h2, by rw [h3]; exact b, by rw [h3]; exact c, by rw [h1, h3]; exact d, ?_⟩
  intro c
  rw [State.entRead_congr h1 h3, h3]
  exact e c

theorem EntryAppended.extends {s t : State} {p : Code} {b : Byte} (h : EntryAppended s t p b) :
    ∀ c x, s.entRead c = some x → t.entRead c = some x := by
  intro c x hc
  have := State.entRead_lt hc
  rw [h.2.2 c (by omega)]
  exact hc

/-! The prefix chain. -/

/-- Every code has a string, which every walk with enough fuel finds. -/
theorem DictInv.chain {s : State} (h : DictInv s) : ∀ (n : Nat) (c : Code), c.toNat = n → c.toNat < s.nextCode.toNat →
    ∃ str : List Byte, str ≠ [] ∧ ∀ fuel acc, c.toNat < fuel → chainWalk s fuel c acc = .next (str ++ acc) := by
  intro n
  induction n using Nat.strongRecOn with
  | _ n ih =>
    intro c hcn hlt
    by_cases hr : c.toNat < 256
    · refine ⟨[BitVec.ofNat 8 c.toNat], by simp, fun fuel acc hf => ?_⟩
      obtain ⟨f, rfl⟩ : ∃ f, fuel = f + 1 := ⟨fuel - 1, by omega⟩
      rw [chainWalk_root (h.entRead_root hr)]
      rfl
    · obtain ⟨p, b, he, hp⟩ := h.dynamic c (by simp only [Config.nRoot]; omega) hlt
      obtain ⟨str, _, h1⟩ := ih p.toNat (by omega) p rfl (by omega)
      refine ⟨str ++ [b], by simp, fun fuel acc hf => ?_⟩
      obtain ⟨f, rfl⟩ : ∃ f, fuel = f + 1 := ⟨fuel - 1, by omega⟩
      rw [chainWalk_dynamic he, h1 _ _ (by omega)]
      simp

theorem DictInv.reconstruct {s : State} (h : DictInv s) (c : Code) (hlt : c.toNat < s.nextCode.toNat) :
    ∃ str : List Byte, str ≠ [] ∧ dictReconstruct c s = .next str ∧
      ∀ fuel acc, c.toNat < fuel → chainWalk s fuel c acc = .next (str ++ acc) := by
  obtain ⟨str, h0, h1⟩ := h.chain _ c rfl hlt
  exact ⟨str, h0, by rw [dictReconstruct_eq hlt, h1 _ _ hlt]; simp, h1⟩

theorem DictInv.chain_extends {s t : State} (hd : DictInv s) (he : ∀ c x, s.entRead c = some x → t.entRead c = some x) :
    ∀ (n : Nat) (c : Code), c.toNat = n → c.toNat < s.nextCode.toNat → ∀ str : List Byte,
      (∀ fuel acc, c.toNat < fuel → chainWalk s fuel c acc = .next (str ++ acc)) →
      ∀ fuel acc, c.toNat < fuel → chainWalk t fuel c acc = .next (str ++ acc) := by
  intro n
  induction n using Nat.strongRecOn with
  | _ n ih =>
    intro c hcn hlt str hs fuel acc hf
    obtain ⟨f, rfl⟩ : ∃ f, fuel = f + 1 := ⟨fuel - 1, by omega⟩
    have h0 := hs (f + 1) acc hf
    by_cases hr : c.toNat < 256
    · rw [chainWalk_root (hd.entRead_root hr)] at h0
      rw [chainWalk_root (he _ _ (hd.entRead_root hr)), h0]
    · obtain ⟨p, b, hcp, hp⟩ := hd.dynamic c (by simp only [Config.nRoot]; omega) hlt
      rw [chainWalk_dynamic hcp] at h0
      rw [chainWalk_dynamic (he _ _ hcp)]
      obtain ⟨sp, _, h1⟩ := hd.chain _ p rfl (by omega)
      rw [ih p.toNat (by omega) p rfl (by omega) sp h1 f (b :: acc) (by omega)]
      rw [h1 _ _ (by omega)] at h0
      exact h0

/-- New entries leave every string as it was. -/
theorem DictInv.reconstruct_extends {s t : State} (hd : DictInv s)
    (he : ∀ c x, s.entRead c = some x → t.entRead c = some x) (hn : s.nextCode.toNat ≤ t.nextCode.toNat) {c : Code}
    {str : List Byte} (h : dictReconstruct c s = .next str) : dictReconstruct c t = .next str := by
  have hlt := (dictReconstruct_next h).1
  obtain ⟨str', _, h1, h2⟩ := hd.reconstruct c hlt
  rw [h] at h1
  cases h1
  rw [dictReconstruct_eq (by omega), hd.chain_extends he _ c rfl hlt str h2 _ _ (by omega)]
  simp

end Sys2Proof.Machine
end

