-- ==== Sys2Proof/Laws/Dispatch.lean ====
section
/-! SUPPORT. What a step does with a command word and with a status select, by the word alone: the dispatch of R105 over
the eight operations, and the frame of a status read. -/

namespace Sys2Proof.Machine

/-- The row the status selects does not matter to the effect: a word's rows share one meaning (log entry 8). -/
theorem exec_decodeCommand (st : Status) (w : CommandWord) (s : State) : exec (decodeCommand st w) s =
    match (opField w).toNat with
    | 0 => reservedCommand 0 (dataField w) s
    | 1 => startCommand 1 encStart (dataField w) s
    | 2 => startCommand 2 decStart (dataField w) s
    | 3 => dataCommand (dataField w) s
    | 4 => endCommand (dataField w) s
    | 5 => reservedCommand 5 (dataField w) s
    | 6 => reservedCommand 6 (dataField w) s
    | _ => reservedCommand 7 (dataField w) s := by
  unfold decodeCommand
  generalize (opField w).toNat = n
  rcases n with _|_|_|_|_|_|_|n <;> cases st <;> rfl

theorem step_of_command {s : State} {w : CommandWord} {rest : List Event} (h : s.input = .word (.cmd w) :: rest) :
    step s = exec (decodeCommand s.status w) (s.withInput rest) := by
  simp [step, fetch, h, decode, State.mode]

theorem step_of_select {s : State} {sel : BitVec 3} {rest : List Event} (h : s.input = .word (.rd sel) :: rest) :
    step s = exec (decodeSelect sel) (s.withInput rest) := by
  simp [step, fetch, h, decode]

theorem step_of_reset {s : State} {rest : List Event} (h : s.input = .reset :: rest) :
    step s = .next (s.withInput rest).hardwareReset := by
  simp [step, fetch, h]

/-- A status read changes the model's own `result` and `freeCount` at most. -/
theorem exec_decodeSelect (sel : BitVec 3) (s : State) :
    ∃ r f, exec (decodeSelect sel) s = .next { s with result := r, freeCount := f } := by
  unfold decodeSelect
  split <;> simp only [exec, execRdStatus, execRdErrcode, execRdErrinfo, execRdCodesize, execRdNextcode,
    execRdReserved5, execRdReserved6, execRdReserved7, progressRead]
  case h_4 => split <;> exact ⟨_, _, rfl⟩
  case h_5 => split <;> exact ⟨_, _, rfl⟩
  all_goals exact ⟨_, s.freeCount, rfl⟩

end Sys2Proof.Machine
end

