-- ==== Sys2Proof/Laws/Width.lean ====
section
/-! SUPPORT. The width of the next code as a function of `nextCode` (R33 I3, R57): its range, when a number fits in it,
and how it grows. -/

namespace Sys2Proof.Machine

theorem bitlen_le_iff {n w : Nat} (hn : n ≠ 0) : bitlen n ≤ w ↔ n < 2 ^ w := by
  unfold bitlen
  rw [Nat.succ_le_iff, Nat.log2_lt hn]

theorem widthFor_bounds (n : Nat) : 9 ≤ widthFor n ∧ widthFor n ≤ 20 := by
  simp only [widthFor, Config.maxBits, Config.initBits]
  omega

theorem widthFor_le_iff {n w : Nat} (hn : n ≠ 0) (h1 : 9 ≤ w) (h2 : w < 20) : widthFor n ≤ w ↔ n < 2 ^ w := by
  rw [← bitlen_le_iff hn]
  simp only [widthFor, Config.maxBits, Config.initBits]
  omega

/-- A number below 2^20 fits in its width. -/
theorem lt_two_pow_widthFor {n : Nat} (hn : n ≠ 0) (h : n < 2 ^ 20) : n < 2 ^ widthFor n := by
  have hb := widthFor_bounds n
  by_cases h20 : widthFor n = 20
  · rw [h20]; exact h
  · exact (widthFor_le_iff hn hb.1 (by omega)).1 le_rfl

/-- The width grows by one exactly when the number reaches `2^width` below the cap. -/
theorem widthFor_succ {n : Nat} (hn : n ≠ 0) (h : n < 2 ^ 20) :
    widthFor (n + 1) = if n + 1 = 2 ^ widthFor n ∧ widthFor n < 20 then widthFor n + 1 else widthFor n := by
  have hb := widthFor_bounds n
  have hb' := widthFor_bounds (n + 1)
  have hlt := lt_two_pow_widthFor hn h
  have mono : widthFor n ≤ widthFor (n + 1) := by
    by_cases h20 : widthFor (n + 1) = 20
    · omega
    · rw [widthFor_le_iff hn hb'.1 (by omega)]
      have := (widthFor_le_iff (n := n + 1) (by omega) hb'.1 (by omega)).1 le_rfl
      omega
  split_ifs with hc
  · have h1 : ¬ widthFor (n + 1) ≤ widthFor n := by
      rw [widthFor_le_iff (by omega) hb.1 hc.2]; omega
    by_cases h19 : widthFor n = 19
    · omega
    · have : widthFor (n + 1) ≤ widthFor n + 1 := by
        rw [widthFor_le_iff (by omega) (by omega) (by omega), pow_succ]; omega
      omega
  · by_cases h20 : widthFor n = 20
    · omega
    · have : widthFor (n + 1) ≤ widthFor n := by
        rw [widthFor_le_iff (by omega) hb.1 (by omega)]
        have : n + 1 ≠ 2 ^ widthFor n := fun e => hc ⟨e, by omega⟩
        omega
      omega

end Sys2Proof.Machine
end

