-- ==== Sys2Proof/Laws/Invariants.lean ====
section
/-! SUPPORT. Which fields the invariants depend on, and that a pass begins with its invariant. -/

namespace Sys2Proof.Machine

theorem EncInv.congr {s t : State} (h : EncInv s) (h1 : t.ent = s.ent) (h2 : t.lk = s.lk)
    (h3 : t.nextCode = s.nextCode) (h4 : t.prefixCode = s.prefixCode) (h5 : t.codeSize = s.codeSize)
    (h6 : t.pendingBits = s.pendingBits) (h7 : t.pendingCount = s.pendingCount) : EncInv t := by
  obtain ⟨a, b, c, d, e, f⟩ := h
  refine ⟨a.congr h1 h2 h3, ?_, by rw [h4, h3]; exact c, by rw [h5, h3]; exact d, by rw [h7]; exact e,
    by unfold State.pendingClean; rw [h6, h7]; exact f⟩
  intro p q r
  rw [State.lkRead_congr h2, State.entRead_congr h1 h3]
  exact b p q r

theorem DecInv.congr {s t : State} (h : DecInv s) (h1 : t.ent = s.ent) (h2 : t.lk = s.lk)
    (h3 : t.nextCode = s.nextCode) (h4 : t.oldCode = s.oldCode) (h4' : t.oldString = s.oldString)
    (h5 : t.codeSize = s.codeSize) (h6 : t.pendingBits = s.pendingBits) (h7 : t.pendingCount = s.pendingCount) :
    DecInv t := by
  obtain ⟨a, b, c, d, e, f⟩ := h
  refine ⟨a.congr h1 h2 h3, by rw [h4, h4', h3]; exact b, ?_, by rw [h5, h3]; exact d, by rw [h7, h5]; exact e,
    by unfold State.pendingClean; rw [h6, h7]; exact f⟩
  rw [h4, h4', h3]
  intro x hx
  exact ⟨(c x hx).1, a.reconstruct_extends (fun c x hx => by rw [State.entRead_congr h1 h3]; exact hx) (by rw [h3])
    (c x hx).2⟩

/-- The dictionary with the roots alone. -/
theorem dictInv_of_nil {t : State} (h1 : t.ent = []) (h2 : t.lk = []) (h3 : t.nextCode = 256) : DictInv t := by
  have e : t.nextCode.toNat = 256 := by rw [h3]; rfl
  refine ⟨State.canonical_of_nil h1 h2, by rw [e], by rw [e]; norm_num [Config.maxBits], by rw [h1]; simp, ?_⟩
  intro c a b
  simp only [Config.nRoot] at a
  omega

theorem encStart_inv (s : State) : EncInv (encStart s) := by
  refine ⟨dictInv_of_nil rfl rfl rfl, ?_, by simp [encStart], ?_, by simp [encStart, bpInit, State.setPending],
    by simp [encStart, State.pendingClean, bpInit, State.setPending]⟩
  · intro p b c
    rw [entRead_of_nil rfl rfl]
    cases p with
    | none =>
      rw [lkRead_none_of_nil rfl]
      have hb := b.isLt
      constructor
      · intro h
        cases h
        have : b.toNat % 1048576 = b.toNat := Nat.mod_eq_of_lt (by omega)
        simp [this]
        omega
      · intro h
        split at h
        · next hc =>
          simp at h
          subst h
          congr 1
          apply BitVec.eq_of_toNat_eq
          simp
          omega
        · cases h
    | some p =>
      rw [lkRead_some_of_nil rfl]
      constructor
      · intro h; cases h
      · intro h; split at h <;> simp at h
  · show (9 : BitVec 5).toNat = widthFor 256
    decide

theorem decStart_inv (s : State) : DecInv (decStart s) := by
  refine ⟨dictInv_of_nil rfl rfl rfl, fun _ => ⟨rfl, rfl⟩, by simp [decStart], ?_, ?_,
    by simp [decStart, State.pendingClean, bpInit, State.setPending]⟩
  · show (9 : BitVec 5).toNat = widthFor 257
    decide
  · show (0 : BitVec 5).toNat < (9 : BitVec 5).toNat
    decide

end Sys2Proof.Machine
end

