-- ==== Sys2Proof/Laws/PerInstr.lean ====
section
/-! SUPPORT. The family FixedBits, one lemma per constructor: the bits the opcode table fixes for the instruction's row
stand in its encoding where the table puts them. -/

namespace Sys2Proof

/-- The fixed bits of an instruction's row: `op` of a command word (R62), the select of a status read (R64), the
identifier of a micro-operation (R67); a code has none (R55). -/
def Instr.fixedBits : Instr → Nat
  | .encStart _ => 1
  | .decStart _ => 2
  | .dataEncByte _ => 3
  | .dataDecByte _ => 3
  | .dataOutside _ => 3
  | .endEncEnd _ => 4
  | .endDecEnd _ => 4
  | .endOutside _ => 4
  | .reserved0 _ => 0
  | .reserved5 _ => 5
  | .reserved6 _ => 6
  | .reserved7 _ => 7
  | .decCodeFirst _ => 0
  | .decCodeKwkwk _ => 0
  | .decCodeLookup _ => 0
  | .decCodeInvalid _ => 0
  | .dictInit => 0
  | .dictAppend _ _ _ => 1
  | .dictLookup _ _ => 2
  | .dictReconstruct _ => 3
  | .bpInit => 4
  | .bpWrite _ _ => 5
  | .bpFeed _ => 6
  | .bpRead _ => 7
  | .bpFlush => 8
  | .rdStatus => 0
  | .rdErrcode => 1
  | .rdErrinfo => 2
  | .rdCodesize => 3
  | .rdNextcode => 4
  | .rdReserved5 => 5
  | .rdReserved6 => 6
  | .rdReserved7 => 7

/-- The row's fixed bits are those of the instruction's word; `op` stands above the 8 bits of `data`. -/
def Laws.FixedBits.Statement (i : Instr) : Prop :=
  match encode i with
  | .cmd w => w.toNat / 256 = i.fixedBits
  | .rd sel => sel.toNat = i.fixedBits
  | .code _ => i.fixedBits = 0
  | .micro u _ => u.toNat = i.fixedBits

theorem Laws.FixedBits.ofCommandWord (op : BitVec 3) (d : Byte) : (commandWord op d).toNat / 256 = op.toNat := by
  have := d.isLt
  rw [Machine.commandWord_toNat]
  omega

theorem Laws.FixedBits.encStart (d : Byte) : Laws.FixedBits.Statement (.encStart d) :=
  Laws.FixedBits.ofCommandWord 1 d

theorem Laws.FixedBits.decStart (d : Byte) : Laws.FixedBits.Statement (.decStart d) :=
  Laws.FixedBits.ofCommandWord 2 d

theorem Laws.FixedBits.dataEncByte (b : Byte) : Laws.FixedBits.Statement (.dataEncByte b) :=
  Laws.FixedBits.ofCommandWord 3 b

theorem Laws.FixedBits.dataDecByte (b : Byte) : Laws.FixedBits.Statement (.dataDecByte b) :=
  Laws.FixedBits.ofCommandWord 3 b

theorem Laws.FixedBits.dataOutside (b : Byte) : Laws.FixedBits.Statement (.dataOutside b) :=
  Laws.FixedBits.ofCommandWord 3 b

theorem Laws.FixedBits.endEncEnd (d : Byte) : Laws.FixedBits.Statement (.endEncEnd d) :=
  Laws.FixedBits.ofCommandWord 4 d

theorem Laws.FixedBits.endDecEnd (d : Byte) : Laws.FixedBits.Statement (.endDecEnd d) :=
  Laws.FixedBits.ofCommandWord 4 d

theorem Laws.FixedBits.endOutside (d : Byte) : Laws.FixedBits.Statement (.endOutside d) :=
  Laws.FixedBits.ofCommandWord 4 d

theorem Laws.FixedBits.reserved0 (d : Byte) : Laws.FixedBits.Statement (.reserved0 d) :=
  Laws.FixedBits.ofCommandWord 0 d

theorem Laws.FixedBits.reserved5 (d : Byte) : Laws.FixedBits.Statement (.reserved5 d) :=
  Laws.FixedBits.ofCommandWord 5 d

theorem Laws.FixedBits.reserved6 (d : Byte) : Laws.FixedBits.Statement (.reserved6 d) :=
  Laws.FixedBits.ofCommandWord 6 d

theorem Laws.FixedBits.reserved7 (d : Byte) : Laws.FixedBits.Statement (.reserved7 d) :=
  Laws.FixedBits.ofCommandWord 7 d

theorem Laws.FixedBits.decCodeFirst (c : Code) : Laws.FixedBits.Statement (.decCodeFirst c) := rfl

theorem Laws.FixedBits.decCodeKwkwk (c : Code) : Laws.FixedBits.Statement (.decCodeKwkwk c) := rfl

theorem Laws.FixedBits.decCodeLookup (c : Code) : Laws.FixedBits.Statement (.decCodeLookup c) := rfl

theorem Laws.FixedBits.decCodeInvalid (c : Code) : Laws.FixedBits.Statement (.decCodeInvalid c) := rfl

theorem Laws.FixedBits.dictInit : Laws.FixedBits.Statement .dictInit := rfl

theorem Laws.FixedBits.dictAppend (p : CodeOrNone) (b : Byte) (l : Bool) : Laws.FixedBits.Statement (.dictAppend p b l) := rfl

theorem Laws.FixedBits.dictLookup (p : CodeOrNone) (b : Byte) : Laws.FixedBits.Statement (.dictLookup p b) := rfl

theorem Laws.FixedBits.dictReconstruct (c : Code) : Laws.FixedBits.Statement (.dictReconstruct c) := rfl

theorem Laws.FixedBits.bpInit : Laws.FixedBits.Statement .bpInit := rfl

theorem Laws.FixedBits.bpWrite (c : Code) (w : BitVec 5) : Laws.FixedBits.Statement (.bpWrite c w) := rfl

theorem Laws.FixedBits.bpFeed (b : Byte) : Laws.FixedBits.Statement (.bpFeed b) := rfl

theorem Laws.FixedBits.bpRead (w : BitVec 5) : Laws.FixedBits.Statement (.bpRead w) := rfl

theorem Laws.FixedBits.bpFlush : Laws.FixedBits.Statement .bpFlush := rfl

theorem Laws.FixedBits.rdStatus : Laws.FixedBits.Statement .rdStatus := rfl

theorem Laws.FixedBits.rdErrcode : Laws.FixedBits.Statement .rdErrcode := rfl

theorem Laws.FixedBits.rdErrinfo : Laws.FixedBits.Statement .rdErrinfo := rfl

theorem Laws.FixedBits.rdCodesize : Laws.FixedBits.Statement .rdCodesize := rfl

theorem Laws.FixedBits.rdNextcode : Laws.FixedBits.Statement .rdNextcode := rfl

theorem Laws.FixedBits.rdReserved5 : Laws.FixedBits.Statement .rdReserved5 := rfl

theorem Laws.FixedBits.rdReserved6 : Laws.FixedBits.Statement .rdReserved6 := rfl

theorem Laws.FixedBits.rdReserved7 : Laws.FixedBits.Statement .rdReserved7 := rfl

end Sys2Proof
end

