-- ==== Sys2Proof/Laws/Witness.lean ====
section
/-! SUPPORT. States with a dictionary of any size that keep the invariants, for the tests that show hypotheses met: the
entry `256 + k` is `(Some k, 0)`. -/

namespace Sys2Proof.Machine

/-- The entries 256 to 255 + n, each the code 256 less followed by the byte 0. -/
def filledEnt (n : Nat) : Memory Entry :=
  (List.range n).map fun k => (256 + k, { pfx := some (BitVec.ofNat 20 k), byte := 0 })

/-- The same pairs as the index of an encode pass: the key of `(Some k, 0)` is `256 * k`. -/
def filledLk (n : Nat) : Memory Code := (List.range n).map fun k => (256 * k, BitVec.ofNat 20 (256 + k))

/-- An encode pass with `n` dynamic entries, the match at code 0, `count` zero bits pending. -/
def filledEnc (n count : Nat) : State :=
  { State.reset with
    status := .enc, started := true, codeSize := BitVec.ofNat 5 (widthFor (256 + n)),
    nextCode := BitVec.ofNat 21 (256 + n), prefixCode := some 0, pendingCount := BitVec.ofNat 5 count,
    ent := filledEnt n, lk := filledLk n }

/-- A decode pass with `n` dynamic entries, the last code 0, `count` zero bits pending. -/
def filledDec (n count : Nat) : State :=
  { State.reset with
    status := .dec, started := true, codeSize := BitVec.ofNat 5 (widthFor (256 + n + 1)),
    nextCode := BitVec.ofNat 21 (256 + n), oldCode := some 0, oldString := [0],
    pendingCount := BitVec.ofNat 5 count, ent := filledEnt n }

theorem memFind_map_range {α : Type} (g : Nat → Nat) (v : Nat → α) :
    ∀ (n a : Nat), memFind ((List.range n).map fun k => (g k, v k)) a = ((List.range n).find? fun k => g k = a).map v := by
  intro n a
  generalize List.range n = l
  induction l with
  | nil => rfl
  | cons k l ih =>
    simp only [List.map_cons, memFind, List.find?_cons]
    by_cases h : g k = a
    · simp [h]
    · simp [h, ih]

theorem find_range_some {g : Nat → Nat} (hg : ∀ i j, i < j → g i < g j) {n k : Nat} (hk : k < n) :
    (List.range n).find? (fun i => g i = g k) = some k := by
  rw [List.find?_range_eq_some]
  refine ⟨by simp, by simpa using hk, fun j hj => ?_⟩
  have := hg j k hj
  simp
  omega

theorem filledEnt_read (n k : Nat) (hk : k < n) :
    memFind (filledEnt n) (256 + k) = some { pfx := some (BitVec.ofNat 20 k), byte := 0 } := by
  unfold filledEnt
  rw [memFind_map_range (fun k => 256 + k) _,
    find_range_some (g := fun k => 256 + k) (by intro i j h; simp; omega) hk]
  rfl

theorem filledLk_read (n k : Nat) (hk : k < n) :
    memFind (filledLk n) (256 * k) = some (BitVec.ofNat 20 (256 + k)) := by
  unfold filledLk
  rw [memFind_map_range (fun k => 256 * k) _,
    find_range_some (g := fun k => 256 * k) (by intro i j h; simp; omega) hk]
  rfl

theorem filledLk_none (n a : Nat) (h : ∀ k, k < n → 256 * k ≠ a) : memFind (filledLk n) a = none := by
  unfold filledLk
  rw [memFind_map_range (fun k => 256 * k) _, Option.map_eq_none_iff, List.find?_eq_none]
  intro k hk
  simpa using h k (List.mem_range.1 hk)

theorem filledEnt_wf (n : Nat) : Memory.wf entUnlisted (filledEnt n) := by
  refine ⟨?_, ?_⟩
  · unfold filledEnt
    rw [List.pairwise_map]
    exact List.pairwise_lt_range.imp fun h => by simpa using h
  · intro x hx
    obtain ⟨k, _, rfl⟩ := List.mem_map.1 hx
    simp [entUnlisted, Config.nRoot]

theorem filledLk_wf (n : Nat) (hn : n ≤ 1048320) : Memory.wf lkUnlisted (filledLk n) := by
  refine ⟨?_, ?_⟩
  · unfold filledLk
    rw [List.pairwise_map]
    exact List.pairwise_lt_range.imp fun h => by simpa using h
  · intro x hx
    obtain ⟨k, hk, rfl⟩ := List.mem_map.1 hx
    have := List.mem_range.1 hk
    unfold lkUnlisted
    rw [if_neg (by simp only; omega)]
    simp

theorem filled_dictInv {s : State} {n : Nat} (hn : n ≤ 1048320) (h1 : s.ent = filledEnt n)
    (h2 : Memory.wf lkUnlisted s.lk) (h3 : s.nextCode = BitVec.ofNat 21 (256 + n)) : DictInv s := by
  have e : s.nextCode.toNat = 256 + n := by rw [h3, BitVec.toNat_ofNat]; omega
  refine ⟨⟨by rw [h1]; exact filledEnt_wf n, h2⟩, by rw [e]; simp only [Config.firstCode]; omega,
    by rw [e]; simp only [Config.maxBits]; omega, ?_, ?_⟩
  · rw [h1, e]
    intro x hx
    obtain ⟨k, hk, rfl⟩ := List.mem_map.1 hx
    have := List.mem_range.1 hk
    simp only [Config.nRoot]
    omega
  · intro c hc1 hc2
    simp only [Config.nRoot] at hc1
    rw [e] at hc2
    refine ⟨BitVec.ofNat 20 (c.toNat - 256), 0, ?_, ?_⟩
    · rw [State.entRead_of_lt (by omega), h1, memRead]
      have := filledEnt_read n (c.toNat - 256) (by omega)
      rw [show 256 + (c.toNat - 256) = c.toNat by omega] at this
      rw [this]
    · have := c.isLt
      rw [BitVec.toNat_ofNat]
      omega

theorem filledEnc_inv (n count : Nat) (hn : n ≤ 1048320) (hc : count ≤ 7) : EncInv (filledEnc n count) := by
  have hd : DictInv (filledEnc n count) := filled_dictInv hn rfl (filledLk_wf n hn) rfl
  have e : (filledEnc n count).nextCode.toNat = 256 + n := by simp [filledEnc]; omega
  have hw := widthFor_bounds (256 + n)
  refine ⟨hd, ?_, ?_, ?_, ?_, Nat.two_pow_pos _⟩
  · have root : ∀ b : Byte, (filledEnc n count).lkRead none b = some (rootCode b) := by
      intro b
      unfold State.lkRead memRead
      have hb := b.isLt
      have : memFind (filledEnc n count).lk (lkAddress none b) = none :=
        filledLk_none n _ fun k hk => by simp; omega
      rw [this, lkUnlisted_none]
    intro p b c
    constructor
    · intro h
      cases p with
      | none =>
        rw [root b] at h
        cases h
        have hb := b.isLt
        rw [hd.entRead_root (by rw [rootCode_toNat]; omega), rootCode_toNat]
        simp
      | some p =>
        unfold State.lkRead memRead at h
        split at h
        · next v hv =>
          cases h
          obtain ⟨k, hk, hx⟩ := List.mem_map.1 (mem_of_memFind hv)
          have hk := List.mem_range.1 hk
          simp only [Prod.mk.injEq] at hx
          obtain ⟨hx1, rfl⟩ := hx
          have hp : p = BitVec.ofNat 20 k ∧ b = 0 := by
            have hb := b.isLt
            have hpl := p.isLt
            simp only [lkAddress_some] at hx1
            refine ⟨BitVec.eq_of_toNat_eq ?_, BitVec.eq_of_toNat_eq ?_⟩
            · rw [BitVec.toNat_ofNat]; omega
            · show b.toNat = 0; omega
          obtain ⟨rfl, rfl⟩ := hp
          have hcn : (BitVec.ofNat 20 (256 + k) : Code).toNat = 256 + k := by rw [BitVec.toNat_ofNat]; omega
          rw [State.entRead_of_lt (by omega), hcn, memRead]
          rw [show memFind (filledEnc n count).ent (256 + k) = _ from filledEnt_read n k hk]
        · rw [lkUnlisted_some] at h; cases h
    · intro h
      have hlt := State.entRead_lt h
      rw [e] at hlt
      by_cases hr : c.toNat < 256
      · rw [hd.entRead_root hr] at h
        simp at h
        obtain ⟨rfl, rfl⟩ := h
        rw [root]
        congr 1
        apply BitVec.eq_of_toNat_eq
        rw [rootCode_toNat, BitVec.toNat_setWidth]
        omega
      · have hf := filledEnt_read n (c.toNat - 256) (by omega)
        rw [show 256 + (c.toNat - 256) = c.toNat by omega] at hf
        rw [State.entRead_of_lt (by omega), memRead,
          show memFind (filledEnc n count).ent c.toNat = _ from hf] at h
        simp at h
        obtain ⟨rfl, rfl⟩ := h
        unfold State.lkRead memRead
        have hk : lkAddress (some (BitVec.ofNat 20 (c.toNat - 256))) (0#8) = 256 * (c.toNat - 256) := by
          have := c.isLt
          simp only [lkAddress_some, BitVec.toNat_ofNat]
          omega
        rw [hk, show memFind (filledEnc n count).lk _ = _ from filledLk_read n (c.toNat - 256) (by omega)]
        simp only [Option.some.injEq]
        apply BitVec.eq_of_toNat_eq
        have := c.isLt
        rw [BitVec.toNat_ofNat]
        omega
  · intro p hp
    cases hp
    rw [e]
    show 0 < 256 + n
    omega
  · rw [e]
    show (BitVec.ofNat 5 (widthFor (256 + n))).toNat = _
    rw [BitVec.toNat_ofNat]
    omega
  · show (BitVec.ofNat 5 count).toNat < 8
    rw [BitVec.toNat_ofNat]
    omega

/-- The pair `(Some 0, 1)` is in no filled dictionary, so a byte 1 is a miss there. -/
theorem filledEnc_miss (n count : Nat) : (filledEnc n count).lkRead (filledEnc n count).prefixCode 1 = none := by
  unfold State.lkRead memRead
  have hk : lkAddress (filledEnc n count).prefixCode 1 = 1 := by
    show lkAddress (some 0) 1 = 1
    simp
  rw [hk, show memFind (filledEnc n count).lk 1 = none from filledLk_none n 1 fun k _ => by omega]
  decide

/-- The pair `(Some 0, 0)` is the entry 256, so a byte 0 is a hit once that entry exists. -/
theorem filledEnc_hit (n count : Nat) (hn : 0 < n) :
    (filledEnc n count).lkRead (filledEnc n count).prefixCode 0 = some 256 := by
  unfold State.lkRead memRead
  have hk : lkAddress (filledEnc n count).prefixCode 0 = 256 * 0 := by
    show lkAddress (some 0) 0 = 256 * 0
    simp
  rw [hk, show memFind (filledEnc n count).lk (256 * 0) = _ from filledLk_read n 0 hn]
  rfl

theorem filledDec_inv (n count : Nat) (hn : n ≤ 1048320) (hc : count < widthFor (256 + n + 1)) :
    DecInv (filledDec n count) := by
  have hd : DictInv (filledDec n count) :=
    filled_dictInv hn rfl ⟨List.Pairwise.nil, by intro x hx; cases hx⟩ rfl
  have e : (filledDec n count).nextCode.toNat = 256 + n := by simp [filledDec]; omega
  have hw := widthFor_bounds (256 + n + 1)
  have hs : (filledDec n count).codeSize.toNat = widthFor (256 + n + 1) := by
    show (BitVec.ofNat 5 (widthFor (256 + n + 1))).toNat = _
    rw [BitVec.toNat_ofNat]
    omega
  refine ⟨hd, fun h => (by cases h), ?_, (by rw [hs, e]), ?_, Nat.two_pow_pos _⟩
  · intro c hcode
    cases hcode
    have hlt : (0 : Code).toNat < (filledDec n count).nextCode.toNat := by rw [e]; show 0 < 256 + n; omega
    refine ⟨hlt, ?_⟩
    rw [dictReconstruct_eq hlt, e, show 256 + n = 255 + n + 1 by omega,
      chainWalk_root (hd.entRead_root (c := 0) (by decide))]
    rfl
  · rw [hs]
    show (BitVec.ofNat 5 count).toNat < _
    rw [BitVec.toNat_ofNat]
    omega

/-- With a host's events waiting, a filled encode pass keeps the whole invariant. -/
theorem filledEnc_whole (n count : Nat) (hn : n ≤ 1048320) (hc : count ≤ 7) (l : List Event)
    (hl : ∀ e ∈ l, e.isHost = true) : Inv ((filledEnc n count).withInput l) := by
  have h := filledEnc_inv n count hn hc
  have hs : 9 ≤ (filledEnc n count).codeSize.toNat ∧ (filledEnc n count).codeSize.toNat ≤ 20 := by
    rw [h.width]; exact widthFor_bounds _
  refine ⟨h.dict.canon, ⟨?_, ?_, ?_, ?_, fun _ => hs, fun _ => ⟨h.dict.low, h.dict.high⟩⟩,
    fun _ => h.congr rfl rfl rfl rfl rfl rfl rfl, ?_, hl⟩ <;> simp [filledEnc, State.reset]

/-- With a host's events waiting, a filled decode pass keeps the whole invariant. -/
theorem filledDec_whole (n count : Nat) (hn : n ≤ 1048320) (hc : count < widthFor (256 + n + 1)) (l : List Event)
    (hl : ∀ e ∈ l, e.isHost = true) : Inv ((filledDec n count).withInput l) := by
  have h := filledDec_inv n count hn hc
  have hs : 9 ≤ (filledDec n count).codeSize.toNat ∧ (filledDec n count).codeSize.toNat ≤ 20 := by
    rw [h.width]; exact widthFor_bounds _
  refine ⟨h.dict.canon, ⟨?_, ?_, ?_, ?_, fun _ => hs, fun _ => ⟨h.dict.low, h.dict.high⟩⟩, ?_,
    fun _ => h.congr rfl rfl rfl rfl rfl rfl rfl rfl, hl⟩ <;> simp [filledDec, State.reset]

end Sys2Proof.Machine
end

