-- ==== Sys2Proof/Tests/Slice0.lean ====
section
/-! SUPPORT. The model's own tests: the checks of WellFormed refuse, words written out from the tables of
spec/30_encoding.md decode, single steps give what spec/95_test_vectors.md lists (the vector's number stands beside each),
and every statement's hypotheses are met by some state and operands. -/

namespace Sys2Proof.Machine

/-! WellFormed: each check refuses an ill-formed term. -/

theorem test_wellFormed_refuses_first : (Instr.decCodeFirst 256).wellFormed = false := by decide
theorem test_wellFormed_refuses_kwkwk : (Instr.decCodeKwkwk 255).wellFormed = false := by decide
theorem test_wellFormed_refuses_invalid : (Instr.decCodeInvalid 255).wellFormed = false := by decide
theorem test_wellFormed_refuses_append : (Instr.dictAppend none 7 true).wellFormed = false := by decide
theorem test_wellFormed_refuses_write :
    (Instr.bpWrite 5 0).wellFormed = false ∧ (Instr.bpWrite 5 21).wellFormed = false := by decide
theorem test_wellFormed_refuses_read :
    (Instr.bpRead 0).wellFormed = false ∧ (Instr.bpRead 21).wellFormed = false := by decide
theorem test_wellFormed_accepts :
    (Instr.bpWrite 5 20).wellFormed = true ∧ (Instr.bpRead 1).wellFormed = true ∧
    (Instr.dictAppend (some 65) 7 true).wellFormed = true ∧ (Instr.decCodeKwkwk 256).wellFormed = true := by decide

/-! Decoding: words written out bit by bit. -/

/-- The mode with a status and no code yet. -/
def modeOf (st : Status) : Mode := { status := st, oldCode := none, nextCode := 256 }

/-- The mode of a decode pass whose last code was 65. -/
def modeAfter65 : Mode := { status := .dec, oldCode := some 65, nextCode := 256 }

-- R62: op in bits 10..8, data in bits 7..0
theorem test_decode_encStart : decode (modeOf .idle) (.cmd 0b00100000000#11) = .ok (.encStart 0x00) := by decide
theorem test_decode_encStart_data : decode (modeOf .dec) (.cmd 0b00110101011#11) = .ok (.encStart 0xAB) := by decide
theorem test_decode_decStart : decode (modeOf .done) (.cmd 0b01000000000#11) = .ok (.decStart 0x00) := by decide
theorem test_decode_dataEncByte : decode (modeOf .enc) (.cmd 0b01101000001#11) = .ok (.dataEncByte 0x41) := by decide
theorem test_decode_dataDecByte : decode (modeOf .dec) (.cmd 0b01110000100#11) = .ok (.dataDecByte 0x84) := by decide
theorem test_decode_dataOutside : decode (modeOf .done) (.cmd 0b01101000001#11) = .ok (.dataOutside 0x41) := by decide
theorem test_decode_endEncEnd : decode (modeOf .enc) (.cmd 0b10000000000#11) = .ok (.endEncEnd 0x00) := by decide
theorem test_decode_endDecEnd : decode (modeOf .dec) (.cmd 0b10000000000#11) = .ok (.endDecEnd 0x00) := by decide
theorem test_decode_endOutside : decode (modeOf .idle) (.cmd 0b10000000001#11) = .ok (.endOutside 0x01) := by decide
theorem test_decode_reserved0 : decode (modeOf .idle) (.cmd 0b00000000000#11) = .ok (.reserved0 0x00) := by decide
theorem test_decode_reserved5 : decode (modeOf .enc) (.cmd 0b10111111111#11) = .ok (.reserved5 0xFF) := by decide
theorem test_decode_reserved6 : decode (modeOf .idle) (.cmd 0b11000000000#11) = .ok (.reserved6 0x00) := by decide
theorem test_decode_reserved7 : decode (modeOf .idle) (.cmd 0b11111111111#11) = .ok (.reserved7 0xFF) := by decide
-- R94: a code by value, before DEC_UPDATE
theorem test_decode_first : decode (modeOf .dec) (.code 0b00000000000011111111#20) = .ok (.decCodeFirst 255) := by decide
theorem test_decode_first_invalid :
    decode (modeOf .dec) (.code 0b00000000000100000000#20) = .ok (.decCodeInvalid 256) := by decide
theorem test_decode_lookup : decode modeAfter65 (.code 0b00000000000011111111#20) = .ok (.decCodeLookup 255) := by decide
theorem test_decode_kwkwk : decode modeAfter65 (.code 0b00000000000100000000#20) = .ok (.decCodeKwkwk 256) := by decide
theorem test_decode_invalid : decode modeAfter65 (.code 0b00000000000100000001#20) = .ok (.decCodeInvalid 257) := by decide
-- R67: identifiers 0 to 8, operands beside them; R60: bit 20 of a CodeOrNone is `none`
theorem test_decode_dictInit : decode (modeOf .idle) (.micro 0b0000#4 .nothing) = .ok .dictInit := by decide
theorem test_decode_dictAppend :
    decode (modeOf .idle) (.micro 0b0001#4 (.append 0b000000000000001000001#21 0x42 true))
      = .ok (.dictAppend (some 65) 0x42 true) := by decide
theorem test_decode_dictLookup :
    decode (modeOf .idle) (.micro 0b0010#4 (.key 0b100000000000000000000#21 0x42)) = .ok (.dictLookup none 0x42) := by
  decide
theorem test_decode_dictReconstruct :
    decode (modeOf .idle) (.micro 0b0011#4 (.code 258)) = .ok (.dictReconstruct 258) := by decide
theorem test_decode_bpInit : decode (modeOf .idle) (.micro 0b0100#4 .nothing) = .ok .bpInit := by decide
theorem test_decode_bpWrite :
    decode (modeOf .idle) (.micro 0b0101#4 (.codeWidth 65 9)) = .ok (.bpWrite 65 9) := by decide
theorem test_decode_bpFeed : decode (modeOf .idle) (.micro 0b0110#4 (.byte 0x41)) = .ok (.bpFeed 0x41) := by decide
theorem test_decode_bpRead : decode (modeOf .idle) (.micro 0b0111#4 (.width 9)) = .ok (.bpRead 9) := by decide
theorem test_decode_bpFlush : decode (modeOf .idle) (.micro 0b1000#4 .nothing) = .ok .bpFlush := by decide
theorem test_decode_unused :
    decode (modeOf .idle) (.micro 0b1001#4 .nothing) = .error (.unusedMicroOp 9) ∧
    decode (modeOf .idle) (.micro 0b1111#4 .nothing) = .error (.unusedMicroOp 15) := by decide
theorem test_decode_refuses_pattern :
    decode (modeOf .idle) (.micro 0b0010#4 (.key 0b100000000000000000001#21 0x42))
      = .error (.codeOrNonePattern 0b100000000000000000001#21) := by decide
theorem test_decode_refuses_shape :
    decode (modeOf .idle) (.micro 0b0000#4 (.byte 1)) = .error (.operandShape 0) := by decide
-- R64: selects 0 to 7
theorem test_decode_rdStatus : decode (modeOf .idle) (.rd 0b000#3) = .ok .rdStatus := by decide
theorem test_decode_rdErrcode : decode (modeOf .idle) (.rd 0b001#3) = .ok .rdErrcode := by decide
theorem test_decode_rdErrinfo : decode (modeOf .idle) (.rd 0b010#3) = .ok .rdErrinfo := by decide
theorem test_decode_rdCodesize : decode (modeOf .idle) (.rd 0b011#3) = .ok .rdCodesize := by decide
theorem test_decode_rdNextcode : decode (modeOf .idle) (.rd 0b100#3) = .ok .rdNextcode := by decide
theorem test_decode_rdReserved :
    decode (modeOf .idle) (.rd 0b101#3) = .ok .rdReserved5 ∧ decode (modeOf .idle) (.rd 0b110#3) = .ok .rdReserved6 ∧
    decode (modeOf .idle) (.rd 0b111#3) = .ok .rdReserved7 := by decide
-- the formats of V9 and V10
theorem test_entryBits :
    entryBits { pfx := none, byte := 0x41 } = 0x10000041#29 ∧
    entryBits { pfx := some 65, byte := 0x42 } = 0x00004142#29 ∧
    entryBits { pfx := some 256, byte := 0x41 } = 0x00010041#29 := by decide

/-! Single steps. -/

/-- What a field of the next state is. -/
def after {α : Type} (a : Answer State) (f : State → α) : Option α :=
  match a with
  | .next s => some (f s)
  | .fault _ => none
  | .refused _ => none

/-- A state of an encode pass: the match, the next code, the pending bits and their number, the dictionary. -/
def encAt (p : CodeOrNone) (n bits count : Nat) (ent : Memory Entry) (lk : Memory Code) : State :=
  { encStart State.reset with
    prefixCode := p, nextCode := BitVec.ofNat 21 n, pendingBits := bits, pendingCount := BitVec.ofNat 5 count,
    ent := ent, lk := lk }

/-- A state of a decode pass: the last code and its string, the next code, the pending bits, their number, ENT. -/
def decAt (o : CodeOrNone) (str : List Byte) (n bits count : Nat) (ent : Memory Entry) : State :=
  { decStart State.reset with
    oldCode := o, oldString := str, nextCode := BitVec.ofNat 21 n, pendingBits := bits,
    pendingCount := BitVec.ofNat 5 count, ent := ent }

/-- The entries of V10's end state. -/
def entV10 : Memory Entry :=
  [(256, { pfx := some 65, byte := 0x42 }), (257, { pfx := some 66, byte := 0x41 }),
   (258, { pfx := some 256, byte := 0x41 })]

/-- V10's end state. -/
def stateV10 : State :=
  { encAt none 259 0 0 entV10 [] with
    lk := memWrite lkUnlisted (memWrite lkUnlisted (memWrite lkUnlisted [] (lkAddress (some 65) 0x42) 256)
      (lkAddress (some 66) 0x41) 257) (lkAddress (some 256) 0x41) 258 }

-- V14, row 0; V30, `200 1AB`
theorem test_encStart :
    after (exec (.encStart 0) State.reset) (fun s => (s.status, s.codeSize, s.nextCode, s.prefixCode, s.pendingCount))
      = some (.enc, 9, 256, none, 0) := by decide
theorem test_encStart_misplaced :
    after (exec (.encStart 0xAB) (decStart State.reset)) (fun s => (s.status, s.errcode, s.errinfo))
      = some (.err, .protocol, 0x001AB) := by decide
-- V21, row 0; V30, `100 341 200`
theorem test_decStart :
    after (exec (.decStart 0) State.reset) (fun s => (s.status, s.codeSize, s.nextCode, s.oldCode, s.pendingCount))
      = some (.dec, 9, 256, none, 0) := by decide
theorem test_decStart_misplaced :
    after (exec (.decStart 0) (encAt (some 65) 256 0 0 [] [])) (fun s => (s.status, s.errcode, s.errinfo, s.out))
      = some (.err, .protocol, 0x00200, []) := by decide
-- V14, row 2; V24, row 257
theorem test_dataEncByte_miss :
    after (exec (.dataEncByte 0x42) (encAt (some 65) 256 0 0 [] []))
      (fun s => (s.out, s.prefixCode, s.pendingCount, s.ent, s.lkRead (some 65) 0x42))
      = some ([0x41], some 66, 1, [(256, { pfx := some 65, byte := 0x42 })], some 256) := by rfl
theorem test_dataEncByte_grows :
    after (exec (.dataEncByte 0x00) (encAt (some 255) 511 0x3F 7 [] []))
      (fun s => (s.out, s.prefixCode, s.nextCode, s.codeSize, s.pendingBits, s.pendingCount))
      = some ([0xBF, 0x7F], some 0, 512, 10, 0, 0) := by decide
-- V21, rows 2 and 5
theorem test_dataDecByte_first :
    after (exec (.dataDecByte 0x84) (decAt none [] 256 0x41 8 []))
      (fun s => (s.out, s.oldCode, s.nextCode, s.pendingBits, s.pendingCount))
      = some ([0x41], some 65, 256, 0x42, 7) := by decide
theorem test_dataDecByte_kwkwk :
    after (exec (.dataDecByte 0x28) (decAt (some 256) [0x41, 0x42] 258 0x2 5 (entV10.take 2)))
      (fun s => (s.out, s.oldCode, s.pendingBits, s.pendingCount, s.ent))
      = some ([0x41, 0x42, 0x41], some 258, 0x2, 4, entV10) := by rfl
-- V30, `341` and `100 400 341`
theorem test_dataOutside :
    after (exec (.dataOutside 0x41) State.reset) (fun s => (s.status, s.errcode, s.errinfo, s.out))
      = some (.err, .protocol, 0x00341, []) := by decide
-- V14, row 9; V15
theorem test_endEncEnd :
    after (exec (.endEncEnd 0) (encAt (some 66) 260 0x8 4 [] []))
      (fun s => (s.status, s.out, s.pendingBits, s.pendingCount, s.nextCode))
      = some (.done, [0x28, 0x04], 0, 0, 260) := by decide
theorem test_endEncEnd_empty :
    after (exec (.endEncEnd 0) (encStart State.reset)) (fun s => (s.status, s.out)) = some (.done, []) := by decide
-- V23, `41`
theorem test_endDecEnd :
    after (exec (.endDecEnd 0) (decAt none [] 256 0x41 8 []))
      (fun s => (s.status, s.out, s.oldCode, s.pendingBits, s.pendingCount)) = some (.done, [], none, 0x41, 8) := by decide
-- V30, `400`
theorem test_endOutside :
    after (exec (.endOutside 0) State.reset) (fun s => (s.status, s.errcode, s.errinfo))
      = some (.err, .protocol, 0x00400) := by decide
-- V31
theorem test_reserved0 :
    after (exec (.reserved0 0) State.reset) (fun s => (s.status, s.errcode, s.errinfo))
      = some (.err, .illegalCmd, 0x00000) := by decide
theorem test_reserved5 :
    after (exec (.reserved5 0xFF) (encAt (some 65) 256 0 0 [] [])) (fun s => (s.status, s.errcode, s.errinfo))
      = some (.err, .illegalCmd, 0x005FF) := by decide
theorem test_reserved6 :
    after (exec (.reserved6 0) State.reset) (fun s => (s.errcode, s.errinfo)) = some (.illegalCmd, 0x00600) := by decide
theorem test_reserved7 :
    after (exec (.reserved7 0xFF) State.reset) (fun s => (s.errcode, s.errinfo)) = some (.illegalCmd, 0x007FF) := by decide
theorem test_reserved_absorbed :
    after (exec (.reserved0 0) (State.reset.raise .protocol 0x00341)) (fun s => (s.errcode, s.errinfo))
      = some (.protocol, 0x00341) := by decide
-- V21, row 2; V22, row 3; V21, row 4; V29 and V27
theorem test_decCodeFirst :
    after (exec (.decCodeFirst 65) (decStart State.reset)) (fun s => (s.out, s.oldCode, s.oldString, s.nextCode))
      = some ([0x41], some 65, [0x41], 256) := by decide
theorem test_decCodeKwkwk :
    after (exec (.decCodeKwkwk 256) (decAt (some 65) [0x41] 256 0 0 []))
      (fun s => (s.out, s.oldCode, s.nextCode, s.ent))
      = some ([0x41, 0x41], some 256, 257, [(256, { pfx := some 65, byte := 0x41 })]) := by decide
theorem test_decCodeLookup :
    after (exec (.decCodeLookup 256) (decAt (some 66) [0x42] 257 0 0 (entV10.take 1)))
      (fun s => (s.out, s.oldCode, s.nextCode, s.ent)) = some ([0x41, 0x42], some 256, 258, entV10.take 2) := by decide
theorem test_decCodeInvalid :
    after (exec (.decCodeInvalid 257) (decAt (some 65) [0x41] 256 0 0 []))
      (fun s => (s.status, s.errcode, s.errinfo, s.nextCode)) = some (.err, .invalidCode, 0x00101, 256) := by decide
theorem test_decCodeInvalid_first :
    after (exec (.decCodeInvalid 256) (decStart State.reset)) (fun s => (s.status, s.errcode, s.errinfo))
      = some (.err, .invalidCode, 0x00100) := by decide
-- V9
theorem test_dictInit :
    after (exec .dictInit stateV10)
      (fun s => (s.nextCode, s.entRead 65, s.entRead 256, s.lkRead none 0xFF, s.lkRead (some 65) 0x42))
      = some (256, some { pfx := none, byte := 0x41 }, none, some 255, none) := by decide
-- V10; V13
theorem test_dictAppend :
    after (exec (.dictAppend (some 65) 0x42 true) (encStart State.reset))
      (fun s => (s.result, s.nextCode, s.entRead 256, s.lkRead (some 65) 0x42))
      = some (.newCode 256, 257, some { pfx := some 65, byte := 0x42 }, some 256) := by decide
theorem test_dictAppend_last :
    after (exec (.dictAppend (some 7) 0x00 true) (encAt none 1048575 0 0 [] []))
      (fun s => (s.result, s.nextCode, s.entRead 1048575))
      = some (.newCode 1048575, 1048576, some { pfx := some 7, byte := 0 }) := by decide
-- V11
theorem test_dictLookup :
    after (exec (.dictLookup (some 256) 0x41) stateV10) State.result = some (.found (some 258)) ∧
    after (exec (.dictLookup (some 256) 0x42) stateV10) State.result = some (.found none) := by decide
theorem test_dictLookup_root :
    after (exec (.dictLookup none 0x42) stateV10) State.result = some (.found (some 66)) := by decide
-- V12
theorem test_dictReconstruct :
    after (exec (.dictReconstruct 258) stateV10) State.result = some (.string [0x41, 0x42, 0x41]) ∧
    after (exec (.dictReconstruct 65) stateV10) State.result = some (.string [0x41]) := by decide
theorem test_dictReconstruct_refused :
    exec (.dictReconstruct 259) stateV10 = .refused .reconstructNotAnEntry := by rfl
-- V8
theorem test_bpInit :
    after (exec .bpInit (encAt none 256 0x1 1 [] [])) (fun s => (s.pendingBits, s.pendingCount, s.out))
      = some (0, 0, []) := by decide
-- V2; V7
theorem test_bpWrite_truncates :
    after (exec (.bpWrite 0x1FF 4) (encStart State.reset)) (fun s => (s.pendingBits, s.pendingCount, s.out))
      = some (0xF, 4, []) := by decide
theorem test_bpWrite_widest :
    after (exec (.bpWrite 0xFFFFF 20) (encAt none 256 0x7F 7 [] [])) (fun s => (s.pendingBits, s.pendingCount, s.out))
      = some (0x7, 3, [0xFF, 0xFF, 0xFF]) := by decide
-- V6
theorem test_bpFeed :
    after (exec (.bpFeed 0x84) (decAt none [] 256 0x41 8 [])) (fun s => (s.pendingBits, s.pendingCount))
      = some (0x8441, 16) := by decide
theorem test_bpRead :
    after (exec (.bpRead 9) (decAt none [] 256 0x8441 16 [])) (fun s => (s.result, s.pendingBits, s.pendingCount))
      = some (.read (some 65), 0x42, 7) := by decide
theorem test_bpRead_exhausted :
    after (exec (.bpRead 9) (decAt none [] 256 0x41 8 [])) (fun s => (s.result, s.pendingBits, s.pendingCount))
      = some (.read none, 0x41, 8) := by decide
-- V8; V2
theorem test_bpFlush_empty :
    after (exec .bpFlush (encStart State.reset)) (fun s => (s.out, s.pendingCount)) = some ([], 0) := by decide
theorem test_bpFlush :
    after (exec .bpFlush (encAt none 256 0xF 4 [] [])) (fun s => (s.out, s.pendingBits, s.pendingCount))
      = some ([0x0F], 0, 0) := by decide
-- V32
theorem test_rdStatus :
    after (exec .rdStatus State.reset) State.result = some (.port 0) ∧
    after (exec .rdStatus (decStart State.reset)) State.result = some (.port 2) := by decide
theorem test_rdErrcode :
    after (exec .rdErrcode (State.reset.raise .illegalCmd 0x005FF)) State.result = some (.port 3) := by decide
theorem test_rdErrinfo :
    after (exec .rdErrinfo (State.reset.raise .illegalCmd 0x005FF)) State.result = some (.port 0x005FF) := by decide
theorem test_rdCodesize : after (exec .rdCodesize (encStart State.reset)) State.result = some (.port 9) := by decide
theorem test_rdNextcode : after (exec .rdNextcode (encStart State.reset)) State.result = some (.port 256) := by decide
theorem test_rdReserved :
    after (exec .rdReserved5 State.reset) State.result = some (.port 0) ∧
    after (exec .rdReserved6 State.reset) State.result = some (.port 0) ∧
    after (exec .rdReserved7 State.reset) State.result = some (.port 0) := by decide
-- V34
theorem test_reset_out_of_err :
    after (step ((State.reset.raise .protocol 0x00341).withInput [.reset])) (fun s => (s.status, s.errcode, s.errinfo))
      = some (.idle, .none, 0) := by decide
-- the placed word is the next one run, from reset
theorem test_withFetchWord :
    after (step (State.reset.withFetchWord 16 0x100)) State.status = some .enc ∧
    after (step (State.reset.withFetchWord 24 0x41)) State.out = some [0x41] ∧
    after (step (State.reset.withFetchWord 8 0)) State.result = some (.port 0) ∧
    decodeTableWord 16 0x241 = some (.decStart 0x41) := by decide

/-! Hypotheses are met: for each statement of Certificates/Slice0/Obligations.lean that has hypotheses, a state and
operands that meet them together, and one for each clause at the ends of its range. -/

-- StepRunsTheDecodedInstruction
theorem test_met_step_quiet : State.reset.input = [] := by rfl
theorem test_met_step_reset : (State.reset.withInput [.reset]).input = .reset :: [] := by rfl
theorem test_met_step_word :
    ∃ s w rest i, s.input = .word w :: rest ∧ decode (State.mode s) w = .ok i :=
  ⟨State.reset.withInput [.word (.cmd 0x100)], .cmd 0x100, [], .encStart 0, by rfl, by rfl⟩
theorem test_met_step_undecodable :
    ∃ s w rest e, s.input = .word w :: rest ∧ decode (State.mode s) w = .error e :=
  ⟨State.reset.withInput [.word (.micro 9 .nothing)], .micro 9 .nothing, [], .unusedMicroOp 9, by rfl, by rfl⟩
-- DecodeOfEncodeIsTheInstruction, at the ends of the four classes of a code
theorem test_met_selectedIn :
    Instr.selectedIn modeAfter65 (.decCodeLookup 255) = true ∧ Instr.selectedIn modeAfter65 (.decCodeKwkwk 256) = true ∧
    Instr.selectedIn modeAfter65 (.decCodeInvalid 257) = true ∧
    Instr.selectedIn (modeOf .dec) (.decCodeFirst 255) = true ∧
    Instr.selectedIn (modeOf .dec) (.decCodeInvalid 256) = true ∧
    Instr.selectedIn (modeOf .enc) (.dataEncByte 0) = true ∧ Instr.selectedIn (modeOf .done) (.endOutside 0) = true := by
  decide
-- EncodeOfDecodeIsTheWord
theorem test_met_decodes : decode modeAfter65 (.code 256) = .ok (.decCodeKwkwk 256) := by decide
-- EntryAndKeyFormats, the last clause: the patterns just above `None` and at the top
theorem test_met_pattern : 2 ^ 20 < (0x100001#21).toNat ∧ 2 ^ 20 < (0x1FFFFF#21).toNat := by decide
-- WidthScheduleTable, at the ends of its rows
theorem test_met_widths :
    widthSchedule 1 = 9 ∧ widthSchedule 256 = 9 ∧ widthSchedule 257 = 10 ∧ widthSchedule 768 = 10 ∧
    widthSchedule 261889 = 19 ∧ widthSchedule 524032 = 19 ∧ widthSchedule 524033 = 20 ∧
    widthSchedule 1048577 = 20 := by decide
-- ResetLeavesTheSpecifiedValues
theorem test_met_reset : ∃ s rest, s.input = .reset :: rest ∧ State.status s = .err :=
  ⟨(State.reset.raise .protocol 1).withInput [.reset], [], by rfl, by rfl⟩
-- EncStartBeginsAFreshPass, DecStartBeginsAFreshPass, MisplacedCommandsRaiseProtocol, ReservedOperationsRaiseIllegalCmd
theorem test_met_status :
    State.reset.status = .idle ∧ (State.reset.setStatus .done).status = .done ∧
    (encStart State.reset).status = .enc ∧ (decStart State.reset).status = .dec ∧ State.reset.status ≠ .err := by decide
-- ErrAbsorbsEveryCommandWord
theorem test_met_err :
    ∃ s w rest t, State.status s = .err ∧ s.input = .word (.cmd w) :: rest ∧
      (Event.word (.cmd w)).isHost = true ∧ step s = .next t :=
  ⟨(State.reset.raise .protocol 1).withInput [.word (.cmd 0x100)], 0x100, [], State.reset.raise .protocol 1, by rfl,
    by rfl, by rfl, by rfl⟩
theorem test_met_err_reset :
    ∃ s rest t, State.status s = .err ∧ s.input = .reset :: rest ∧ Event.reset.isHost = true ∧ step s = .next t :=
  ⟨(State.reset.raise .protocol 1).withInput [.reset], [], State.reset, by rfl, by rfl, by rfl, by rfl⟩
-- StatusFollowsTheTransitionGraph, each clause
theorem test_met_graph :
    after (step (State.reset.withInput [.word (.cmd 0x1FF)])) State.status = some .enc ∧
    after (step ((State.reset.setStatus .done).withInput [.word (.cmd 0x200)])) State.status = some .dec ∧
    after (step ((encStart State.reset).withInput [.word (.cmd 0x3FF)])) State.status = some .enc ∧
    after (step ((decStart State.reset).withInput [.word (.cmd 0x300)])) State.status = some .dec ∧
    after (step ((decStart State.reset).withInput [.word (.cmd 0x4FF)])) State.status = some .done := by decide
theorem test_met_graph_err :
    after (step ((decAt none [] 256 0 8 []).withInput [.word (.cmd 0x301)])) (fun s => (s.status, s.errcode))
      = some (.err, .invalidCode) ∧
    after (step ((State.reset.raise .protocol 1).withInput [.word (.cmd 0x7FF)])) State.status = some .err ∧
    after (step ((State.reset.raise .protocol 1).withInput [.word (.rd 0)])) State.status = some .err := by decide
-- StatusReadsReturnTheRegisters, ProgressReadsBeforeAStartAreUnspecified
theorem test_met_started : (encStart State.reset).started = true ∧ State.reset.started = false := by decide
-- BpWriteAppendsTheLowBits, at the ends of the contract (V7 is the widest case)
theorem test_met_bpWrite :
    (encAt none 256 0x7F 7 [] []).pendingCount.toNat ≤ 7 ∧ State.pendingClean (encAt none 256 0x7F 7 [] []) ∧
    1 ≤ (1#5).toNat ∧ (20#5).toNat ≤ 20 := by
  refine ⟨by decide, ?_, by decide, by decide⟩
  show 0x7F < 2 ^ 7
  decide
-- BpFeedAppendsTheByte, at 19 pending bits
theorem test_met_bpFeed :
    (decAt none [] 256 0x7FFFF 19 []).pendingCount.toNat ≤ 19 ∧ State.pendingClean (decAt none [] 256 0x7FFFF 19 []) := by
  refine ⟨by decide, ?_⟩
  show 0x7FFFF < 2 ^ 19
  decide
-- BpReadTakesTheOldestBits, one bit short and just enough
theorem test_met_bpRead :
    State.pendingClean (decAt none [] 256 0xFF 8 []) ∧ (decAt none [] 256 0xFF 8 []).pendingCount.toNat < (9#5).toNat ∧
    (8#5).toNat ≤ (decAt none [] 256 0xFF 8 []).pendingCount.toNat := by
  refine ⟨?_, by decide, by decide⟩
  show 0xFF < 2 ^ 8
  decide
-- BpFlushPadsToAByte, with nothing and with 7 bits pending
theorem test_met_bpFlush :
    State.pendingClean (encAt none 256 0 0 [] []) ∧ (encAt none 256 0 0 [] []).pendingCount.toNat = 0 ∧
    State.pendingClean (encAt none 256 0x7F 7 [] []) ∧ (encAt none 256 0x7F 7 [] []).pendingCount.toNat = 7 := by
  refine ⟨?_, by decide, ?_, by decide⟩
  · show 0 < 2 ^ 0
    decide
  · show 0x7F < 2 ^ 7
    decide
-- BpCallsOutsideTheContractAreRefused, just outside
theorem test_met_bpRefused :
    (0#5).toNat = 0 ∧ 20 < (21#5).toNat ∧ 7 < (encAt none 256 0 8 [] []).pendingCount.toNat ∧
    19 < (encAt none 256 0 20 [] []).pendingCount.toNat := by decide
-- BpWriteThenReadIsSymmetric
theorem test_met_symmetric :
    ∀ x ∈ [((1 : Code), (1 : BitVec 5)), (0xFFFFF, 20), (0x1FF, 9)],
      1 ≤ x.2.toNat ∧ x.2.toNat ≤ 20 ∧ x.1.toNat < 2 ^ x.2.toNat := by
  simp
-- PendingRegisterFitsInTwentySevenBits, with codeSize 20 and the most bits pending
theorem test_met_pending :
    EncInv (filledEnc 1048320 7) ∧ (filledEnc 1048320 7).codeSize = 20 ∧ (filledEnc 1048320 7).pendingCount = 7 ∧
    DecInv (filledDec 1048320 19) ∧ (filledDec 1048320 19).pendingCount = 19 :=
  ⟨filledEnc_inv _ _ (by omega) (by omega), by decide, by decide, filledDec_inv _ _ (by omega) (by decide), by decide⟩
-- DictAppendCreatesTheNextEntry, at the last location
theorem test_met_dictAppend :
    (encAt none 1048575 0 0 [] []).canonical ∧ (encAt none 1048575 0 0 [] []).nextCode.toNat ≤ 1048575 ∧
    (1048574#20).toNat < (encAt none 1048575 0 0 [] []).nextCode.toNat :=
  ⟨State.canonical_of_nil rfl rfl, by decide, by decide⟩
-- DictCallsOutsideTheContractAreRefused, just outside
theorem test_met_dictRefused :
    1048575 < (encAt none 1048576 0 0 [] []).nextCode.toNat ∧ (encAt none 256 0 0 [] []).nextCode.toNat ≤ 1048575 ∧
    (encAt none 256 0 0 [] []).nextCode.toNat ≤ (256#20).toNat := by decide
-- DictLookupIsExact, ReconstructFollowsThePrefixChain, StringsAreNoLongerThanTheirCodeAllows
theorem test_met_dict :
    EncInv (filledEnc 1 0) ∧ DictInv (filledEnc 1 0) ∧ (256#20).toNat < (filledEnc 1 0).nextCode.toNat ∧
    ∃ str, dictReconstruct 256 (filledEnc 1 0) = .next str := by
  have h := filledEnc_inv 1 0 (by omega) (by omega)
  obtain ⟨str, _, hs, _⟩ := h.dict.reconstruct 256 (by decide)
  exact ⟨h, h.dict, by decide, str, hs⟩
theorem test_met_dict_full :
    DictInv (filledEnc 1048320 0) ∧ (1048575#20).toNat < (filledEnc 1048320 0).nextCode.toNat :=
  ⟨(filledEnc_inv _ _ (by omega) (by omega)).dict, by decide⟩
-- EncByteHitExtendsTheMatch
theorem test_met_encHit :
    (filledEnc 1 0).status = .enc ∧ (filledEnc 1 0).lkRead (filledEnc 1 0).prefixCode 0 = some 256 :=
  ⟨rfl, filledEnc_hit 1 0 (by omega)⟩
-- EncByteMissWritesThenAppendsThenGrows: no growth, growth at 512, the last entry, and at the cap
theorem test_met_encMiss (n : Nat) (h : n = 0 ∨ n = 255 ∨ n = 1048319 ∨ n = 1048320) :
    (filledEnc n 7).status = .enc ∧ EncInv (filledEnc n 7) ∧ (filledEnc n 7).lkRead (filledEnc n 7).prefixCode 1 = none :=
  ⟨rfl, filledEnc_inv _ _ (by omega) (by omega), filledEnc_miss n 7⟩
theorem test_met_encMiss_ends :
    (filledEnc 255 7).nextCode.toNat + 1 = 2 ^ (filledEnc 255 7).codeSize.toNat ∧
    (filledEnc 1048319 7).nextCode.toNat = Config.maxCode ∧ Config.maxCode < (filledEnc 1048320 7).nextCode.toNat := by
  decide
-- EncEndWritesAndFlushes, with a match and with none
theorem test_met_encEnd :
    (filledEnc 0 7).status = .enc ∧ EncInv (filledEnc 0 7) ∧ (encStart State.reset).status = .enc ∧
    EncInv (encStart State.reset) ∧ (encStart State.reset).prefixCode = none :=
  ⟨rfl, filledEnc_inv _ _ (by omega) (by omega), rfl, encStart_inv _, rfl⟩
-- DecByteWaitsForAWholeCode, one bit short; DecByteRunsTheCodeItCompletes, just enough
theorem test_met_decByte :
    (filledDec 0 0).status = .dec ∧ DecInv (filledDec 0 0) ∧
    (filledDec 0 0).pendingCount.toNat + 8 < (filledDec 0 0).codeSize.toNat ∧
    (filledDec 0 1).status = .dec ∧ DecInv (filledDec 0 1) ∧
    (filledDec 0 1).codeSize.toNat ≤ (filledDec 0 1).pendingCount.toNat + 8 :=
  ⟨rfl, filledDec_inv _ _ (by omega) (by decide), by decide, rfl, filledDec_inv _ _ (by omega) (by decide), by decide⟩
-- FirstCodeIsEmittedWithoutAnEntry, the largest first code
theorem test_met_first :
    (decStart State.reset).status = .dec ∧ DecInv (decStart State.reset) ∧ (decStart State.reset).oldCode = none ∧
    (255#20).toNat < (decStart State.reset).nextCode.toNat :=
  ⟨rfl, decStart_inv _, rfl, by decide⟩
-- KwkwkCodeRepeatsTheOldString: no growth, growth at 511, the last entry
theorem test_met_kwkwk (n : Nat) (h : n = 0 ∨ n = 254 ∨ n = 1048319) :
    (filledDec n 0).status = .dec ∧ DecInv (filledDec n 0) ∧ (filledDec n 0).oldCode = some 0 ∧
    (BitVec.ofNat 20 (256 + n)).toNat = (filledDec n 0).nextCode.toNat := by
  refine ⟨rfl, filledDec_inv _ _ (by omega) (by have := widthFor_bounds (256 + n + 1); omega), rfl, ?_⟩
  show (BitVec.ofNat 20 (256 + n)).toNat = (BitVec.ofNat 21 (256 + n)).toNat
  rw [BitVec.toNat_ofNat, BitVec.toNat_ofNat]
  omega
-- LookupCodeUsesTheTable: below the cap, at the last entry and at the cap, the largest code of the table
theorem test_met_lookup (n : Nat) (h : n = 0 ∨ n = 254 ∨ n = 1048319 ∨ n = 1048320) :
    (filledDec n 0).status = .dec ∧ DecInv (filledDec n 0) ∧ (filledDec n 0).oldCode = some 0 ∧
    (BitVec.ofNat 20 (255 + n)).toNat < (filledDec n 0).nextCode.toNat := by
  refine ⟨rfl, filledDec_inv _ _ (by omega) (by have := widthFor_bounds (256 + n + 1); omega), rfl, ?_⟩
  show (BitVec.ofNat 20 (255 + n)).toNat < (BitVec.ofNat 21 (256 + n)).toNat
  rw [BitVec.toNat_ofNat, BitVec.toNat_ofNat]
  omega
theorem test_met_decoder_ends :
    (filledDec 254 0).nextCode.toNat + 1 + 1 = 2 ^ (filledDec 254 0).codeSize.toNat ∧
    (filledDec 1048319 0).nextCode.toNat = Config.maxCode ∧ Config.maxCode < (filledDec 1048320 0).nextCode.toNat := by
  decide
-- InvalidCodeIsAnError: the smallest invalid code of each case (V27, V29)
theorem test_met_invalid :
    (decStart State.reset).status = .dec ∧ (decStart State.reset).oldCode = none ∧
    (decStart State.reset).nextCode.toNat ≤ (256#20).toNat ∧
    (filledDec 0 0).status = .dec ∧ (filledDec 0 0).oldCode ≠ none ∧
    (filledDec 0 0).nextCode.toNat < (257#20).toNat := by
  refine ⟨rfl, rfl, by decide, rfl, by decide, by decide⟩
-- DecEndIgnoresTheLeftoverBits, CodesOutsideADecodePassAreRefused
theorem test_met_decEnd : (filledDec 0 7).status = .dec ∧ State.reset.status ≠ .dec := by
  refine ⟨rfl, by decide⟩
-- StepKeepsTheMemoriesCanonical
theorem test_met_canonical :
    ∃ s t, State.canonical s ∧ step s = .next t :=
  ⟨State.reset.withInput [.word (.cmd 0x100)], encStart State.reset, State.canonical_of_nil rfl rfl, by rfl⟩
-- ResetHasTheInvariant
theorem test_met_host : ∀ e ∈ ((filledDec 0 7).withInput [.reset, .word (.cmd 0x100)]).input, e.isHost = true := by decide
-- StepKeepsTheInvariant, HostEventsNeverStop, CodeSizeAndNextCodeOnlyGrow, OutputAndEntriesAreNeverTakenBack
theorem test_met_invariant :
    Inv ((filledEnc 255 7).withInput [.word (.cmd 0x301)]) ∧
    ((filledEnc 255 7).withInput [.word (.cmd 0x301)]).started = true ∧
    ((filledEnc 255 7).withInput [.word (.cmd 0x301)]).status = .enc ∧
    (∃ t, step ((filledEnc 0 0).withInput [.word (.cmd 0x301)]) = .next t) :=
  ⟨filledEnc_whole _ _ (by omega) (by omega) _ (by decide), rfl, rfl, _, rfl⟩
theorem test_met_invariant_dec :
    Inv ((filledDec 0 1).withInput [.word (.cmd 0x300)]) ∧
    ((filledDec 0 1).withInput [.word (.cmd 0x300)]).started = true ∧
    ((filledDec 0 1).withInput [.word (.cmd 0x300)]).status = .dec ∧
    (∃ t, step ((filledDec 0 1).withInput [.word (.cmd 0x300)]) = .next t) :=
  ⟨filledDec_whole _ _ (by omega) (by decide) _ (by decide), rfl, rfl, _, rfl⟩
-- PassesForgetTheStateBefore, EncodedStreamHasTheFormat, DecodingAnEncodedStreamGivesTheInput
theorem test_met_passes :
    State.reset.status = .idle ∧ ((encAt (some 65) 257 1 1 [] []).setStatus .done).status = .done ∧
    State.reset.errcode = ((encAt (some 65) 257 1 1 [] []).setStatus .done).errcode ∧
    State.reset.errinfo = ((encAt (some 65) 257 1 1 [] []).setStatus .done).errinfo := by decide

end Sys2Proof.Machine
end

section
/-! PROOFS, part 1. Rules of the shared operations: the state an append leaves, what the emitting and the creating halves
of the state machines change, the growth of the width. -/

namespace Sys2Proof.Machine

/-! The state an append leaves. -/

/-- The state DICT_APPEND leaves, one record update (R73): the pair at `nextCode`, in LK too when the caller says so. -/
def State.appended (s : State) (l : Bool) (p : Code) (b : Byte) : State :=
  { s with
    ent := memWrite entUnlisted s.ent s.nextCode.toNat { pfx := some p, byte := b }
    lk := if l then memWrite lkUnlisted s.lk (lkAddress (some p) b) (s.nextCode.setWidth 20) else s.lk
    nextCode := s.nextCode + 1 }

theorem dictAppend_next_appended {s : State} {p : CodeOrNone} {b : Byte} {l : Bool} {r : State × Code}
    (h : dictAppend l p b s = .next r) :
    ∃ q, p = some q ∧ s.nextCode.toNat ≤ 1048575 ∧ q.toNat < s.nextCode.toNat ∧
      r = (s.appended l q b, s.nextCode.setWidth 20) := by
  obtain ⟨q, rfl, hn, hq, rfl⟩ := dictAppend_next h
  exact ⟨q, rfl, hn, hq, by cases l <;> rfl⟩

section
variable {s : State} (l : Bool) (p : Code) (b : Byte)

theorem appended_nextCode_toNat (hn : s.nextCode.toNat ≤ 1048575) :
    (s.appended l p b).nextCode.toNat = s.nextCode.toNat + 1 :=
  nextCode_succ_toNat (by omega)

theorem appended_entRead_same (hc : s.canonical) (hn : s.nextCode.toNat ≤ 1048575) {c : Code}
    (h : c.toNat = s.nextCode.toNat) : (s.appended l p b).entRead c = some { pfx := some p, byte := b } := by
  rw [State.entRead_of_lt (by rw [appended_nextCode_toNat l p b hn]; omega), h]
  exact memRead_write_same hc.1 _ _

theorem appended_entRead_ne (hn : s.nextCode.toNat ≤ 1048575) {c : Code} (h : c.toNat ≠ s.nextCode.toNat) :
    (s.appended l p b).entRead c = s.entRead c := by
  have hn' := appended_nextCode_toNat l p b hn
  by_cases hlt : c.toNat < s.nextCode.toNat
  · rw [State.entRead_of_lt hlt, State.entRead_of_lt (by omega)]
    exact memRead_write_ne _ _ h
  · rw [State.entRead_of_le (by omega), State.entRead_of_le (by omega)]

theorem appended_entryAppended (hc : s.canonical) (hn : s.nextCode.toNat ≤ 1048575) :
    EntryAppended s (s.appended l p b) p b :=
  ⟨appended_nextCode_toNat l p b hn, fun _ h => appended_entRead_same l p b hc hn h,
    fun _ h => appended_entRead_ne l p b hn h⟩

theorem appended_lkRead_same (hc : s.canonical) :
    (s.appended true p b).lkRead (some p) b = some (s.nextCode.setWidth 20) :=
  memRead_write_same hc.2 _ _

theorem appended_lkRead_ne {q : CodeOrNone} {d : Byte} (h : (q, d) ≠ (some p, b)) :
    (s.appended l p b).lkRead q d = s.lkRead q d := by
  cases l with
  | false => rfl
  | true =>
    refine memRead_write_ne _ _ fun ha => h ?_
    obtain ⟨rfl, rfl⟩ := lkAddress_inj ha
    rfl

theorem appended_canonical (hc : s.canonical) : (s.appended l p b).canonical := by
  refine ⟨memWrite_wf hc.1 _ _, ?_⟩
  cases l with
  | false => exact hc.2
  | true => exact memWrite_wf hc.2 _ _

/-- One entry appended to an entry keeps I1 and I2 of R33. -/
theorem DictInv.appended (h : DictInv s) (hn : s.nextCode.toNat ≤ 1048575) (hp : p.toNat < s.nextCode.toNat) :
    DictInv (s.appended l p b) := by
  obtain ⟨hn', hsame, hother⟩ := appended_entryAppended l p b h.canon hn
  have hlow := h.low
  simp only [Config.firstCode] at hlow
  refine ⟨appended_canonical l p b h.canon, ?_, ?_, fun x hx => ?_, fun c hc hlt => ?_⟩
  · rw [hn', Config.firstCode]; omega
  · rw [hn', Config.maxBits]; omega
  · rw [hn', Config.nRoot]
    rcases mem_memWrite hx with rfl | hx
    · dsimp only; omega
    · have := h.listed x hx
      simp only [Config.nRoot] at this
      omega
  · by_cases hnew : c.toNat = s.nextCode.toNat
    · exact ⟨p, b, hsame c hnew, by omega⟩
    · rw [hother c hnew]
      exact h.dynamic c hc (by omega)

/-- An append of a pair that no lookup found keeps the index exact (I4 of R33). -/
theorem appended_index (hc : s.canonical) (hn : s.nextCode.toNat ≤ 1048575) (hmiss : s.lkRead (some p) b = none)
    (hi : ∀ q d c, s.lkRead q d = some c ↔ s.entRead c = some { pfx := q, byte := d }) (q : CodeOrNone) (d : Byte)
    (c : Code) :
    (s.appended true p b).lkRead q d = some c ↔ (s.appended true p b).entRead c = some { pfx := q, byte := d } := by
  obtain ⟨-, hsame, hother⟩ := appended_entryAppended true p b hc hn
  by_cases hk : (q, d) = (some p, b)
  · obtain ⟨rfl, rfl⟩ := Prod.mk.inj hk
    rw [appended_lkRead_same _ _ hc, Option.some_inj]
    constructor
    · rintro rfl
      exact hsame _ (newCode_toNat hn)
    · intro he
      by_cases hnew : c.toNat = s.nextCode.toNat
      · exact BitVec.eq_of_toNat_eq (by rw [newCode_toNat hn, hnew])
      · rw [hother c hnew, ← hi, hmiss] at he
        cases he
  · rw [appended_lkRead_ne _ _ _ hk, hi]
    by_cases hnew : c.toNat = s.nextCode.toNat
    · rw [hsame c hnew, State.entRead_of_le hnew.ge]
      refine ⟨nofun, fun h => absurd ?_ hk⟩
      cases h
      rfl
    · rw [hother c hnew]

end

/-! Growth of the width. -/

/-- The growth rule at every number, the cap included, where both widths are 20. -/
theorem widthFor_succ_of_pos {n : Nat} (hn : n ≠ 0) :
    widthFor (n + 1) = if n + 1 = 2 ^ widthFor n ∧ widthFor n < 20 then widthFor n + 1 else widthFor n := by
  rcases Nat.lt_or_ge n (2 ^ 20) with h | h
  · exact widthFor_succ hn h
  · have capped : ∀ m, 2 ^ 20 ≤ m → widthFor m = 20 := fun m hm => by
      have hb := widthFor_bounds m
      by_contra hne
      have := (widthFor_le_iff (n := m) (w := 19) (by omega) (by omega) (by omega)).1 (by omega)
      omega
    rw [capped n h, capped (n + 1) (by omega), if_neg (by omega)]

theorem encoderGrows_iff {n : BitVec 21} {w : BitVec 5} :
    encoderGrows n w = true ↔ n.toNat = 2 ^ w.toNat ∧ w.toNat < 20 := by simp [encoderGrows]

theorem decoderGrows_iff {n : BitVec 21} {w : BitVec 5} :
    decoderGrows n w = true ↔ n.toNat + 1 = 2 ^ w.toNat ∧ w.toNat < 20 := by simp [decoderGrows]

/-- The register `codeSize` after a growth test. -/
def grownSize (g : Bool) (w : BitVec 5) : BitVec 5 := if g then w + 1 else w

/-- The state a growth test with the answer `g` leaves: `codeSize` grown or not, nothing else changed. -/
def State.grownIf (s : State) (g : Bool) : State := { s with codeSize := grownSize g s.codeSize }

theorem ite_grow_eq_grownIf (g : Bool) (s : State) : (if g then s.grow else s) = s.grownIf g := by
  cases g <;> rfl

theorem grownSize_toNat {g : Bool} {w : BitVec 5} (h : g = true → w.toNat < 20) :
    (grownSize g w).toNat = if g = true then w.toNat + 1 else w.toNat := by
  cases g with
  | false => rfl
  | true => exact codeSize_succ_toNat (Nat.lt_trans (h rfl) (by omega))

/-- The encoder's growth keeps I3 of R33: the width of `nextCode`. -/
theorem encoder_grownSize_toNat {n : BitVec 21} {w : BitVec 5} (hn : n.toNat ≤ 1048575) (h0 : n.toNat ≠ 0)
    (hw : w.toNat = widthFor n.toNat) :
    (grownSize (encoderGrows (n + 1) w) w).toNat = widthFor (n.toNat + 1) := by
  rw [grownSize_toNat fun h => (encoderGrows_iff.1 h).2, widthFor_succ_of_pos h0, ← hw]
  simp only [encoderGrows_iff, nextCode_succ_toNat (Nat.le_succ_of_le hn)]

/-- The decoder's growth keeps I3 of R33: the width of `nextCode + 1`. -/
theorem decoder_grownSize_toNat {n : BitVec 21} {w : BitVec 5} (hn : n.toNat ≤ 1048575)
    (hw : w.toNat = widthFor (n.toNat + 1)) :
    (grownSize (decoderGrows (n + 1) w) w).toNat = widthFor (n.toNat + 1 + 1) := by
  rw [grownSize_toNat fun h => (decoderGrows_iff.1 h).2, widthFor_succ_of_pos (Nat.succ_ne_zero _), ← hw]
  simp only [decoderGrows_iff, nextCode_succ_toNat (Nat.le_succ_of_le hn)]

/-! What the two creating halves leave. -/

/-- ENC_BYTE's creating half: nothing at the cap, else the appended state with the width grown (R86, R88, R89). -/
theorem encCreate_next_appended {s t : State} {b : Byte} (h : encCreate b s = .next t) :
    (1048575 < s.nextCode.toNat ∧ t = s) ∨
    (s.nextCode.toNat ≤ 1048575 ∧ ∃ p, s.prefixCode = some p ∧ p.toNat < s.nextCode.toNat ∧
      t = (s.appended true p b).grownIf (encoderGrows (s.nextCode + 1) s.codeSize)) := by
  obtain h | ⟨hn, r, hr, rfl⟩ := encCreate_next h
  · exact .inl h
  · obtain ⟨p, hp, -, hlt, rfl⟩ := dictAppend_next_appended hr
    exact .inr ⟨hn, p, hp, hlt, ite_grow_eq_grownIf _ _⟩

/-- DEC_UPDATE: nothing at the cap, else the appended state with the width grown (R99). -/
theorem decUpdate_next_appended {s t : State} {fb : Byte} (h : decUpdate fb s = .next t) :
    (1048575 < s.nextCode.toNat ∧ t = s) ∨
    (s.nextCode.toNat ≤ 1048575 ∧ ∃ p, s.oldCode = some p ∧ p.toNat < s.nextCode.toNat ∧
      t = (s.appended false p fb).grownIf (decoderGrows (s.nextCode + 1) s.codeSize)) := by
  obtain h | ⟨hn, r, hr, rfl⟩ := decUpdate_next h
  · exact .inl h
  · obtain ⟨p, hp, -, hlt, rfl⟩ := dictAppend_next_appended hr
    exact .inr ⟨hn, p, hp, hlt, ite_grow_eq_grownIf _ _⟩

/-- Everything ENC_BYTE's and ENC_END's first half can do: nothing without a match, else a BP_WRITE of it (R86, R87). -/
theorem encEmit_next {s t : State} (h : encEmit s = .next t) :
    (s.prefixCode = none ∧ t = s) ∨ ∃ p, s.prefixCode = some p ∧ bpWrite p s.codeSize s = .next t := by
  unfold encEmit at h
  split at h
  · next hp => cases h; exact .inl ⟨hp, rfl⟩
  · next p hp => exact .inr ⟨p, hp, h⟩

/-- BP_WRITE in the terms of its frame: OUT is extended, fewer than 8 bits stay, and the register stays clean (R79). -/
theorem bpWrite_next_pending {s t : State} {c : Code} {w : BitVec 5} (h : bpWrite c w s = .next t)
    (hc : s.pendingClean) :
    ∃ bs bits count, t = (s.emit bs).setPending bits count ∧ count < 8 ∧ bits < 2 ^ count := by
  obtain ⟨_, _, _, rfl⟩ := bpWrite_next h
  exact ⟨_, _, _, rfl, by omega, shiftRight_lt (or_shift_lt hc (low_lt _ _)) (by omega)⟩

end Sys2Proof.Machine
end

section
/-! PROOFS, part 2. The two passes: what a byte and an end do to the invariant of the pass and to what a pass never takes
back. -/

namespace Sys2Proof.Machine

/-! What a command inside a pass leaves. -/

/-- The control registers of a running pass are as they were (R24, R65). -/
structure SameControl (s t : State) : Prop where
  status  : t.status = s.status
  errcode : t.errcode = s.errcode
  errinfo : t.errinfo = s.errinfo
  started : t.started = s.started
  input   : t.input = s.input

/-- What a pass never takes back: the two progress registers grow by at most one, OUT is extended, entries stay (R16,
R17, R26, R28, R38). -/
structure PassProgress (s t : State) : Prop where
  sizeLe   : s.codeSize.toNat ≤ t.codeSize.toNat
  sizeStep : t.codeSize.toNat ≤ s.codeSize.toNat + 1
  nextLe   : s.nextCode.toNat ≤ t.nextCode.toNat
  nextStep : t.nextCode.toNat ≤ s.nextCode.toNat + 1
  out      : s.out <+: t.out
  entries  : ∀ c x, s.entRead c = some x → t.entRead c = some x
  started  : t.started = s.started

/-- A command that touches no dictionary and no width only extends OUT. -/
theorem PassProgress.of_out {s t : State} (h1 : t.codeSize = s.codeSize) (h2 : t.nextCode = s.nextCode)
    (h3 : t.ent = s.ent) (h4 : s.out <+: t.out) (h5 : t.started = s.started) : PassProgress s t :=
  ⟨by rw [h1], by rw [h1]; omega, by rw [h2], by rw [h2]; omega, h4,
    fun c x hx => by rw [State.entRead_congr h3 h2]; exact hx, h5⟩

/-- One new entry with a growth test below the largest width: the part the two state machines share. -/
theorem PassProgress.appended_grown {s : State} {l g : Bool} {p : Code} {b : Byte} (hn : s.nextCode.toNat ≤ 1048575)
    (hg : g = true → s.codeSize.toNat < 20) :
    PassProgress s ((s.appended l p b).grownIf g) := by
  have hn' := appended_nextCode_toNat l p b hn
  have hs := grownSize_toNat hg
  refine ⟨?_, ?_, ?_, ?_, List.prefix_refl _, fun c x hx => ?_, rfl⟩
  · show _ ≤ (grownSize g s.codeSize).toNat
    rw [hs]; split <;> omega
  · show (grownSize g s.codeSize).toNat ≤ _
    rw [hs]; split <;> omega
  · exact hn' ▸ Nat.le_succ _
  · exact hn'.le
  · have := State.entRead_lt hx
    exact (appended_entRead_ne l p b hn (by omega)).trans hx

theorem encCreate_progress {s t : State} {b : Byte} (h : encCreate b s = .next t) : PassProgress s t := by
  obtain ⟨-, rfl⟩ | ⟨hn, p, -, -, rfl⟩ := encCreate_next_appended h
  · exact .of_out rfl rfl rfl (List.prefix_refl _) rfl
  · exact .appended_grown hn fun h => (encoderGrows_iff.1 h).2

theorem decUpdate_progress {s t : State} {fb : Byte} (h : decUpdate fb s = .next t) : PassProgress s t := by
  obtain ⟨-, rfl⟩ | ⟨hn, p, -, -, rfl⟩ := decUpdate_next_appended h
  · exact .of_out rfl rfl rfl (List.prefix_refl _) rfl
  · exact .appended_grown hn fun h => (decoderGrows_iff.1 h).2

/-! The pending register. -/

/-- Bits ORed in above a clean register stay below 2^27 when their count does not pass 27. -/
theorem or_shift_lt_pendWMin {s : State} {w y : Nat} (hc : s.pendingClean) (hy : y < 2 ^ w)
    (h : s.pendingCount.toNat + w ≤ 27) : s.pendingBits ||| (y <<< s.pendingCount.toNat) < 2 ^ Config.pendWMin :=
  (or_shift_lt hc hy).trans_le (Nat.pow_le_pow_right (by omega) h)

/-! The encode pass. -/

section
variable {s t : State}

theorem EncInv.codeSize_bounds (h : EncInv s) : 9 ≤ s.codeSize.toNat ∧ s.codeSize.toNat ≤ 20 :=
  h.width ▸ widthFor_bounds _

/-- A clean register with fewer than 8 bits keeps the invariant of an encode pass, whatever OUT holds. -/
theorem EncInv.emit_setPending (h : EncInv s) (bs : List Byte) {bits count : Nat} (hc : count < 8)
    (hb : bits < 2 ^ count) : EncInv ((s.emit bs).setPending bits count) := by
  have hcount : (BitVec.ofNat 5 count).toNat = count := count_ofNat_toNat (by omega)
  refine ⟨h.dict.congr rfl rfl rfl, h.index, h.pfxLow, h.width, ?_, ?_⟩
  · exact hcount.trans_lt hc
  · show bits < 2 ^ (BitVec.ofNat 5 count).toNat
    rwa [hcount]

/-- A match that is an entry keeps the invariant of an encode pass (I5 of R33). -/
theorem EncInv.setPrefixCode (h : EncInv s) {p : Code} (hp : p.toNat < s.nextCode.toNat) :
    EncInv (s.setPrefixCode (some p)) :=
  ⟨h.dict.congr rfl rfl rfl, h.index, fun _ hq => Option.some_inj.1 hq ▸ hp, h.width, h.pending, h.clean⟩

/-- What ENC_BYTE's and ENC_END's first half leaves in a pass: OUT extended, the register clean with fewer than 8 bits. -/
theorem encEmit_next_pending (h : EncInv s) (he : encEmit s = .next t) :
    ∃ bs bits count, t = (s.emit bs).setPending bits count ∧ count < 8 ∧ bits < 2 ^ count := by
  obtain ⟨-, rfl⟩ | ⟨p, -, hw⟩ := encEmit_next he
  · refine ⟨[], t.pendingBits, t.pendingCount.toNat, ?_, h.pending, h.clean⟩
    simp [State.emit, State.setPending]
  · exact bpWrite_next_pending hw h.clean

/-- A new entry, on a miss, keeps the invariant of an encode pass. -/
theorem encCreate_encInv {b : Byte} (h : EncInv s) (hmiss : s.lkRead s.prefixCode b = none)
    (hc : encCreate b s = .next t) : EncInv t := by
  obtain ⟨-, rfl⟩ | ⟨hn, p, hp, hlt, rfl⟩ := encCreate_next_appended hc
  · exact h
  · have hn' := appended_nextCode_toNat true p b hn
    have hi := appended_index p b h.dict.canon hn (hp ▸ hmiss) h.index
    refine ⟨(h.dict.appended true p b hn hlt).congr rfl rfl rfl, hi, fun q hq => ?_, ?_, h.pending, h.clean⟩
    · exact Nat.lt_of_lt_of_eq (Nat.lt_succ_of_lt (h.pfxLow q hq)) hn'.symm
    · exact (encoder_grownSize_toNat hn (by omega) h.width).trans (congrArg widthFor hn'.symm)

theorem encCreate_sameControl {b : Byte} (h : encCreate b s = .next t) : SameControl s t := by
  obtain ⟨-, rfl⟩ | ⟨-, p, -, -, rfl⟩ := encCreate_next_appended h <;> exact ⟨rfl, rfl, rfl, rfl, rfl⟩

/-- ENC_BYTE keeps the invariant of an encode pass. -/
theorem encByte_encInv {c : Byte} (h : EncInv s) (hb : encByte c s = .next t) : EncInv t := by
  obtain ⟨m, hm, rfl⟩ | ⟨hmiss, s1, s2, h1, h2, rfl⟩ := encByte_next hb
  · exact h.setPrefixCode (State.entRead_lt ((h.index _ _ _).1 hm))
  · obtain ⟨bs, bits, count, rfl, hcount, hbits⟩ := encEmit_next_pending h h1
    have hi := encCreate_encInv (h.emit_setPending bs hcount hbits) hmiss h2
    have hlow := hi.dict.low
    have hc := c.isLt
    simp only [Config.firstCode] at hlow
    exact hi.setPrefixCode (by rw [rootCode_toNat]; omega)

theorem encByte_sameControl {c : Byte} (h : EncInv s) (hb : encByte c s = .next t) : SameControl s t := by
  obtain ⟨m, -, rfl⟩ | ⟨-, s1, s2, h1, h2, rfl⟩ := encByte_next hb
  · exact ⟨rfl, rfl, rfl, rfl, rfl⟩
  · obtain ⟨bs, bits, count, rfl, -, -⟩ := encEmit_next_pending h h1
    exact { encCreate_sameControl h2 with }

theorem encByte_progress {c : Byte} (h : EncInv s) (hb : encByte c s = .next t) : PassProgress s t := by
  obtain ⟨m, -, rfl⟩ | ⟨-, s1, s2, h1, h2, rfl⟩ := encByte_next hb
  · exact .of_out rfl rfl rfl (List.prefix_refl _) rfl
  · obtain ⟨bs, bits, count, rfl, -, -⟩ := encEmit_next_pending h h1
    have hp := encCreate_progress h2
    exact { hp with out := (List.prefix_append s.out bs).trans hp.out }

/-- ENC_END leaves the pass's invariant, but for the status, with OUT extended and nothing pending (R87). -/
theorem encEnd_next_flushed (h : EncInv s) (he : encEnd s = .next t) :
    ∃ bs, t = ((s.emit bs).setPending 0 0).setStatus .done := by
  obtain ⟨s1, s2, h1, h2, rfl⟩ := encEnd_next he
  obtain ⟨bs, bits, count, rfl, -, -⟩ := encEmit_next_pending h h1
  obtain ⟨-, ⟨-, rfl⟩ | ⟨-, rfl⟩⟩ := bpFlush_next h2
  · exact ⟨bs, rfl⟩
  · refine ⟨bs ++ [lowByte bits], ?_⟩
    simp [State.emit, State.setPending, State.setStatus]

end

/-! The decode pass. -/

section
variable {s t : State}

theorem DecInv.codeSize_bounds (h : DecInv s) : 9 ≤ s.codeSize.toNat ∧ s.codeSize.toNat ≤ 20 :=
  h.width ▸ widthFor_bounds _

/-- `str(c) = str(p) ++ [b]` where `ENT[c] = (Some p, b)` (R75). -/
theorem DictInv.reconstruct_dynamic (h : DictInv s) {c p : Code} {b : Byte} {str : List Byte}
    (he : s.entRead c = some { pfx := some p, byte := b }) (hp : dictReconstruct p s = .next str) :
    dictReconstruct c s = .next (str ++ [b]) := by
  have hlt := State.entRead_lt he
  have hroot : ¬ c.toNat < 256 := fun hr => by rw [h.entRead_root hr] at he; cases he
  obtain ⟨q, d, hq, hlow⟩ := h.dynamic c (by simp only [Config.nRoot]; omega) hlt
  rw [he] at hq
  cases hq
  obtain ⟨str', -, hs, hwalk⟩ := h.reconstruct p (dictReconstruct_next hp).1
  rw [hp] at hs
  cases hs
  obtain ⟨n, hn⟩ : ∃ n, s.nextCode.toNat = n + 1 := ⟨s.nextCode.toNat - 1, by omega⟩
  rw [dictReconstruct_eq hlt, hn, chainWalk_dynamic he, hwalk n [b] (by omega)]

/-- A clean register with fewer bits than a code keeps the invariant of a decode pass. -/
theorem DecInv.setPending (h : DecInv s) {bits count : Nat} (hc : count < s.codeSize.toNat) (hb : bits < 2 ^ count) :
    DecInv (s.setPending bits count) := by
  have hcount : (BitVec.ofNat 5 count).toNat = count :=
    count_ofNat_toNat (by have := h.codeSize_bounds; omega)
  have hext : ∀ c x, s.entRead c = some x → (s.setPending bits count).entRead c = some x := fun _ _ hx => hx
  refine ⟨h.dict.congr rfl rfl rfl, h.first, fun c hco => ?_, h.width, hcount.trans_lt hc, ?_⟩
  · obtain ⟨hlt, hr⟩ := h.old c hco
    exact ⟨hlt, h.dict.reconstruct_extends hext le_rfl hr⟩
  · show bits < 2 ^ (BitVec.ofNat 5 count).toNat
    rwa [hcount]

/-- DEC_COMMIT of a code with its string keeps the invariant of a decode pass. -/
theorem DecInv.decCommit (hd : DictInv s) (hw : s.codeSize.toNat = widthFor (s.nextCode.toNat + 1))
    (hp : s.pendingCount.toNat < s.codeSize.toNat) (hcl : s.pendingClean) {c : Code} {str : List Byte}
    (hr : dictReconstruct c s = .next str) : DecInv (decCommit c str s) := by
  have hext : ∀ c' x, s.entRead c' = some x → (Machine.decCommit c str s).entRead c' = some x := fun _ _ hx => hx
  refine ⟨hd.congr rfl rfl rfl, nofun, fun c' hc' => ?_, hw, hp, hcl⟩
  cases hc'
  exact ⟨(dictReconstruct_next hr).1, hd.reconstruct_extends hext le_rfl hr⟩

theorem decUpdate_dictInv {fb : Byte} (h : DictInv s) (hu : decUpdate fb s = .next t) : DictInv t := by
  obtain ⟨-, rfl⟩ | ⟨hn, p, -, hlt, rfl⟩ := decUpdate_next_appended hu
  · exact h
  · exact (h.appended false p fb hn hlt).congr rfl rfl rfl

theorem decUpdate_width {fb : Byte} (hw : s.codeSize.toNat = widthFor (s.nextCode.toNat + 1))
    (hu : decUpdate fb s = .next t) : t.codeSize.toNat = widthFor (t.nextCode.toNat + 1) := by
  obtain ⟨-, rfl⟩ | ⟨hn, p, -, -, rfl⟩ := decUpdate_next_appended hu
  · exact hw
  · exact (decoder_grownSize_toNat hn hw).trans
      (congrArg (fun n => widthFor (n + 1)) (appended_nextCode_toNat false p fb hn).symm)

/-- DEC_UPDATE touches the dictionary and the width, no more (R99). -/
theorem decUpdate_frame {fb : Byte} (hu : decUpdate fb s = .next t) :
    t = { s with ent := t.ent, nextCode := t.nextCode, codeSize := t.codeSize } := by
  obtain ⟨-, rfl⟩ | ⟨-, p, -, -, rfl⟩ := decUpdate_next_appended hu <;> rfl

/-- DEC_UPDATE then DEC_COMMIT keep the invariant of a decode pass, when the string committed is the code's own. -/
theorem decUpdate_decCommit_decInv {fb : Byte} {c : Code} {str : List Byte} (h : DecInv s)
    (hu : decUpdate fb s = .next t) (hr : dictReconstruct c t = .next str) : DecInv (decCommit c str t) := by
  have hf := decUpdate_frame hu
  refine .decCommit (decUpdate_dictInv h.dict hu) (decUpdate_width h.width hu) ?_ ?_ hr
  · have hp : t.pendingCount = s.pendingCount := by rw [hf]
    exact hp ▸ h.pending.trans_le (decUpdate_progress hu).sizeLe
  · have hcl : s.pendingClean := h.clean
    rw [hf]
    exact hcl

/-- The class KWKWK (R94). -/
theorem classify_kwkwk {m : Mode} {c : Code} (h : classify m c = .kwkwk) :
    ∃ o, m.oldCode = some o ∧ c.toNat = m.nextCode.toNat := by
  unfold classify at h
  split at h
  · split at h <;> cases h
  · next o ho => split_ifs at h with hc; exact ⟨o, ho, hc⟩

/-- DEC_CODE keeps the invariant of a decode pass, in all four cases. -/
theorem decCode_decInv {c : Code} (h : DecInv s) (hc : decCode c s = .next t) : DecInv t := by
  obtain ⟨-, str, hr, rfl⟩ | ⟨hk, b0, rest, ho, hu⟩ | ⟨-, str, hr, hu⟩ | ⟨-, rfl⟩ := decCode_next hc
  case inl => exact .decCommit h.dict h.width h.pending h.clean hr
  case inr.inl =>
    obtain ⟨fb, tail, s1, hstr, hup, rfl⟩ := decUpdateCommit_next hu
    obtain rfl : b0 = fb := by rw [ho] at hstr; exact (List.cons.inj hstr).1
    obtain ⟨o, hold, hcn⟩ := classify_kwkwk hk
    refine decUpdate_decCommit_decInv h hup ?_
    obtain ⟨hfull, -⟩ | ⟨hn, p, hp, hlt, rfl⟩ := decUpdate_next_appended hup
    · have hcn : c.toNat = s.nextCode.toNat := hcn
      have := c.isLt
      omega
    · have hprog := decUpdate_progress hup
      exact (decUpdate_dictInv h.dict hup).reconstruct_dynamic
        ((appended_entryAppended false p b0 h.dict.canon hn).2.1 c hcn)
        (h.dict.reconstruct_extends hprog.entries hprog.nextLe (h.old p hp).2)
  case inr.inr.inl =>
    obtain ⟨fb, tail, s1, -, hup, rfl⟩ := decUpdateCommit_next hu
    have hprog := decUpdate_progress hup
    exact decUpdate_decCommit_decInv h hup (h.dict.reconstruct_extends hprog.entries hprog.nextLe hr)
  case inr.inr.inr => exact h.congr rfl rfl rfl rfl rfl rfl rfl rfl

/-- DEC_CODE keeps the control registers, or raises INVALID_CODE and changes nothing else (R98). -/
theorem decCode_control {c : Code} (hc : decCode c s = .next t) :
    SameControl s t ∨ t = s.raise .invalidCode c := by
  have commit : ∀ {str}, decUpdateCommit c str s = .next t → SameControl s t := fun hu => by
    obtain ⟨fb, tail, s1, -, hup, rfl⟩ := decUpdateCommit_next hu
    rw [decUpdate_frame hup]
    exact ⟨rfl, rfl, rfl, rfl, rfl⟩
  obtain ⟨-, str, -, rfl⟩ | ⟨-, b0, rest, -, hu⟩ | ⟨-, str, -, hu⟩ | ⟨-, rfl⟩ := decCode_next hc
  · exact .inl ⟨rfl, rfl, rfl, rfl, rfl⟩
  · exact .inl (commit hu)
  · exact .inl (commit hu)
  · exact .inr rfl

theorem decUpdateCommit_progress {c : Code} {str : List Byte} (hu : decUpdateCommit c str s = .next t) :
    PassProgress s t := by
  obtain ⟨fb, tail, s1, -, hup, rfl⟩ := decUpdateCommit_next hu
  have hp := decUpdate_progress hup
  exact { hp with out := hp.out.trans (List.prefix_append s1.out str) }

theorem decCode_progress {c : Code} (hc : decCode c s = .next t) : PassProgress s t := by
  obtain ⟨-, str, -, rfl⟩ | ⟨-, b0, rest, -, hu⟩ | ⟨-, str, -, hu⟩ | ⟨-, rfl⟩ := decCode_next hc
  · exact .of_out rfl rfl rfl (List.prefix_append _ _) rfl
  · exact decUpdateCommit_progress hu
  · exact decUpdateCommit_progress hu
  · exact .of_out rfl rfl rfl (List.prefix_refl _) rfl

/-- DEC_BYTE feeds a byte, takes a code if one is complete, and runs DEC_CODE on it from a state of the pass (R93). -/
theorem decByte_next_pending {b : Byte} (h : DecInv s) (hb : decByte b s = .next t) :
    ∃ bits count, DecInv (s.setPending bits count) ∧
      (t = s.setPending bits count ∨ ∃ c, decCode c (s.setPending bits count) = .next t) := by
  obtain ⟨s1, r, hf, hr, hcode⟩ := decByte_next hb
  obtain ⟨hroom, rfl⟩ := bpFeed_next hf
  have hclean : s.pendingBits ||| (b.toNat <<< s.pendingCount.toNat) < 2 ^ (s.pendingCount.toNat + 8) :=
    or_shift_lt h.clean b.isLt
  have hcount : (BitVec.ofNat 5 (s.pendingCount.toNat + 8)).toNat = s.pendingCount.toNat + 8 :=
    count_ofNat_toNat (by omega)
  have hwidth := h.codeSize_bounds
  have hpend := h.pending
  obtain ⟨-, -, ⟨hshort, rfl⟩ | ⟨hfull, rfl⟩⟩ := bpRead_next hr <;>
    simp only [State.setPending_pendingCount, State.setPending_codeSize, hcount] at *
  · obtain ⟨-, rfl⟩ | ⟨c, hc, -⟩ := hcode
    · exact ⟨_, _, h.setPending hshort hclean, .inl rfl⟩
    · cases hc
  · obtain ⟨hc, -⟩ | ⟨c, -, hc⟩ := hcode
    · cases hc
    · exact ⟨_, _, h.setPending (by omega) (shiftRight_lt hclean hfull), .inr ⟨c, hc⟩⟩

/-- DEC_BYTE keeps the invariant of a decode pass. -/
theorem decByte_decInv {b : Byte} (h : DecInv s) (hb : decByte b s = .next t) : DecInv t := by
  obtain ⟨bits, count, hi, rfl | ⟨c, hc⟩⟩ := decByte_next_pending h hb
  · exact hi
  · exact decCode_decInv hi hc

theorem decByte_progress {b : Byte} (h : DecInv s) (hb : decByte b s = .next t) : PassProgress s t := by
  obtain ⟨bits, count, -, rfl | ⟨c, hc⟩⟩ := decByte_next_pending h hb
  · exact .of_out rfl rfl rfl (List.prefix_refl _) rfl
  · obtain ⟨k1, k2, k3, k4, k5, k6, k7⟩ := decCode_progress hc
    exact ⟨k1, k2, k3, k4, k5, k6, k7⟩

end

end Sys2Proof.Machine
end

section
/-! PROOFS, part 3. What a host's event does: the effects a command word can have, the invariant kept by each, and the
progress of a running pass. -/

namespace Sys2Proof.Machine

/-! The step by the event it takes. -/

theorem step_of_no_event {s : State} (h : s.input = []) : step s = .next s := by
  simp [step, fetch, h]

theorem step_of_instr {s : State} {w : InstrWord} {rest : List Event} {i : Instr} (h : s.input = .word w :: rest)
    (hd : decode s.mode w = .ok i) : step s = exec i (s.withInput rest) := by
  simp [step, fetch, h, hd]

theorem step_of_undecodable {s : State} {w : InstrWord} {rest : List Event} {e : DecodeError}
    (h : s.input = .word w :: rest) (hd : decode s.mode w = .error e) : step s = .refused (.undecodable e) := by
  simp [step, fetch, h, hd]

/-! The effects of a command word. -/

/-- Everything a command word can do (R105): absorbed in ERR, a start outside a pass, an error raised, a byte or an end
inside a pass. -/
inductive CommandEffect (w : CommandWord) (s : State) : State → Prop where
  | absorbed (h : s.status = .err) : CommandEffect w s s
  | encStarts (h : s.status = .idle ∨ s.status = .done) (hop : (opField w).toNat = 1) :
      CommandEffect w s (encStart s)
  | decStarts (h : s.status = .idle ∨ s.status = .done) (hop : (opField w).toNat = 2) :
      CommandEffect w s (decStart s)
  | raises (e : ErrCode) (info : BitVec 20) (h : s.status ≠ .err) (he : e ≠ .none) :
      CommandEffect w s (s.raise e info)
  | encByte (t : State) (b : Byte) (h : s.status = .enc) (hb : encByte b s = .next t) : CommandEffect w s t
  | decByte (t : State) (b : Byte) (h : s.status = .dec) (hb : decByte b s = .next t) : CommandEffect w s t
  | encEnds (t : State) (h : s.status = .enc) (he : encEnd s = .next t) : CommandEffect w s t
  | decEnds (h : s.status = .dec) : CommandEffect w s (decEnd s)

theorem reservedCommand_effect {w : CommandWord} {op : BitVec 3} {d : Byte} {s t : State}
    (h : reservedCommand op d s = .next t) : CommandEffect w s t := by
  unfold reservedCommand at h
  cases hs : s.status <;> rw [hs] at h <;> cases h
  case err => exact .absorbed hs
  all_goals exact .raises _ _ (by simp [hs]) nofun

/-- A start command outside a pass begins one; elsewhere it raises PROTOCOL or is absorbed (R105). -/
theorem startCommand_next {op : BitVec 3} {begin : State → State} {d : Byte} {s t : State}
    (h : startCommand op begin d s = .next t) :
    ((s.status = .idle ∨ s.status = .done) ∧ t = begin s) ∨ (s.status = .err ∧ t = s) ∨
      (s.status ≠ .err ∧ t = s.raise .protocol (commandInfo op d)) := by
  unfold startCommand at h
  cases hs : s.status <;> rw [hs] at h <;> cases h
  case idle => exact .inl ⟨.inl rfl, rfl⟩
  case done => exact .inl ⟨.inr rfl, rfl⟩
  case err => exact .inr (.inl ⟨rfl, rfl⟩)
  all_goals exact .inr (.inr ⟨nofun, rfl⟩)

theorem dataCommand_effect {w : CommandWord} {b : Byte} {s t : State} (h : dataCommand b s = .next t) :
    CommandEffect w s t := by
  unfold dataCommand at h
  cases hs : s.status <;> rw [hs] at h
  case enc => exact .encByte t b hs h
  case dec => exact .decByte t b hs h
  case err => cases h; exact .absorbed hs
  all_goals cases h; exact .raises _ _ (by simp [hs]) nofun

theorem endCommand_effect {w : CommandWord} {d : Byte} {s t : State} (h : endCommand d s = .next t) :
    CommandEffect w s t := by
  unfold endCommand at h
  cases hs : s.status <;> rw [hs] at h
  case enc => exact .encEnds t hs h
  case dec => cases h; exact .decEnds hs
  case err => cases h; exact .absorbed hs
  all_goals cases h; exact .raises _ _ (by simp [hs]) nofun

/-- The dispatch of R105, read as the effects a word can have. -/
theorem exec_decodeCommand_effect {st : Status} {w : CommandWord} {s t : State}
    (h : exec (decodeCommand st w) s = .next t) : CommandEffect w s t := by
  rw [exec_decodeCommand] at h
  split at h
  case h_2 hop =>
    obtain ⟨hs, rfl⟩ | ⟨hs, rfl⟩ | ⟨hs, rfl⟩ := startCommand_next h
    exacts [.encStarts hs hop, .absorbed hs, .raises _ _ hs nofun]
  case h_3 hop =>
    obtain ⟨hs, rfl⟩ | ⟨hs, rfl⟩ | ⟨hs, rfl⟩ := startCommand_next h
    exacts [.decStarts hs hop, .absorbed hs, .raises _ _ hs nofun]
  case h_4 => exact dataCommand_effect h
  case h_5 => exact endCommand_effect h
  all_goals exact reservedCommand_effect h

/-- Everything a step can do when a host's events wait. -/
theorem step_next_host {s t : State} (hh : ∀ e ∈ s.input, e.isHost = true) (h : step s = .next t) :
    (s.input = [] ∧ t = s) ∨
    (∃ rest, s.input = .reset :: rest ∧ t = (s.withInput rest).hardwareReset) ∨
    (∃ sel rest r f, s.input = .word (.rd sel) :: rest ∧ t = { s with input := rest, result := r, freeCount := f }) ∨
    (∃ w rest, s.input = .word (.cmd w) :: rest ∧ CommandEffect w (s.withInput rest) t) := by
  obtain hq | hr | ⟨w, rest, i, hi, -, -⟩ := step_next h
  · exact .inl hq
  · exact .inr (.inl hr)
  · have hw : Event.isHost (.word w) = true := hh _ (by rw [hi]; exact List.mem_cons_self)
    cases w with
    | cmd w =>
      rw [step_of_command hi] at h
      exact .inr (.inr (.inr ⟨w, rest, hi, exec_decodeCommand_effect h⟩))
    | rd sel =>
      obtain ⟨r, f, he⟩ := exec_decodeSelect sel (s.withInput rest)
      rw [step_of_select hi, he] at h
      cases h
      exact .inr (.inr (.inl ⟨sel, rest, r, f, hi, rfl⟩))
    | code c => cases hw
    | micro u ops => cases hw

/-! The invariant. -/

section
variable {s t : State}

theorem CtrlInv.no_error (h : CtrlInv s) (hs : s.status ≠ .err) : s.errcode = .none ∧ s.errinfo = 0 :=
  ⟨not_not.1 fun he => hs (h.errIff.1 he), h.noInfo hs⟩

/-- What waits behind the event taken is a host's too. -/
theorem Inv.host_tail (h : Inv s) {e : Event} {rest : List Event} (hi : s.input = e :: rest) :
    ∀ x ∈ rest, x.isHost = true :=
  (List.forall_mem_cons.1 (hi ▸ h.host)).2

/-- Events taken, a value returned and free values drawn are not what the invariant speaks of. -/
theorem Inv.observed (h : Inv s) {l : List Event} (hl : ∀ e ∈ l, e.isHost = true) (r : Result) (f : Nat) :
    Inv { s with input := l, result := r, freeCount := f } := by
  obtain ⟨hcanon, ⟨h1, h2, h3, h4, h5, h6⟩, henc, hdec, -⟩ := h
  exact ⟨hcanon, ⟨h1, h2, h3, h4, h5, h6⟩, fun hs => (henc hs).congr rfl rfl rfl rfl rfl rfl rfl,
    fun hs => (hdec hs).congr rfl rfl rfl rfl rfl rfl rfl rfl, hl⟩

theorem Inv.withInput (h : Inv s) {l : List Event} (hl : ∀ e ∈ l, e.isHost = true) : Inv (s.withInput l) :=
  h.observed hl s.result s.freeCount

/-- The reset state with a host's events waiting has the invariant: no pass runs, and only the control registers and the
canonical form are asked for. -/
theorem Inv.hardwareReset (hl : ∀ e ∈ s.input, e.isHost = true) : Inv s.hardwareReset :=
  ⟨State.canonical_of_nil rfl rfl, ⟨by simp, fun _ => rfl, fun _ => ⟨rfl, rfl⟩, by simp, nofun, nofun⟩, nofun, nofun, hl⟩

/-- A pass runs, and its own invariant holds. -/
def PassInv (s : State) : Prop := (s.status = .enc ∧ EncInv s) ∨ (s.status = .dec ∧ DecInv s)

/-- A running pass with its own invariant and no error has the whole invariant. -/
theorem PassInv.inv (h : PassInv s) (he : s.errcode = .none) (hi : s.errinfo = 0) (hst : s.started = true)
    (hh : ∀ e ∈ s.input, e.isHost = true) : Inv s := by
  obtain ⟨hs, hp⟩ | ⟨hs, hp⟩ := h
  all_goals
    have hctrl : CtrlInv s := ⟨by simp [he, hs], fun _ => hi, by simp [hs], fun _ => hst, fun _ => hp.codeSize_bounds,
      fun _ => ⟨hp.dict.low, hp.dict.high⟩⟩
    exact ⟨hp.dict.canon, hctrl, by simp [hs, hp], by simp [hs, hp], hh⟩

/-- An error entry keeps the invariant: it ends the pass and changes no register the rest speaks of (R124). -/
theorem Inv.raise (h : Inv s) {e : ErrCode} (he : e ≠ .none) (info : BitVec 20) : Inv (s.raise e info) :=
  ⟨h.canon, ⟨by simp [he], by simp, by simp, by simp, h.ctrl.sizeRange, h.ctrl.nextRange⟩, nofun, nofun, h.host⟩

/-- The end of a pass keeps the invariant. -/
theorem Inv.finish (h : Inv s) (hst : s.started = true) (hs : s.status ≠ .err) : Inv (s.setStatus .done) := by
  obtain ⟨he, hi⟩ := h.ctrl.no_error hs
  exact ⟨h.canon, ⟨by simp [he], fun _ => hi, nofun, fun _ => hst, h.ctrl.sizeRange, h.ctrl.nextRange⟩, nofun, nofun,
    h.host⟩

/-- A start outside ERR begins a pass with the whole invariant. -/
theorem Inv.encStart (h : Inv s) (hs : s.status ≠ .err) : Inv (encStart s) :=
  have ⟨he, hi⟩ := h.ctrl.no_error hs
  PassInv.inv (.inl ⟨rfl, encStart_inv s⟩) he hi rfl h.host

theorem Inv.decStart (h : Inv s) (hs : s.status ≠ .err) : Inv (decStart s) :=
  have ⟨he, hi⟩ := h.ctrl.no_error hs
  PassInv.inv (.inr ⟨rfl, decStart_inv s⟩) he hi rfl h.host

/-- What keeps the control registers and the invariant of the running pass keeps the whole invariant. -/
theorem Inv.of_passInv (h : Inv s) (hc : SameControl s t) (ht : PassInv t) : Inv t := by
  have hs : s.status = .enc ∨ s.status = .dec := ht.imp (hc.status ▸ ·.1) (hc.status ▸ ·.1)
  obtain ⟨he, hi⟩ := h.ctrl.no_error (by rcases hs with hs | hs <;> simp [hs])
  exact ht.inv (hc.errcode.trans he) (hc.errinfo.trans hi)
    (hc.started.trans (h.ctrl.running (hs.imp_right .inl))) (hc.input ▸ h.host)

theorem Inv.encByte {b : Byte} (h : Inv s) (hs : s.status = .enc) (hb : encByte b s = .next t) : Inv t :=
  have hc := encByte_sameControl (h.enc hs) hb
  h.of_passInv hc (.inl ⟨hc.status.trans hs, encByte_encInv (h.enc hs) hb⟩)

theorem Inv.decByte {b : Byte} (h : Inv s) (hs : s.status = .dec) (hb : decByte b s = .next t) : Inv t := by
  have hd := h.dec hs
  obtain ⟨bits, count, hi, ht⟩ := decByte_next_pending hd hb
  have hp : Inv (s.setPending bits count) :=
    h.of_passInv ⟨rfl, rfl, rfl, rfl, rfl⟩ (.inr ⟨hs, hi⟩)
  obtain rfl | ⟨c, hc⟩ := ht
  · exact hp
  · obtain hsame | rfl := decCode_control hc
    · exact hp.of_passInv hsame (.inr ⟨hsame.status.trans hs, decByte_decInv hd hb⟩)
    · exact hp.raise (e := .invalidCode) nofun c

theorem Inv.encEnd (h : Inv s) (hs : s.status = .enc) (he : encEnd s = .next t) : Inv t := by
  have hi := h.enc hs
  obtain ⟨bs, rfl⟩ := encEnd_next_flushed hi he
  have hp : Inv ((s.emit bs).setPending 0 0) :=
    h.of_passInv ⟨rfl, rfl, rfl, rfl, rfl⟩ (.inl ⟨hs, hi.emit_setPending bs (by omega) (by omega)⟩)
  exact hp.finish (h.ctrl.running (.inl hs)) (by simp [hs])

/-- Every effect of a command word keeps the invariant. -/
theorem CommandEffect.inv {w : CommandWord} (he : CommandEffect w s t) (h : Inv s) : Inv t := by
  cases he with
  | absorbed => exact h
  | encStarts hs => exact h.encStart (by rcases hs with hs | hs <;> simp [hs])
  | decStarts hs => exact h.decStart (by rcases hs with hs | hs <;> simp [hs])
  | raises e info _ he => exact h.raise he info
  | encByte _ b hs hb => exact h.encByte hs hb
  | decByte _ b hs hb => exact h.decByte hs hb
  | encEnds _ hs he => exact h.encEnd hs he
  | decEnds hs => exact h.finish (h.ctrl.running (.inr (.inl hs))) (by simp [hs])

/-- A step from a state with the invariant leads to a state with it. -/
theorem Inv.step (h : Inv s) (hstep : step s = .next t) : Inv t := by
  obtain ⟨-, rfl⟩ | ⟨rest, hi, rfl⟩ | ⟨sel, rest, r, f, hi, rfl⟩ | ⟨w, rest, hi, he⟩ := step_next_host h.host hstep
  · exact h
  · exact .hardwareReset (h.host_tail hi)
  · exact h.observed (h.host_tail hi) r f
  · exact he.inv (h.withInput (h.host_tail hi))

/-! The progress of a pass. -/

/-- No effect of a command word but an accepted start takes anything of the pass back. -/
theorem CommandEffect.progress {w : CommandWord} (he : CommandEffect w s t) (h : Inv s) (hst : s.started = true)
    (hw : s.status = .done → w.toNat / 256 ≠ 1 ∧ w.toNat / 256 ≠ 2) : PassProgress s t := by
  have no_idle : s.status ≠ .idle := fun hs => by
    rw [(h.ctrl.idle hs).1] at hst
    cases hst
  cases he with
  | absorbed => exact .of_out rfl rfl rfl (List.prefix_refl _) rfl
  | encStarts hs hop => exact absurd (opField_toNat w ▸ hop) (hw (hs.resolve_left no_idle)).1
  | decStarts hs hop => exact absurd (opField_toNat w ▸ hop) (hw (hs.resolve_left no_idle)).2
  | raises => exact .of_out rfl rfl rfl (List.prefix_refl _) rfl
  | encByte _ b hs hb => exact encByte_progress (h.enc hs) hb
  | decByte _ b hs hb => exact decByte_progress (h.dec hs) hb
  | encEnds _ hs he =>
    obtain ⟨bs, rfl⟩ := encEnd_next_flushed (h.enc hs) he
    exact .of_out rfl rfl rfl (List.prefix_append _ _) rfl
  | decEnds => exact .of_out rfl rfl rfl (List.prefix_refl _) rfl

/-- Over every host event but a reset and an accepted start command, nothing of the pass is taken back. -/
theorem Inv.step_progress (h : Inv s) (hst : s.started = true) {e : Event} {rest : List Event}
    (hi : s.input = e :: rest) (hne : e ≠ .reset)
    (hw : s.status = .done → ∀ w : CommandWord, e = .word (.cmd w) → w.toNat / 256 ≠ 1 ∧ w.toNat / 256 ≠ 2)
    (hstep : Machine.step s = .next t) : PassProgress s t := by
  obtain ⟨hq, -⟩ | ⟨rest', hr, -⟩ | ⟨sel, rest', r, f, -, rfl⟩ | ⟨w, rest', hc, he⟩ := step_next_host h.host hstep
  · rw [hi] at hq; cases hq
  · rw [hi] at hr; exact absurd (List.cons.inj hr).1 hne
  · exact .of_out rfl rfl rfl (List.prefix_refl _) rfl
  · have hhead : e = .word (.cmd w) := (List.cons.inj (hi.symm.trans hc)).1
    exact { he.progress (h.withInput (h.host_tail hc)) hst fun hs => hw hs w hhead with }

end

/-! ## The obligations -/

/-- Settles O45: each of the effects a host's event can have keeps the invariant. -/
theorem stepKeepsTheInvariant : Obligations.StepKeepsTheInvariant :=
  fun _ _ h hstep => h.step hstep

/-- Settles O47: the growth is the progress of the pass, the bounds are the next state's invariant. -/
theorem codeSizeAndNextCodeOnlyGrow : Obligations.CodeSizeAndNextCodeOnlyGrow := by
  intro s t e rest h hst hi hne hw hstep
  have hp := h.step_progress hst hi hne hw hstep
  have hctrl := (h.step hstep).ctrl
  have hst' := hp.started.trans hst
  exact ⟨hp.sizeLe, hp.sizeStep, (hctrl.sizeRange hst').2, hp.nextLe, hp.nextStep, (hctrl.nextRange hst').2⟩

/-- Settles O48: the progress of the pass. -/
theorem outputAndEntriesAreNeverTakenBack : Obligations.OutputAndEntriesAreNeverTakenBack := by
  intro s t e rest h hst hi hne hw hstep
  have hp := h.step_progress hst hi hne hw hstep
  exact ⟨hp.out, hp.entries⟩

/-- Settles O25: at most 7 bits and a code of at most 20, or at most 19 bits and a byte. -/
theorem pendingRegisterFitsInTwentySevenBits : Obligations.PendingRegisterFitsInTwentySevenBits := by
  refine ⟨fun s c h => ?_, fun s b h => ?_⟩
  · have hcount : s.pendingCount.toNat + s.codeSize.toNat ≤ 27 := by
      have := h.codeSize_bounds
      have := h.pending
      omega
    exact ⟨hcount, or_shift_lt_pendWMin h.clean (low_lt _ _) hcount⟩
  · have hcount : s.pendingCount.toNat + 8 ≤ 27 := by
      have := h.codeSize_bounds
      have := h.pending
      omega
    exact ⟨hcount, or_shift_lt_pendWMin h.clean b.isLt hcount⟩

/-- Settles O1: the four outcomes of the fetch. -/
theorem stepRunsTheDecodedInstruction : Obligations.StepRunsTheDecodedInstruction :=
  fun _ => ⟨step_of_no_event, fun _ h => step_of_reset h, fun _ _ _ h hd => step_of_instr h hd,
    fun _ _ _ h hd => step_of_undecodable h hd⟩

/-- Settles O8: the reset event leads to the hardware reset, whose registers are R35's. -/
theorem resetLeavesTheSpecifiedValues : Obligations.ResetLeavesTheSpecifiedValues :=
  ⟨⟨rfl, rfl, rfl, rfl⟩, fun _ _ h => ⟨_, step_of_reset h, rfl, rfl, rfl, rfl, rfl, rfl, rfl⟩⟩

/-- Settles O44: the reset state is the hardware reset of itself. -/
theorem resetHasTheInvariant : Obligations.ResetHasTheInvariant :=
  ⟨Inv.hardwareReset (s := State.reset) nofun, fun _ h => .hardwareReset h⟩

end Sys2Proof.Machine
end

section
/-! PROOFS, part 4. Every step keeps ENT and LK in canonical form: of the operations only DICT_APPEND writes a memory and
only DICT_INIT and the reset empty both; everything else leaves them alone. -/

namespace Sys2Proof.Machine

section
variable {s t : State}

/-! The bit packer and the reads leave both memories alone. -/

theorem bpWrite_canonical {c : Code} {w : BitVec 5} (hc : s.canonical) (h : bpWrite c w s = .next t) :
    t.canonical := by
  obtain ⟨-, -, -, rfl⟩ := bpWrite_next h
  exact hc

theorem bpFeed_canonical {b : Byte} (hc : s.canonical) (h : bpFeed b s = .next t) : t.canonical := by
  obtain ⟨-, rfl⟩ := bpFeed_next h
  exact hc

theorem bpRead_canonical {w : BitVec 5} {r : State × Option Code} (hc : s.canonical) (h : bpRead w s = .next r) :
    r.1.canonical := by
  obtain ⟨-, -, ⟨-, rfl⟩ | ⟨-, rfl⟩⟩ := bpRead_next h
  · exact hc
  · exact hc

theorem bpFlush_canonical (hc : s.canonical) (h : bpFlush s = .next t) : t.canonical := by
  obtain ⟨-, ⟨-, rfl⟩ | ⟨-, rfl⟩⟩ := bpFlush_next h
  · exact hc
  · exact hc

theorem encEmit_canonical (hc : s.canonical) (h : encEmit s = .next t) : t.canonical := by
  obtain ⟨-, rfl⟩ | ⟨p, -, hw⟩ := encEmit_next h
  · exact hc
  · exact bpWrite_canonical hc hw

theorem progressRead_canonical {w : Nat} (hc : s.canonical) (v : BitVec w) (free : Nat → BitVec w) :
    (progressRead v free s).canonical := by
  unfold progressRead
  split
  · exact hc
  · exact hc

/-! The append writes the memories in canonical form; its callers write them no other way. -/

theorem dictAppend_canonical {l : Bool} {p : CodeOrNone} {b : Byte} {r : State × Code} (hc : s.canonical)
    (h : dictAppend l p b s = .next r) : r.1.canonical := by
  obtain ⟨q, -, -, -, rfl⟩ := dictAppend_next_appended h
  exact appended_canonical l q b hc

theorem encCreate_canonical {b : Byte} (hc : s.canonical) (h : encCreate b s = .next t) : t.canonical := by
  obtain ⟨-, rfl⟩ | ⟨-, p, -, -, rfl⟩ := encCreate_next_appended h
  · exact hc
  · exact appended_canonical true p b hc

theorem encByte_canonical {b : Byte} (hc : s.canonical) (h : encByte b s = .next t) : t.canonical := by
  obtain ⟨m, -, rfl⟩ | ⟨-, s1, s2, hemit, hcreate, rfl⟩ := encByte_next h
  · exact hc
  · have hs2 : s2.canonical := encCreate_canonical (encEmit_canonical hc hemit) hcreate
    exact hs2

theorem encEnd_canonical (hc : s.canonical) (h : encEnd s = .next t) : t.canonical := by
  obtain ⟨s1, s2, hemit, hflush, rfl⟩ := encEnd_next h
  have hs2 : s2.canonical := bpFlush_canonical (encEmit_canonical hc hemit) hflush
  exact hs2

theorem decUpdate_canonical {fb : Byte} (hc : s.canonical) (h : decUpdate fb s = .next t) : t.canonical := by
  obtain ⟨-, rfl⟩ | ⟨-, p, -, -, rfl⟩ := decUpdate_next_appended h
  · exact hc
  · exact appended_canonical false p fb hc

theorem decUpdateCommit_canonical {c : Code} {str : List Byte} (hc : s.canonical)
    (h : decUpdateCommit c str s = .next t) : t.canonical := by
  obtain ⟨fb, rest, s1, -, hu, rfl⟩ := decUpdateCommit_next h
  have hs1 : s1.canonical := decUpdate_canonical hc hu
  exact hs1

theorem decCode_canonical {c : Code} (hc : s.canonical) (h : decCode c s = .next t) : t.canonical := by
  obtain ⟨-, str, -, rfl⟩ | ⟨-, b0, rest, -, hu⟩ | ⟨-, str, -, hu⟩ | ⟨-, rfl⟩ := decCode_next h
  · exact hc
  · exact decUpdateCommit_canonical hc hu
  · exact decUpdateCommit_canonical hc hu
  · exact hc

theorem decByte_canonical {b : Byte} (hc : s.canonical) (h : decByte b s = .next t) : t.canonical := by
  obtain ⟨s1, r, hfeed, hread, hcode⟩ := decByte_next h
  have hr : r.1.canonical := bpRead_canonical (bpFeed_canonical hc hfeed) hread
  obtain ⟨-, rfl⟩ | ⟨c, -, hcode⟩ := hcode
  · exact hr
  · exact decCode_canonical hr hcode

/-- A code runs as a step of a trace only inside a decode pass (log entry 14). -/
theorem decCodeInPass_next {c : Code} (h : decCodeInPass c s = .next t) : s.status = .dec ∧ decCode c s = .next t := by
  unfold decCodeInPass at h
  split at h
  case h_1 hs => exact ⟨hs, h⟩
  all_goals cases h

/-! The commands. -/

theorem encStart_canonical (s : State) : (encStart s).canonical := State.canonical_of_nil rfl rfl

theorem decStart_canonical (s : State) : (decStart s).canonical := State.canonical_of_nil rfl rfl

theorem startCommand_canonical {op : BitVec 3} {begin : State → State} {d : Byte} (hb : ∀ s, (begin s).canonical)
    (hc : s.canonical) (h : startCommand op begin d s = .next t) : t.canonical := by
  obtain ⟨-, rfl⟩ | ⟨-, rfl⟩ | ⟨-, rfl⟩ := startCommand_next h
  · exact hb s
  · exact hc
  · exact hc

/-- Every effect of a command word keeps the canonical form. -/
theorem CommandEffect.canonical {w : CommandWord} (he : CommandEffect w s t) (hc : s.canonical) : t.canonical := by
  cases he with
  | absorbed => exact hc
  | encStarts => exact encStart_canonical s
  | decStarts => exact decStart_canonical s
  | raises => exact hc
  | encByte _ _ _ hb => exact encByte_canonical hc hb
  | decByte _ _ _ hb => exact decByte_canonical hc hb
  | encEnds _ _ he => exact encEnd_canonical hc he
  | decEnds => exact hc

/-! The dispatch. -/

/-- Every instruction, run in any state, keeps the canonical form. -/
theorem exec_canonical {i : Instr} (hc : s.canonical) (h : exec i s = .next t) : t.canonical := by
  cases i with
  | encStart => exact startCommand_canonical encStart_canonical hc h
  | decStart => exact startCommand_canonical decStart_canonical hc h
  | dataEncByte b | dataDecByte b | dataOutside b => exact (dataCommand_effect (w := commandWord 3 b) h).canonical hc
  | endEncEnd d | endDecEnd d | endOutside d => exact (endCommand_effect (w := commandWord 4 d) h).canonical hc
  | reserved0 d => exact (reservedCommand_effect (w := commandWord 0 d) h).canonical hc
  | reserved5 d => exact (reservedCommand_effect (w := commandWord 5 d) h).canonical hc
  | reserved6 d => exact (reservedCommand_effect (w := commandWord 6 d) h).canonical hc
  | reserved7 d => exact (reservedCommand_effect (w := commandWord 7 d) h).canonical hc
  | decCodeFirst | decCodeKwkwk | decCodeLookup | decCodeInvalid =>
    exact decCode_canonical hc (decCodeInPass_next h).2
  | dictInit => cases h; exact State.canonical_of_nil rfl rfl
  | dictAppend =>
    obtain ⟨r, hr, h⟩ := andThen_eq_next.1 h
    cases h
    exact dictAppend_canonical hc hr
  | dictReconstruct =>
    obtain ⟨str, -, h⟩ := andThen_eq_next.1 h
    cases h
    exact hc
  | bpWrite => exact bpWrite_canonical hc h
  | bpFeed => exact bpFeed_canonical hc h
  | bpRead =>
    obtain ⟨r, hr, h⟩ := andThen_eq_next.1 h
    cases h
    exact bpRead_canonical hc hr
  | bpFlush => exact bpFlush_canonical hc h
  | rdCodesize | rdNextcode => cases h; exact progressRead_canonical hc _ _
  | dictLookup | bpInit | rdStatus | rdErrcode | rdErrinfo | rdReserved5 | rdReserved6 | rdReserved7 =>
    cases h
    exact hc

theorem step_canonical (hc : s.canonical) (h : step s = .next t) : t.canonical := by
  obtain ⟨-, rfl⟩ | ⟨rest, -, rfl⟩ | ⟨w, rest, i, -, -, hexec⟩ := step_next h
  · exact hc
  · exact State.canonical_of_nil rfl rfl
  · exact exec_canonical (s := s.withInput rest) hc hexec

end

/-! ## The obligations -/

/-- Settles O43: the fetch touches no memory, the reset empties both, and every instruction keeps the form. -/
theorem stepKeepsTheMemoriesCanonical : Obligations.StepKeepsTheMemoriesCanonical :=
  fun _ _ hc h => step_canonical hc h

end Sys2Proof.Machine
end

section
/-! PROOFS, part 5. The encodings: the two fields of a command word, the CodeOrNone patterns, the classes of a code, and
with them both directions of decoder and encoder. -/

namespace Sys2Proof

open Machine

/-! Command words. -/

theorem ofNat_eq_commandWord (op : BitVec 3) (d : Byte) :
    BitVec.ofNat 11 (op.toNat * 256 + d.toNat) = commandWord op d := by
  rw [← commandWord_toNat, BitVec.ofNat_toNat, BitVec.setWidth_eq]

/-- A command word whose `op` field is known is that operation with the word's data. -/
theorem commandWord_of_op {w : CommandWord} {op : BitVec 3} (h : (opField w).toNat = op.toNat) :
    commandWord op (dataField w) = w := by
  rw [← BitVec.eq_of_toNat_eq h, commandWord_fields]

/-! The CodeOrNone format. -/

/-- The pattern of a code (R60): bit 20 clear, the code below it. -/
theorem codeOrNoneOfBits_of_lt {b : BitVec 21} (h : b.toNat < 2 ^ 20) :
    codeOrNoneOfBits b = .ok (some (b.extractLsb' 0 20)) := by
  have hbit : b.getLsbD 20 = false := Nat.testBit_lt_two_pow h
  simp only [codeOrNoneOfBits, hbit, Bool.false_eq_true, if_false]

/-- Bit 20 set (R60): `None` when nothing stands below it, else a pattern that is never produced. -/
theorem codeOrNoneOfBits_of_le {b : BitVec 21} (h : 2 ^ 20 ≤ b.toNat) :
    codeOrNoneOfBits b = if b.toNat = 2 ^ 20 then .ok none else .error (.codeOrNonePattern b) := by
  have hb := b.isLt
  have hbit : b.getLsbD 20 = true := by
    rw [BitVec.getLsbD, Nat.testBit_eq_decide_div_mod_eq, decide_eq_true_eq]
    omega
  have hlow : b.extractLsb' 0 20 = 0#20 ↔ b.toNat = 2 ^ 20 := by
    rw [← BitVec.toNat_inj, BitVec.extractLsb'_toNat, Nat.shiftRight_zero, BitVec.toNat_zero]
    omega
  simp only [codeOrNoneOfBits, hbit, hlow, if_true]

/-- Reading back a pattern gives the CodeOrNone it was made of. -/
@[simp] theorem codeOrNoneOfBits_codeOrNoneBits (p : CodeOrNone) : codeOrNoneOfBits (codeOrNoneBits p) = .ok p := by
  cases p with
  | none => rw [codeOrNoneOfBits_of_le (by simp), codeOrNoneBits_none_toNat, if_pos rfl]
  | some c =>
    have hc := c.isLt
    rw [codeOrNoneOfBits_of_lt (by simpa using hc)]
    refine congrArg (fun c => Except.ok (some c)) (BitVec.eq_of_toNat_eq ?_)
    rw [BitVec.extractLsb'_toNat, codeOrNoneBits_some_toNat, Nat.shiftRight_zero, Nat.mod_eq_of_lt hc]

/-- A pattern that reads back is the pattern of what it gives. -/
theorem codeOrNoneBits_of_ok {b : BitVec 21} {p : CodeOrNone} (h : codeOrNoneOfBits b = .ok p) :
    codeOrNoneBits p = b := by
  apply BitVec.eq_of_toNat_eq
  rcases Nat.lt_or_ge b.toNat (2 ^ 20) with hb | hb
  · rw [codeOrNoneOfBits_of_lt hb] at h
    cases h
    rw [codeOrNoneBits_some_toNat, BitVec.extractLsb'_toNat, Nat.shiftRight_zero, Nat.mod_eq_of_lt hb]
  · rw [codeOrNoneOfBits_of_le hb] at h
    split at h
    · next he => cases h; rw [codeOrNoneBits_none_toNat, he]
    · cases h

/-! The classes of a code: each is the condition of its row (R94). -/

section
variable (m : Mode) (c : Code)

theorem selectedIn_decCodeFirst : (Instr.decCodeFirst c).selectedIn m = true ↔ classify m c = .first := by
  cases h : m.oldCode <;> grind [Instr.selectedIn, classify]

theorem selectedIn_decCodeKwkwk : (Instr.decCodeKwkwk c).selectedIn m = true ↔ classify m c = .kwkwk := by
  cases h : m.oldCode <;> grind [Instr.selectedIn, classify]

theorem selectedIn_decCodeLookup : (Instr.decCodeLookup c).selectedIn m = true ↔ classify m c = .lookup := by
  cases h : m.oldCode <;> grind [Instr.selectedIn, classify]

theorem selectedIn_decCodeInvalid : (Instr.decCodeInvalid c).selectedIn m = true ↔ classify m c = .invalid := by
  cases h : m.oldCode <;> grind [Instr.selectedIn, classify]

end

/-- A value mapped is answered exactly when one is. -/
theorem except_map_eq_ok {ε α β : Type} {f : α → β} {x : Except ε α} {y : β} :
    x.map f = .ok y ↔ ∃ a, x = .ok a ∧ f a = y := by
  cases x <;> simp [Except.map]

/-! What decodes to an instruction, format by format. -/

section
variable (m : Mode)

/-- Format C: the rows of one operation share its word, and the status selects the row decoded. -/
theorem encode_decodeCommand (w : CommandWord) :
    encode (decodeCommand m.status w) = .cmd w ∧ (decodeCommand m.status w).selectedIn m = true := by
  have word {op : BitVec 3} (h : (opField w).toNat = op.toNat) :
      InstrWord.cmd (commandWord op (dataField w)) = .cmd w :=
    congrArg _ (commandWord_of_op h)
  have hlt := (opField w).isLt
  unfold decodeCommand
  split
  case h_1 h => exact ⟨word h, rfl⟩
  case h_2 h => exact ⟨word h, rfl⟩
  case h_3 h => exact ⟨word h, rfl⟩
  case h_4 h => split <;> exact ⟨word h, by simp [Instr.selectedIn, *]⟩
  case h_5 h => split <;> exact ⟨word h, by simp [Instr.selectedIn, *]⟩
  case h_6 h => exact ⟨word h, rfl⟩
  case h_7 h => exact ⟨word h, rfl⟩
  case h_8 =>
    have hop : (opField w).toNat = 7 := by grind
    exact ⟨word (op := 7) hop, rfl⟩

/-- Format S. -/
theorem encode_decodeSelect (sel : BitVec 3) :
    encode (decodeSelect sel) = .rd sel ∧ (decodeSelect sel).selectedIn m = true := by
  constructor
  · revert sel
    decide
  · unfold decodeSelect
    split <;> rfl

/-- Format K. -/
theorem encode_decodeCode (c : Code) :
    encode (decodeCode m c) = .code c ∧ (decodeCode m c).selectedIn m = true := by
  unfold decodeCode
  split
  case h_1 h => exact ⟨rfl, (selectedIn_decCodeFirst m c).2 h⟩
  case h_2 h => exact ⟨rfl, (selectedIn_decCodeKwkwk m c).2 h⟩
  case h_3 h => exact ⟨rfl, (selectedIn_decCodeLookup m c).2 h⟩
  case h_4 h => exact ⟨rfl, (selectedIn_decCodeInvalid m c).2 h⟩

/-- Format U. -/
theorem encode_of_decodeMicro {u : BitVec 4} {ops : MicroOperands} {i : Instr} (h : decodeMicro u ops = .ok i) :
    encode i = .micro u ops ∧ i.selectedIn m = true := by
  have word {v : BitVec 4} (hv : u.toNat = v.toNat) : InstrWord.micro v ops = .micro u ops :=
    congrArg (InstrWord.micro · ops) (BitVec.eq_of_toNat_eq hv.symm)
  unfold decodeMicro at h
  split at h
  case h_2 hu | h_3 hu =>
    split at h
    · obtain ⟨q, hq, rfl⟩ := except_map_eq_ok.1 h
      exact ⟨by rw [encode, codeOrNoneBits_of_ok hq]; exact word hu, rfl⟩
    · cases h
  case h_10 => cases h
  all_goals
    next hu =>
    split at h
    · cases h
      exact ⟨word hu, rfl⟩
    · cases h

end

/-! ## The obligations -/

/-- Settles O2: a command word's fields and a CodeOrNone pattern read back, and a code's row is its class. -/
theorem decodeOfEncodeIsTheInstruction : Obligations.DecodeOfEncodeIsTheInstruction := by
  intro m i h
  cases i with
  | encStart | decStart | reserved0 | reserved5 | reserved6 | reserved7 => simp [encode, decode, decodeCommand]
  | dataEncByte | dataDecByte | endEncEnd | endDecEnd =>
    have hs := of_decide_eq_true h
    simp [encode, decode, decodeCommand, hs]
  | dataOutside | endOutside =>
    obtain ⟨henc, hdec⟩ : m.status ≠ .enc ∧ m.status ≠ .dec := by simpa [Instr.selectedIn] using h
    cases hs : m.status <;> simp_all [encode, decode, decodeCommand]
  | decCodeFirst => rw [selectedIn_decCodeFirst] at h; simp [encode, decode, decodeCode, h]
  | decCodeKwkwk => rw [selectedIn_decCodeKwkwk] at h; simp [encode, decode, decodeCode, h]
  | decCodeLookup => rw [selectedIn_decCodeLookup] at h; simp [encode, decode, decodeCode, h]
  | decCodeInvalid => rw [selectedIn_decCodeInvalid] at h; simp [encode, decode, decodeCode, h]
  | dictAppend | dictLookup => simp [encode, decode, decodeMicro, Except.map]
  | dictInit | dictReconstruct | bpInit | bpWrite | bpFeed | bpRead | bpFlush => rfl
  | rdStatus | rdErrcode | rdErrinfo | rdCodesize | rdNextcode | rdReserved5 | rdReserved6 | rdReserved7 => rfl

/-- Settles O3: each format by its own table. -/
theorem encodeOfDecodeIsTheWord : Obligations.EncodeOfDecodeIsTheWord := by
  intro m w i h
  cases w with
  | cmd w => cases h; exact encode_decodeCommand m w
  | rd sel => cases h; exact encode_decodeSelect m sel
  | code c => cases h; exact encode_decodeCode m c
  | micro u ops => exact encode_of_decodeMicro m h

/-- Settles O4: a command word is `256 * op + data`, and the eight selects are the table's. -/
theorem commandFieldsAreWhereTheTablePutsThem : Obligations.CommandFieldsAreWhereTheTablePutsThem := by
  intro m d
  have word (op : BitVec 3) {i : Instr} (h : decodeCommand m.status (commandWord op d) = i) :
      decode m (.cmd (BitVec.ofNat 11 (op.toNat * 256 + d.toNat))) = .ok i := by
    rw [ofNat_eq_commandWord, decode, h]
  have hzero : 0 * 256 + d.toNat = d.toNat := by omega
  refine ⟨word 1 ?_, word 2 ?_, hzero ▸ word 0 ?_, word 5 ?_, word 6 ?_, word 7 ?_, word 3 ?_, word 4 ?_, rfl, rfl, rfl,
    rfl, rfl, rfl, rfl, rfl⟩
  case refine_7 | refine_8 => cases hs : m.status <;> simp [decodeCommand]
  all_goals simp [decodeCommand]

/-- Settles O5: by evaluation of the seven words. -/
theorem wordsOfTheSpecDecode : Obligations.WordsOfTheSpecDecode :=
  ⟨rfl, rfl, rfl, rfl, rfl, rfl, rfl⟩

/-- Settles O6: the formats' values, and the patterns on both sides of bit 20. -/
theorem entryAndKeyFormats : Obligations.EntryAndKeyFormats :=
  ⟨codeOrNoneBits_none_toNat, codeOrNoneBits_some_toNat, entryBits_toNat, fun _ _ => rfl,
    codeOrNoneOfBits_codeOrNoneBits, fun _ h => by rw [codeOrNoneOfBits_of_le h.le, if_neg h.ne']⟩

/-- Settles O52: a CodeOrNone pattern reads back; the rest is the table. -/
theorem microOperationIdentifiersAreTheTables : Obligations.MicroOperationIdentifiersAreTheTables := by
  intro m p c b w l
  refine ⟨rfl, ?_, ?_, rfl, rfl, rfl, rfl, rfl, rfl⟩ <;> simp [decode, decodeMicro, Except.map]

end Sys2Proof
end

section
/-! PROOFS, part 6. The status reads: the value on the port is the register's, zero-extended. -/

namespace Sys2Proof.Machine

/-- A register of at most 21 bits is read without loss (R64). -/
theorem setWidth_port_toNat {w : Nat} (v : BitVec w) (h : w ≤ 21) : (v.setWidth 21 : PortWord).toNat = v.toNat := by
  rw [BitVec.toNat_setWidth, Nat.mod_eq_of_lt (v.isLt.trans_le (Nat.pow_le_pow_right (by omega) h))]

section
variable {w : Nat} (v : BitVec w) (free : Nat → BitVec w) {s : State}

theorem progressRead_specified (h : s.started = true) : progressRead v free s = portRead v s := if_pos h

theorem progressRead_unspecified (h : s.started = false) :
    progressRead v free s = (portRead (free s.freeCount) s).drawn :=
  if_neg (by simp [State.progressSpecified, h])

end

theorem statusBits_toNat (st : Status) :
    (statusBits st).toNat = match st with | .idle => 0 | .enc => 1 | .dec => 2 | .done => 3 | .err => 4 := by
  cases st <;> rfl

theorem errcodeBits_toNat (e : ErrCode) :
    (errcodeBits e).toNat = match e with | .none => 0 | .invalidCode => 1 | .protocol => 2 | .illegalCmd => 3 := by
  cases e <;> rfl

/-! ## The obligations -/

/-- Settles O15: every register is narrower than the port. -/
theorem statusReadsReturnTheRegisters : Obligations.StatusReadsReturnTheRegisters := by
  intro s
  exact ⟨⟨_, rfl, (setWidth_port_toNat _ (by omega)).trans (statusBits_toNat _)⟩,
    ⟨_, rfl, (setWidth_port_toNat _ (by omega)).trans (errcodeBits_toNat _)⟩,
    ⟨_, rfl, setWidth_port_toNat _ (by omega)⟩,
    fun h => ⟨_, congrArg _ (progressRead_specified _ _ h), setWidth_port_toNat _ (by omega)⟩,
    fun h => ⟨_, congrArg _ (progressRead_specified _ _ h), setWidth_port_toNat _ (by omega)⟩, rfl, rfl, rfl⟩

/-- Settles O16: the value is the free value drawn, of the register's width. -/
theorem progressReadsBeforeAStartAreUnspecified : Obligations.ProgressReadsBeforeAStartAreUnspecified := by
  intro s h
  refine ⟨⟨_, ?_, congrArg _ (progressRead_unspecified _ _ h)⟩, ⟨_, congrArg _ (progressRead_unspecified _ _ h)⟩⟩
  rw [setWidth_port_toNat _ (by omega)]
  exact BitVec.isLt _

end Sys2Proof.Machine
end

section
/-! PROOFS, part 7. The packed stream: the table of the width schedule, what BP_WRITE and BP_FLUSH do to the stream's
bits, and the encode pass as the writer of the codes whose strings are its input. -/

namespace Sys2Proof.Machine

/-! The width schedule (R57). -/

theorem widthFor_eq_of_pow {n w : Nat} (h1 : 10 ≤ w) (h2 : w ≤ 19) (hlo : 2 ^ (w - 1) ≤ n) (hhi : n < 2 ^ w) :
    widthFor n = w := by
  have hn : n ≠ 0 := (Nat.two_pow_pos _).trans_le hlo |>.ne'
  have hle := (widthFor_le_iff hn (by omega) (by omega)).2 hhi
  have hgt := mt (widthFor_le_iff (w := w - 1) hn (by omega) (by omega)).1 hlo.not_gt
  omega

theorem widthFor_eq_twenty {n : Nat} (h : 2 ^ 19 ≤ n) : widthFor n = 20 := by
  have hgt := mt (widthFor_le_iff (n := n) (w := 19) (by omega) (by omega) (by omega)).1 h.not_gt
  have := widthFor_bounds n
  omega

/-! The bits of the stream. -/

section
variable {s t : State}

/-- BP_WRITE appends the code's low bits to the stream (R79, R42). -/
theorem bpWrite_next_streamBits {c : Code} {w : BitVec 5} (h : bpWrite c w s = .next t) (hc : s.pendingClean) :
    t.streamBits = s.streamBits ++ lsbBits w.toNat c.toNat := by
  obtain ⟨-, hw, -, rfl⟩ := bpWrite_next h
  set n := s.pendingCount.toNat
  set bits := s.pendingBits ||| (low w.toNat c.toNat <<< n)
  set k := (n + w.toNat) / 8
  have hcount : (BitVec.ofNat 5 (n + w.toNat - 8 * k)).toNat = n + w.toNat - 8 * k := count_ofNat_toNat (by omega)
  calc byteBits (s.out ++ peelBytes k bits) ++ lsbBits (BitVec.ofNat 5 (n + w.toNat - 8 * k)).toNat (bits >>> (8 * k))
      = byteBits s.out ++ lsbBits (8 * k + (n + w.toNat - 8 * k)) bits := by
        rw [hcount, byteBits_append, List.append_assoc, byteBits_peelBytes]
    _ = byteBits s.out ++ (lsbBits n s.pendingBits ++ lsbBits w.toNat c.toNat) := by
        rw [Nat.add_sub_cancel' (by omega), lsbBits_or_shift hc, lsbBits_low]
    _ = s.streamBits ++ lsbBits w.toNat c.toNat := (List.append_assoc _ _ _).symm

/-- BP_FLUSH pads the stream with zeros to the next byte (R82). -/
theorem bpFlush_next_padded (h : bpFlush s = .next t) (hc : s.pendingClean) :
    ∃ pad, pad < 8 ∧ byteBits t.out = s.streamBits ++ List.replicate pad false := by
  obtain ⟨hle, ⟨h0, rfl⟩ | ⟨hpos, rfl⟩⟩ := bpFlush_next h
  · exact ⟨0, by omega, by simp [State.streamBits, State.pendingList, h0]⟩
  · have hzero : s.pendingBits >>> s.pendingCount.toNat = 0 :=
      Nat.lt_one_iff.1 (by simpa using shiftRight_lt hc le_rfl)
    have hbyte : lsbBits 8 (lowByte s.pendingBits).toNat =
        s.pendingList ++ List.replicate (8 - s.pendingCount.toNat) false := by
      rw [lowByte_toNat, lsbBits_low, ← lsbBits_zero, ← hzero, State.pendingList, ← lsbBits_add,
        Nat.add_sub_cancel' (by omega)]
    refine ⟨8 - s.pendingCount.toNat, by omega, ?_⟩
    simp [State.streamBits, hbyte]

theorem bpFlush_completes (h : s.pendingCount.toNat ≤ 7) : ∃ t, bpFlush s = .next t := by
  rcases Nat.eq_zero_or_pos s.pendingCount.toNat with h0 | h0
  · exact ⟨_, bpFlush_empty h0⟩
  · exact ⟨_, bpFlush_some h0 h⟩

theorem bpFlush_progress (h : bpFlush s = .next t) : PassProgress s t := by
  obtain ⟨-, ⟨-, rfl⟩ | ⟨-, rfl⟩⟩ := bpFlush_next h
  · exact .of_out rfl rfl rfl (List.prefix_refl _) rfl
  · exact .of_out rfl rfl rfl (List.prefix_append _ _) rfl

theorem encCreate_streamBits {b : Byte} (h : encCreate b s = .next t) : t.streamBits = s.streamBits := by
  obtain ⟨-, rfl⟩ | ⟨-, p, -, -, rfl⟩ := encCreate_next_appended h <;> rfl

theorem encCreate_nextCode {b : Byte} (h : encCreate b s = .next t) (hle : s.nextCode.toNat ≤ 2 ^ 20) :
    t.nextCode.toNat = min (s.nextCode.toNat + 1) (2 ^ 20) := by
  obtain ⟨hfull, rfl⟩ | ⟨hn, p, -, -, rfl⟩ := encCreate_next_appended h
  · omega
  · exact (appended_nextCode_toNat true p b hn).trans (by omega)

/-- ENC_BYTE's creating half completes when the match is an entry. -/
theorem encCreate_completes {b : Byte} {p : Code} (hp : s.prefixCode = some p) (hlt : p.toNat < s.nextCode.toNat) :
    ∃ t, encCreate b s = .next t := by
  unfold encCreate
  split
  · next hc =>
    rw [hp, dictAppend_eq (of_decide_eq_true hc) hlt]
    exact ⟨_, rfl⟩
  · exact ⟨s, rfl⟩

end

/-! The codes of a stream and their strings. -/

/-- The codes' bits at the widths `W(1), W(2), …`, each LSB first (R54, R57). -/
def codesBits (codes : List Code) : List Bool :=
  (codes.zipIdx 1).flatMap fun x => lsbBits (widthSchedule x.2) x.1.toNat

/-- Each code fits its width. -/
def CodesFit (codes : List Code) : Prop := ∀ x ∈ codes.zipIdx 1, x.1.toNat < 2 ^ widthSchedule x.2

theorem codesBits_concat (codes : List Code) (c : Code) :
    codesBits (codes ++ [c]) = codesBits codes ++ lsbBits (widthSchedule (codes.length + 1)) c.toNat := by
  simp [codesBits, List.zipIdx_append, Nat.add_comm]

theorem CodesFit.concat {codes : List Code} {c : Code} (h : CodesFit codes)
    (hc : c.toNat < 2 ^ widthSchedule (codes.length + 1)) : CodesFit (codes ++ [c]) := by
  intro x hx
  rw [List.zipIdx_append, List.mem_append] at hx
  obtain hx | hx := hx
  · exact h x hx
  · rw [List.zipIdx_singleton, List.mem_singleton] at hx
    rw [hx, Nat.add_comm]
    exact hc

/-- The dictionary's strings of the codes, in order (R75). -/
def StringsOf (s : State) (codes : List Code) (strs : List (List Byte)) : Prop :=
  List.Forall₂ (fun c str => dictReconstruct c s = .next str) codes strs

theorem StringsOf.map_eq {s : State} {codes : List Code} {strs : List (List Byte)} (h : StringsOf s codes strs) :
    codes.map (fun c => dictReconstruct c s) = strs.map .next := by
  rw [← List.forall₂_eq_eq_eq, List.forall₂_map_left_iff, List.forall₂_map_right_iff]
  exact h

/-- What takes nothing of the pass back leaves the strings. -/
theorem StringsOf.of_progress {s t : State} {codes : List Code} {strs : List (List Byte)} (h : StringsOf s codes strs)
    (hd : DictInv s) (hp : PassProgress s t) : StringsOf t codes strs :=
  h.imp fun _ _ hr => hd.reconstruct_extends hp.entries hp.nextLe hr

/-- The string of a match: nothing before the first byte of a pass, else the code's (R86). -/
def prefixString (p : CodeOrNone) (s : State) : Answer (List Byte) :=
  match p with
  | none => .next []
  | some q => dictReconstruct q s

/-- The string of an entry is its `pfx`'s string with its byte (R26, R75). -/
theorem DictInv.reconstruct_entry {s : State} (h : DictInv s) {c : Code} {p : CodeOrNone} {b : Byte} {str : List Byte}
    (he : s.entRead c = some { pfx := p, byte := b }) (hp : prefixString p s = .next str) :
    dictReconstruct c s = .next (str ++ [b]) := by
  cases p with
  | none =>
    cases hp
    have hlt := State.entRead_lt he
    obtain ⟨n, hn⟩ : ∃ n, s.nextCode.toNat = n + 1 := ⟨s.nextCode.toNat - 1, by omega⟩
    rw [dictReconstruct_eq hlt, hn, chainWalk_root he]
    rfl
  | some q => exact h.reconstruct_dynamic he hp

theorem DictInv.entRead_rootCode {s : State} (h : DictInv s) (b : Byte) :
    s.entRead (rootCode b) = some { pfx := none, byte := b } := by
  rw [h.entRead_root (by rw [rootCode_toNat]; exact b.isLt), rootCode_toNat, BitVec.ofNat_toNat, BitVec.setWidth_eq]

/-! The encode pass. -/

/-- The codes written so far fill the stream, each at its width, and have these strings. -/
structure CodesWritten (codes : List Code) (strs : List (List Byte)) (s : State) : Prop where
  bits    : s.streamBits = codesBits codes
  fit     : CodesFit codes
  strings : StringsOf s codes strs

/-- An encode pass that has taken these bytes: the strings of the codes written, then the match, are the bytes, and
`nextCode` counts the codes up to the cap. -/
structure EncodedSoFar (bytes : List Byte) (codes : List Code) (strs : List (List Byte)) (s : State) : Prop where
  status  : s.status = .enc
  inv     : EncInv s
  next    : s.nextCode.toNat = min (256 + codes.length) (2 ^ 20)
  written : CodesWritten codes strs s
  input   : ∃ tail, prefixString s.prefixCode s = .next tail ∧ strs.flatten ++ tail = bytes

/-- A finished encode pass: OUT is the codes' bits and the padding, and the strings are the bytes. -/
structure PackedStream (bytes : List Byte) (codes : List Code) (strs : List (List Byte)) (t : State) : Prop where
  status  : t.status = .done
  bits    : ∃ pad, pad < 8 ∧ byteBits t.out = codesBits codes ++ List.replicate pad false
  fit     : CodesFit codes
  strings : StringsOf t codes strs
  input   : strs.flatten = bytes

theorem CodesWritten.of_progress {codes : List Code} {strs : List (List Byte)} {s t : State}
    (h : CodesWritten codes strs s) (hd : DictInv s) (hp : PassProgress s t) (hb : t.streamBits = s.streamBits) :
    CodesWritten codes strs t :=
  ⟨hb.trans h.bits, h.fit, h.strings.of_progress hd hp⟩

theorem encStart_encodedSoFar (s : State) : EncodedSoFar [] [] [] (encStart s) :=
  ⟨rfl, encStart_inv s, rfl, ⟨rfl, nofun, .nil⟩, [], rfl, rfl⟩

section
variable {bytes : List Byte} {codes : List Code} {strs : List (List Byte)} {s t : State}

theorem EncodedSoFar.withInput (h : EncodedSoFar bytes codes strs s) (l : List Event) :
    EncodedSoFar bytes codes strs (s.withInput l) := by
  have hp : PassProgress s (s.withInput l) := .of_out rfl rfl rfl (List.prefix_refl _) rfl
  refine ⟨h.status, h.inv.congr rfl rfl rfl rfl rfl rfl rfl, h.next, h.written.of_progress h.inv.dict hp rfl, ?_⟩
  obtain ⟨tail, ht, hb⟩ := h.input
  refine ⟨tail, ?_, hb⟩
  rw [State.withInput_prefixCode]
  cases hq : s.prefixCode with
  | none => rw [hq] at ht; exact ht
  | some q => rw [hq] at ht; exact h.inv.dict.reconstruct_extends hp.entries hp.nextLe ht

/-- The register `codeSize` is the width of the next code of the stream (R33 I3, R57). -/
theorem EncodedSoFar.codeSize_eq (h : EncodedSoFar bytes codes strs s) :
    s.codeSize.toNat = widthSchedule (codes.length + 1) := by
  rw [h.inv.width, h.next, widthSchedule]
  rcases Nat.le_total (256 + codes.length) (2 ^ 20) with hle | hle
  · rw [min_eq_left hle]
    congr 1
    omega
  · rw [min_eq_right hle, widthFor_eq_twenty (by omega), widthFor_eq_twenty (by omega)]

/-- Every code fits the width in force (R33 I3). -/
theorem EncInv.lt_two_pow_codeSize (h : EncInv s) {p : Code} (hp : p.toNat < s.nextCode.toNat) :
    p.toNat < 2 ^ s.codeSize.toNat := by
  rw [h.width]
  rcases Nat.lt_or_ge s.nextCode.toNat (2 ^ 20) with hlt | hge
  · exact hp.trans (lt_two_pow_widthFor (by omega) hlt)
  · rw [widthFor_eq_twenty (by omega)]
    exact p.isLt

/-- The first half of ENC_BYTE and ENC_END writes the match, if there is one, as the next code of the stream; after it
the strings of the codes written are all the bytes taken (R86, R87). -/
theorem EncodedSoFar.emit (h : EncodedSoFar bytes codes strs s) :
    ∃ s1 codes' strs', encEmit s = .next s1 ∧ CodesWritten codes' strs' s1 ∧ strs'.flatten = bytes ∧
      (s.prefixCode ≠ none → codes'.length = codes.length + 1) := by
  obtain ⟨tail, ht, hb⟩ := h.input
  cases hp : s.prefixCode with
  | none =>
    rw [hp] at ht
    cases ht
    exact ⟨s, codes, strs, by rw [encEmit, hp], h.written, by simpa using hb, fun hne => absurd rfl hne⟩
  | some p =>
    rw [hp] at ht
    have hsize := h.inv.codeSize_bounds
    obtain ⟨s1, hw⟩ : ∃ s1, bpWrite p s.codeSize s = .next s1 :=
      ⟨_, bpWrite_eq (by omega) hsize.2 (by have := h.inv.pending; omega)⟩
    obtain ⟨bs, bits, count, rfl, -, -⟩ := bpWrite_next_pending hw h.inv.clean
    have hprog : PassProgress s ((s.emit bs).setPending bits count) :=
      .of_out rfl rfl rfl (List.prefix_append _ _) rfl
    have hfit := h.inv.lt_two_pow_codeSize (h.inv.pfxLow p hp)
    refine ⟨_, codes ++ [p], strs ++ [tail], by rw [encEmit, hp]; exact hw, ⟨?_, ?_, ?_⟩, by simpa using hb, by simp⟩
    · rw [bpWrite_next_streamBits hw h.inv.clean, h.written.bits, codesBits_concat, h.codeSize_eq]
    · exact h.written.fit.concat (h.codeSize_eq ▸ hfit)
    · exact StringsOf.of_progress (List.rel_append h.written.strings (.cons ht .nil)) h.inv.dict hprog

/-- ENC_BYTE takes one byte more. -/
theorem EncodedSoFar.encByte (h : EncodedSoFar bytes codes strs s) (b : Byte) :
    ∃ t codes' strs', encByte b s = .next t ∧ t.input = s.input ∧ EncodedSoFar (bytes ++ [b]) codes' strs' t := by
  cases hl : s.lkRead s.prefixCode b with
  | some m =>
    have hb : Machine.encByte b s = .next (s.setPrefixCode (some m)) := by rw [Machine.encByte, dictLookup, hl]
    have hprog := encByte_progress h.inv hb
    obtain ⟨tail, ht, hbytes⟩ := h.input
    have hm := h.inv.dict.reconstruct_entry ((h.inv.index _ _ _).1 hl) ht
    exact ⟨_, codes, strs, hb, rfl, h.status, encByte_encInv h.inv hb, h.next,
      h.written.of_progress h.inv.dict hprog rfl, tail ++ [b],
      h.inv.dict.reconstruct_extends hprog.entries hprog.nextLe hm, by rw [← List.append_assoc, hbytes]⟩
  | none =>
    have hne : s.prefixCode ≠ none := fun hn => by
      rw [hn, (h.inv.index _ _ _).2 (h.inv.dict.entRead_rootCode b)] at hl
      cases hl
    obtain ⟨p, hp⟩ := Option.ne_none_iff_exists'.1 hne
    obtain ⟨s1, codes', strs', hemit, hwritten, hbytes, hlen⟩ := h.emit
    obtain ⟨bs, bits, count, rfl, hcount, hbits⟩ := encEmit_next_pending h.inv hemit
    have hi1 := h.inv.emit_setPending bs hcount hbits
    obtain ⟨s2, hcreate⟩ := encCreate_completes (b := b) (s := (s.emit bs).setPending bits count) hp (hi1.pfxLow p hp)
    have hb : Machine.encByte b s = .next (s2.setPrefixCode (some (rootCode b))) := by
      rw [Machine.encByte, dictLookup, hl]
      simp only [hemit, hcreate, andThen_next]
    have hi := encByte_encInv h.inv hb
    have hsame := encByte_sameControl h.inv hb
    refine ⟨_, codes', strs', hb, hsame.input, hsame.status.trans h.status, hi, ?_, ?_, [b],
      hi.dict.reconstruct_entry (hi.dict.entRead_rootCode b) rfl, by rw [hbytes]⟩
    · rw [State.setPrefixCode_nextCode, encCreate_nextCode hcreate h.inv.dict.high, hlen hne, State.setPending_nextCode,
        State.emit_nextCode, h.next]
      omega
    · exact hwritten.of_progress hi1.dict { encCreate_progress hcreate with } (encCreate_streamBits (t := s2) hcreate)

/-- ENC_END finishes the stream. -/
theorem EncodedSoFar.encEnd (h : EncodedSoFar bytes codes strs s) :
    ∃ t codes' strs', encEnd s = .next t ∧ PackedStream bytes codes' strs' t := by
  obtain ⟨s1, codes', strs', hemit, hwritten, hbytes, -⟩ := h.emit
  obtain ⟨bs, bits, count, rfl, hcount, hbits⟩ := encEmit_next_pending h.inv hemit
  have hi := h.inv.emit_setPending bs hcount hbits
  obtain ⟨s2, hflush⟩ := bpFlush_completes (Nat.le_of_lt_succ hi.pending)
  have he : Machine.encEnd s = .next (s2.setStatus .done) := by
    simp only [Machine.encEnd, hemit, hflush, andThen_next]
  obtain ⟨pad, hpad, hout⟩ := bpFlush_next_padded hflush hi.clean
  exact ⟨_, codes', strs', he, rfl, ⟨pad, hpad, hout.trans (by rw [hwritten.bits])⟩, hwritten.fit,
    hwritten.strings.of_progress hi.dict { bpFlush_progress hflush with }, hbytes⟩

/-! The run of the script (R70, R104). -/

/-- The event of a command word with these fields. -/
def commandEvent (op : BitVec 3) (d : Byte) : Event := .word (.cmd (commandWord op d))

variable {rest : List Event}

theorem step_encStart {d : Byte} (h : s.input = commandEvent 1 d :: rest) (hs : s.status = .idle ∨ s.status = .done) :
    step s = .next (encStart (s.withInput rest)) := by
  rw [step_of_command h, exec_decodeCommand, opField_commandWord]
  show startCommand 1 encStart _ _ = _
  rcases hs with hs | hs <;> simp [startCommand, hs]

theorem step_encByte {b : Byte} (h : s.input = commandEvent 3 b :: rest) (hs : s.status = .enc) :
    step s = Machine.encByte b (s.withInput rest) := by
  rw [step_of_command h, exec_decodeCommand, opField_commandWord, dataField_commandWord]
  show dataCommand b _ = _
  simp [dataCommand, hs]

theorem step_encEnd {d : Byte} (h : s.input = commandEvent 4 d :: rest) (hs : s.status = .enc) :
    step s = Machine.encEnd (s.withInput rest) := by
  rw [step_of_command h, exec_decodeCommand, opField_commandWord]
  show endCommand _ _ = _
  simp [endCommand, hs]

/-- The rest of the bytes and the end, run from a state of the pass. -/
theorem EncodedSoFar.run (more : List Byte) :
    ∀ {bytes codes strs s}, EncodedSoFar bytes codes strs s →
      s.input = more.map (commandEvent 3) ++ [commandEvent 4 0] →
      ∃ t codes' strs', runSteps (more.length + 1) s = .next t ∧ PackedStream (bytes ++ more) codes' strs' t := by
  induction more with
  | nil =>
    intro bytes codes strs s h hi
    obtain ⟨t, codes', strs', he, hp⟩ := (h.withInput []).encEnd
    exact ⟨t, codes', strs', by rw [List.length_nil, runSteps, step_encEnd hi h.status, he]; rfl,
      by rwa [List.append_nil]⟩
  | cons b more ih =>
    intro bytes codes strs s h hi
    obtain ⟨s1, codes1, strs1, hb, hin, h1⟩ := (h.withInput _).encByte b
    obtain ⟨t, codes', strs', hrun, hp⟩ := ih h1 hin
    refine ⟨t, codes', strs', ?_, by rwa [List.append_assoc] at hp⟩
    rw [List.length_cons, runSteps, step_encByte (rest := more.map (commandEvent 3) ++ _) hi h.status, hb]
    exact hrun

end

/-- Every encode pass from a state outside a pass packs its bytes. -/
theorem runCommands_encodeScript (bytes : List Byte) {s : State} (hs : s.status = .idle ∨ s.status = .done) :
    ∃ t codes strs, runCommands (encodeScript bytes) s = .next t ∧ PackedStream bytes codes strs t := by
  have hrun : runCommands (encodeScript bytes) s =
      runSteps (bytes.length + 2)
        (s.withInput (commandEvent 1 0 :: (bytes.map (commandEvent 3) ++ [commandEvent 4 0]))) := by
    unfold commandEvent
    simp [runCommands, encodeScript, Function.comp_def]
  obtain ⟨t, codes, strs, ht, hp⟩ := (encStart_encodedSoFar (s.withInput _)).run bytes rfl
  refine ⟨t, codes, strs, ?_, hp⟩
  rw [hrun, runSteps, step_encStart (s := s.withInput (commandEvent 1 0 :: _)) rfl hs]
  exact ht

/-! ## The obligations -/

/-- Settles O7: the three ranges of `255 + k`, between powers of two. -/
theorem widthScheduleTable : Obligations.WidthScheduleTable := by
  refine ⟨fun k h1 h2 => ?_, fun w k hw1 hw2 h1 h2 => ?_, fun k h => widthFor_eq_twenty (by omega)⟩
  · have hle := (widthFor_le_iff (n := 255 + k) (w := 9) (by omega) (by omega) (by omega)).2 (by omega)
    exact hle.antisymm (widthFor_bounds _).1
  · have hpow : 2 ^ 10 ≤ 2 ^ w := Nat.pow_le_pow_right (by omega) hw1
    exact widthFor_eq_of_pow hw1 hw2 (by omega) (by omega)

/-- Settles O50: the pass keeps the codes written, their strings and the match in step with the bytes taken. -/
theorem encodedStreamHasTheFormat : Obligations.EncodedStreamHasTheFormat := by
  intro bytes s hs
  obtain ⟨t, codes, strs, hrun, hp⟩ := runCommands_encodeScript bytes hs
  obtain ⟨pad, hpad, hbits⟩ := hp.bits
  exact ⟨t, codes, strs, pad, hrun, hp.status, hpad, hbits, hp.fit, hp.strings.map_eq, hp.input⟩

end Sys2Proof.Machine
end

section
/-! PROOFS, part 8. The dictionary unit: what each DICT call answers and leaves when it is made alone, the string of a
code along its prefix chain, and the length of a string. -/

namespace Sys2Proof.Machine

/-! The calls made alone. -/

section
variable {s : State} {p : CodeOrNone} {b : Byte} {l : Bool} {c : Code}

theorem exec_dictAppend_of_next {r : State × Code} (h : dictAppend l p b s = .next r) :
    exec (.dictAppend p b l) s = .next (r.1.returning (.newCode r.2)) := by
  show andThen (dictAppend l p b s) _ = _
  rw [h, andThen_next]

theorem exec_dictAppend_of_refused {r : Refusal} (h : dictAppend l p b s = .refused r) :
    exec (.dictAppend p b l) s = .refused r := by
  show andThen (dictAppend l p b s) _ = _
  rw [h, andThen_refused]

theorem exec_dictReconstruct_of_next {str : List Byte} (h : dictReconstruct c s = .next str) :
    exec (.dictReconstruct c) s = .next (s.returning (.string str)) := by
  show andThen (dictReconstruct c s) _ = _
  rw [h, andThen_next]

theorem exec_dictReconstruct_of_refused {r : Refusal} (h : dictReconstruct c s = .refused r) :
    exec (.dictReconstruct c) s = .refused r := by
  show andThen (dictReconstruct c s) _ = _
  rw [h, andThen_refused]

/-! DICT_APPEND inside and outside its contract (R71, R73 b). -/

theorem dictAppend_appended {q : Code} (hn : s.nextCode.toNat ≤ 1048575) (hq : q.toNat < s.nextCode.toNat) :
    dictAppend l (some q) b s = .next (s.appended l q b, s.nextCode.setWidth 20) := by
  rw [dictAppend_eq hn hq]
  cases l <;> rfl

theorem dictAppend_full (h : 1048575 < s.nextCode.toNat) :
    dictAppend l p b s = .refused .appendAtFullDictionary := by
  simp [dictAppend, State.canAppend, h]

theorem dictAppend_no_prefix (h : s.nextCode.toNat ≤ 1048575) :
    dictAppend l none b s = .refused .appendPrefixNotAnEntry := by
  simp [dictAppend, State.canAppend, h]

theorem dictAppend_prefix_absent {q : Code} (h : s.nextCode.toNat ≤ 1048575) (hq : s.nextCode.toNat ≤ q.toNat) :
    dictAppend l (some q) b s = .refused .appendPrefixNotAnEntry := by
  simp [dictAppend, State.canAppend, h, hq]

/-- A reconstruction of a code that is no entry is refused (R75 d). -/
theorem dictReconstruct_absent (h : s.nextCode.toNat ≤ c.toNat) :
    dictReconstruct c s = .refused .reconstructNotAnEntry :=
  if_neg (by omega)

end

/-! The strings of the codes (R75, R76). -/

section
variable {s : State} {c p : Code} {b : Byte}

theorem DictInv.reconstruct_root (h : DictInv s) (hc : c.toNat < 256) :
    dictReconstruct c s = .next [BitVec.ofNat 8 c.toNat] :=
  h.reconstruct_entry (h.entRead_root hc) rfl

/-- A prefix is an earlier code (R33 I2). -/
theorem DictInv.prefix_lt (h : DictInv s) (he : s.entRead c = some { pfx := some p, byte := b }) :
    p.toNat < c.toNat := by
  have hroot : ¬ c.toNat < 256 := fun hr => by rw [h.entRead_root hr] at he; cases he
  obtain ⟨q, d, hq, hlow⟩ := h.dynamic c (Nat.le_of_not_lt hroot) (State.entRead_lt he)
  rw [he] at hq
  cases hq
  exact hlow

/-- A dynamic code's string is its prefix's string, which there is, with its byte. -/
theorem DictInv.reconstruct_front (h : DictInv s) (he : s.entRead c = some { pfx := some p, byte := b }) :
    ∃ front, dictReconstruct p s = .next front ∧ dictReconstruct c s = .next (front ++ [b]) := by
  obtain ⟨front, -, hp, -⟩ := h.reconstruct p ((h.prefix_lt he).trans (State.entRead_lt he))
  exact ⟨front, hp, h.reconstruct_dynamic he hp⟩

theorem dictReconstruct_unique {str str' : List Byte} (h : dictReconstruct c s = .next str)
    (h' : dictReconstruct c s = .next str') : str = str' := by
  rw [h] at h'
  cases h'
  rfl

/-- Each step of the chain adds one byte and goes to an earlier code, down to a root's one byte (R76). -/
theorem DictInv.reconstruct_length_le (h : DictInv s) {str : List Byte} (hr : dictReconstruct c s = .next str) :
    str.length ≤ max 1 (c.toNat - 254) := by
  induction hn : c.toNat using Nat.strongRecOn generalizing c str with
  | _ n ih =>
    subst hn
    by_cases hroot : c.toNat < 256
    · rw [dictReconstruct_unique hr (h.reconstruct_root hroot)]
      exact Nat.le_max_left _ _
    · obtain ⟨p, b, he, hlow⟩ := h.dynamic c (Nat.le_of_not_lt hroot) (dictReconstruct_next hr).1
      obtain ⟨front, hp, hc⟩ := h.reconstruct_front he
      have hfront := ih p.toNat hlow hp rfl
      rw [dictReconstruct_unique hr hc, List.length_append, List.length_singleton]
      omega

end

/-! ## The obligations -/

/-- Settles O27: the state left is the appended one, with the new code returned. -/
theorem dictAppendCreatesTheNextEntry : Obligations.DictAppendCreatesTheNextEntry := by
  intro p b l s hc hn hp
  refine ⟨_, s.nextCode.setWidth 20, exec_dictAppend_of_next (dictAppend_appended hn hp), rfl, newCode_toNat hn,
    appended_entryAppended l p b hc hn, ?_, ?_, fun _ _ h => appended_lkRead_ne l p b h, appended_canonical l p b hc, rfl⟩
  · rintro rfl
    exact appended_lkRead_same p b hc
  · rintro rfl
    rfl

/-- Settles O29: the answer is the index's, which the invariant of an encode pass makes exact (R33 I4). -/
theorem dictLookupIsExact : Obligations.DictLookupIsExact := by
  intro p b s
  refine ⟨s.lkRead p b, rfl, fun h => ⟨h.index p b, ?_, fun c hc => State.entRead_lt ((h.index p b c).1 hc)⟩⟩
  rintro rfl
  rw [← rootCode_eq_ofNat]
  exact (h.index _ _ _).2 (h.dict.entRead_rootCode b)

/-- Settles O30: one step of the prefix chain. -/
theorem reconstructFollowsThePrefixChain : Obligations.ReconstructFollowsThePrefixChain := by
  intro c s h hlt
  obtain ⟨str, hne, hr, -⟩ := h.reconstruct c hlt
  refine ⟨str, exec_dictReconstruct_of_next hr, hne,
    fun hc => dictReconstruct_unique hr (h.reconstruct_root hc), fun p b he => ?_⟩
  obtain ⟨front, hp, hc⟩ := h.reconstruct_front he
  exact ⟨front, exec_dictReconstruct_of_next hp, dictReconstruct_unique hr hc⟩

/-- Settles O31: the prefixes decrease along the chain. -/
theorem stringsAreNoLongerThanTheirCodeAllows : Obligations.StringsAreNoLongerThanTheirCodeAllows := by
  intro c s str h hr
  obtain ⟨str', hne, hr', -⟩ := h.reconstruct c (dictReconstruct_next hr).1
  obtain rfl := dictReconstruct_unique hr hr'
  have hpos := List.length_pos_iff.2 hne
  have hlen := h.reconstruct_length_le hr
  have hc := c.isLt
  refine ⟨hpos, fun hroot => ?_, fun hdyn => ?_, ?_⟩
  · omega
  · omega
  · rw [Config.rstackMax]
    omega

/-- Settles O26: with nothing listed the memories read as the roots. -/
theorem dictInitMakesTheRoots : Obligations.DictInitMakesTheRoots := fun s =>
  ⟨dictInit s, rfl, rfl, entRead_of_nil rfl rfl, lkRead_none_of_nil rfl, lkRead_some_of_nil rfl,
    State.canonical_of_nil rfl rfl, rfl⟩

/-- Settles O28: the guards of the two calls. -/
theorem dictCallsOutsideTheContractAreRefused : Obligations.DictCallsOutsideTheContractAreRefused := fun _ _ _ _ _ =>
  ⟨fun hfull _ => exec_dictAppend_of_refused (dictAppend_full hfull),
    fun hn => exec_dictAppend_of_refused (dictAppend_no_prefix hn),
    fun hn hp => exec_dictAppend_of_refused (dictAppend_prefix_absent hn hp),
    fun hc => exec_dictReconstruct_of_refused (dictReconstruct_absent hc)⟩

end Sys2Proof.Machine
end

section
/-! PROOFS, part 9. The bit packer unit: what each BP call answers and leaves when it is made alone, and the codes read
back from the bytes written. -/

namespace Sys2Proof.Machine

/-! The pending register after a call. -/

section
variable (s : State) {bits count : Nat} (hcount : count < 32)
include hcount

theorem State.setPending_pendingCount_toNat : (s.setPending bits count).pendingCount.toNat = count :=
  count_ofNat_toNat hcount

theorem State.setPending_pendingClean (hbits : bits < 2 ^ count) : (s.setPending bits count).pendingClean := by
  rwa [State.pendingClean, State.setPending_pendingCount_toNat s hcount]

theorem State.setPending_pendingList : (s.setPending bits count).pendingList = lsbBits count bits := by
  rw [State.pendingList, State.setPending_pendingCount_toNat s hcount, State.setPending_pendingBits]

end

theorem State.pendingClean_of_zero {s : State} (h : s.pendingBits = 0) : s.pendingClean := by
  rw [State.pendingClean, h]
  exact Nat.two_pow_pos _

/-- A clean register is zero when all its pending bits are. -/
theorem State.pendingBits_eq_zero {s : State} (hc : s.pendingClean)
    (h : s.pendingList = List.replicate s.pendingCount.toNat false) : s.pendingBits = 0 :=
  eq_of_lsbBits hc (Nat.two_pow_pos _) (h.trans (lsbBits_zero _).symm)

/-! What each call does to the bits (R79 to R82). -/

section
variable {s t : State} {c : Code} {w : BitVec 5} {b : Byte}

/-- BP_WRITE leaves what does not fill a byte, in a clean register (R79). -/
theorem bpWrite_next_register (h : bpWrite c w s = .next t) (hc : s.pendingClean) :
    t.pendingCount.toNat = (s.pendingCount.toNat + w.toNat) % 8 ∧ t.pendingClean := by
  obtain ⟨-, -, -, rfl⟩ := bpWrite_next h
  exact ⟨(State.setPending_pendingCount_toNat _ (by omega)).trans (by omega),
    State.setPending_pendingClean _ (by omega) (shiftRight_lt (or_shift_lt hc (low_lt _ _)) (by omega))⟩

/-- BP_FEED appends the byte's bits to the pending bits (R80). -/
theorem bpFeed_next_pending (h : bpFeed b s = .next t) (hc : s.pendingClean) :
    t.pendingList = s.pendingList ++ lsbBits 8 b.toNat ∧ t.pendingCount.toNat = s.pendingCount.toNat + 8 ∧
      t.pendingClean := by
  obtain ⟨hroom, rfl⟩ := bpFeed_next h
  have hcount : s.pendingCount.toNat + 8 < 32 := by omega
  exact ⟨(State.setPending_pendingList s hcount).trans (lsbBits_or_shift hc 8 b.toNat),
    State.setPending_pendingCount_toNat s hcount, State.setPending_pendingClean s hcount (or_shift_lt hc b.isLt)⟩

/-- BP_READ that returns a code splits the `width` oldest bits off (R81). -/
theorem bpRead_next_splits (h : bpRead w s = .next (t, some c)) (hc : s.pendingClean) :
    c.toNat < 2 ^ w.toNat ∧ s.pendingList = lsbBits w.toNat c.toNat ++ t.pendingList ∧
      t.pendingCount.toNat = s.pendingCount.toNat - w.toNat ∧ t.pendingClean := by
  obtain ⟨-, h2, ⟨-, h⟩ | ⟨hle, h⟩⟩ := bpRead_next h <;> cases h
  have hlow := low_lt w.toNat s.pendingBits
  have hcode : (BitVec.ofNat 20 (low w.toNat s.pendingBits)).toNat = low w.toNat s.pendingBits :=
    Nat.mod_eq_of_lt (hlow.trans_le (Nat.pow_le_pow_right (by omega) h2))
  have hcount : s.pendingCount.toNat - w.toNat < 32 := by omega
  refine ⟨hcode.symm ▸ hlow, ?_, State.setPending_pendingCount_toNat s hcount,
    State.setPending_pendingClean s hcount (shiftRight_lt hc hle)⟩
  rw [hcode, lsbBits_low, State.setPending_pendingList s hcount, ← lsbBits_add, Nat.add_sub_cancel' hle, State.pendingList]

/-! The calls made alone, inside and outside the contract. -/

theorem exec_bpRead_of_next {r : State × Option Code} (h : bpRead w s = .next r) :
    exec (.bpRead w) s = .next (r.1.returning (.read r.2)) := by
  show andThen (bpRead w s) _ = _
  rw [h, andThen_next]

theorem exec_bpRead_of_refused {r : Refusal} (h : bpRead w s = .refused r) : exec (.bpRead w) s = .refused r := by
  show andThen (bpRead w s) _ = _
  rw [h, andThen_refused]

theorem widthOk_eq_false (h : w.toNat = 0 ∨ 20 < w.toNat) : widthOk w = false :=
  Bool.eq_false_iff.2 fun hw => by have := widthOk_iff.1 hw; omega

theorem bpWrite_width_outside (h : w.toNat = 0 ∨ 20 < w.toNat) : bpWrite c w s = .refused .widthOutsideContract := by
  simp [bpWrite, widthOk_eq_false h]

theorem bpRead_width_outside (h : w.toNat = 0 ∨ 20 < w.toNat) : bpRead w s = .refused .widthOutsideContract := by
  simp [bpRead, widthOk_eq_false h]

theorem bpWrite_not_normalized (h1 : 1 ≤ w.toNat) (h2 : w.toNat ≤ 20) (h : 7 < s.pendingCount.toNat) :
    bpWrite c w s = .refused .pendingNotNormalized := by
  simp [bpWrite, widthOk_iff.2 ⟨h1, h2⟩, h]

theorem bpFlush_not_normalized (h : 7 < s.pendingCount.toNat) : bpFlush s = .refused .pendingNotNormalized :=
  if_neg h.not_ge

theorem bpFeed_too_full (h : 19 < s.pendingCount.toNat) : bpFeed b s = .refused .pendingTooFullToFeed :=
  if_neg h.not_ge

end

/-! Reading back what was written (R83). -/

/-- A pair R83 speaks of: a width in the contract and a value that fits it. -/
def PairOk (x : Code × BitVec 5) : Prop := 1 ≤ x.2.toNat ∧ x.2.toNat ≤ 20 ∧ x.1.toNat < 2 ^ x.2.toNat

/-- The bits of the pairs in order, each value at its own width, bit 0 first. -/
def pairsBits (pairs : List (Code × BitVec 5)) : List Bool := pairs.flatMap fun x => lsbBits x.2.toNat x.1.toNat

@[simp] theorem pairsBits_nil : pairsBits [] = [] := rfl

@[simp] theorem pairsBits_cons (x : Code × BitVec 5) (pairs : List (Code × BitVec 5)) :
    pairsBits (x :: pairs) = lsbBits x.2.toNat x.1.toNat ++ pairsBits pairs := by
  simp [pairsBits]

theorem pairsBits_length (pairs : List (Code × BitVec 5)) : (pairsBits pairs).length = (pairs.map (·.2.toNat)).sum := by
  simp [pairsBits, List.length_flatMap]

/-- The bits a reader has still before it: the pending ones, then those of the bytes not yet fed. -/
def State.unreadBits (s : State) (bs : List Byte) : List Bool := s.pendingList ++ byteBits bs

@[simp] theorem State.unreadBits_length (s : State) (bs : List Byte) :
    (s.unreadBits bs).length = s.pendingCount.toNat + 8 * bs.length := by
  simp [State.unreadBits, State.pendingList]

section
variable {s : State} {w : BitVec 5} {b : Byte} {bs : List Byte}

theorem feedFor_of_enough (h : w.toNat ≤ s.pendingCount.toNat) : feedFor w bs s = .next (s, bs) := by
  cases bs with
  | nil => rfl
  | cons b bs => exact if_neg (by simpa [exhausted_iff] using h)

theorem feedFor_of_short (h : s.pendingCount.toNat < w.toNat) :
    feedFor w (b :: bs) s = andThen (bpFeed b s) (feedFor w bs) :=
  if_pos (exhausted_iff.2 h)

/-- Feeding completes with `width` bits pending when there are so many, and moves no bit. -/
theorem feedFor_completes (hw : w.toNat ≤ 20) (hc : s.pendingClean) (henough : w.toNat ≤ (s.unreadBits bs).length) :
    ∃ t rest, feedFor w bs s = .next (t, rest) ∧ t.pendingClean ∧ w.toNat ≤ t.pendingCount.toNat ∧
      t.unreadBits rest = s.unreadBits bs := by
  induction bs generalizing s with
  | nil => exact ⟨s, [], rfl, hc, by simpa using henough, rfl⟩
  | cons b bs ih =>
    rcases Nat.lt_or_ge s.pendingCount.toNat w.toNat with hshort | hle
    · obtain ⟨s1, hfed⟩ : ∃ s1, bpFeed b s = .next s1 := ⟨_, bpFeed_eq (by omega)⟩
      obtain ⟨hlist, -, hclean⟩ := bpFeed_next_pending hfed hc
      have hmoved : s1.unreadBits bs = s.unreadBits (b :: bs) := by
        rw [State.unreadBits, hlist, List.append_assoc, ← byteBits_cons, ← State.unreadBits]
      obtain ⟨t, rest, hfeed, htclean, hge, hbits⟩ := ih hclean (hmoved ▸ henough)
      exact ⟨t, rest, by rw [feedFor_of_short hshort, hfed, andThen_next, hfeed], htclean, hge, hbits.trans hmoved⟩
    · exact ⟨s, b :: bs, feedFor_of_enough hle, hc, hle, rfl⟩

/-- Feeding and then reading returns the value the unread bits begin with, and leaves the bits behind it. -/
theorem feedFor_bpRead {x : Code × BitVec 5} {tail : List Bool} (hx : PairOk x) (hc : s.pendingClean)
    (hbits : s.unreadBits bs = lsbBits x.2.toNat x.1.toNat ++ tail) :
    ∃ f r, feedFor x.2 bs s = .next f ∧ bpRead x.2 f.1 = .next (r, some x.1) ∧ r.pendingClean ∧
      r.unreadBits f.2 = tail := by
  obtain ⟨v, w⟩ := x
  obtain ⟨h1, h2, hv⟩ := hx
  obtain ⟨t, rest, hfeed, htclean, hge, hmoved⟩ := feedFor_completes h2 hc (bs := bs) (by simp [hbits])
  obtain ⟨r, c, hread⟩ : ∃ r c, bpRead w t = .next (r, some c) := ⟨_, _, bpRead_code h1 h2 hge⟩
  obtain ⟨hcode, hsplit, -, hclean⟩ := bpRead_next_splits hread htclean
  have heq : lsbBits w.toNat c.toNat ++ r.unreadBits rest = lsbBits w.toNat v.toNat ++ tail := by
    rw [State.unreadBits, ← List.append_assoc, ← hsplit, ← hbits, ← hmoved, State.unreadBits]
  obtain ⟨hhead, htail⟩ := List.append_inj heq (by simp)
  obtain rfl : c = v := BitVec.eq_of_toNat_eq (eq_of_lsbBits hcode hv hhead)
  exact ⟨_, r, hfeed, hread, hclean, htail⟩

end

/-- Writing the pairs and flushing appends their bits to the stream, padded with zeros to a byte. -/
theorem writeCodes_appends {pairs : List (Code × BitVec 5)} {s : State} (hok : ∀ x ∈ pairs, PairOk x)
    (hp : s.pendingCount.toNat ≤ 7) (hc : s.pendingClean) :
    ∃ t pad, writeCodes pairs s = .next t ∧ pad < 8 ∧
      byteBits t.out = s.streamBits ++ pairsBits pairs ++ List.replicate pad false := by
  induction pairs generalizing s with
  | nil =>
    obtain ⟨t, hflush⟩ := bpFlush_completes hp
    obtain ⟨pad, hpad, hbits⟩ := bpFlush_next_padded hflush hc
    exact ⟨t, pad, hflush, hpad, by rw [hbits, pairsBits_nil, List.append_nil]⟩
  | cons x pairs ih =>
    obtain ⟨hx, hok⟩ := List.forall_mem_cons.1 hok
    obtain ⟨h1, h2, -⟩ := hx
    have hwrite := bpWrite_eq (c := x.1) h1 h2 hp
    obtain ⟨hcount, hclean⟩ := bpWrite_next_register hwrite hc
    obtain ⟨t, pad, hrest, hpad, hbits⟩ := ih hok (by omega) hclean
    refine ⟨t, pad, ?_, hpad, ?_⟩
    · show andThen (bpWrite x.1 x.2 s) (writeCodes pairs) = _
      rw [hwrite, andThen_next, hrest]
    · rw [hbits, bpWrite_next_streamBits hwrite hc, pairsBits_cons, List.append_assoc s.streamBits]

/-- Reading at the pairs' widths returns the values the unread bits begin with, and leaves the bits behind them. -/
theorem readCodes_returns {pairs : List (Code × BitVec 5)} {s : State} {bs : List Byte} {tail : List Bool}
    (hok : ∀ x ∈ pairs, PairOk x) (hc : s.pendingClean) (hbits : s.unreadBits bs = pairsBits pairs ++ tail) :
    ∃ u rest, readCodes (pairs.map (·.2)) bs s = .next (u, pairs.map (some ·.1), rest) ∧ u.pendingClean ∧
      u.unreadBits rest = tail := by
  induction pairs generalizing s bs with
  | nil => exact ⟨s, bs, rfl, hc, hbits⟩
  | cons x pairs ih =>
    obtain ⟨hx, hok⟩ := List.forall_mem_cons.1 hok
    rw [pairsBits_cons, List.append_assoc] at hbits
    obtain ⟨f, r, hfeed, hread, hclean, hunread⟩ := feedFor_bpRead hx hc hbits
    obtain ⟨u, rest, hreads, huclean, htail⟩ := ih hok hclean hunread
    refine ⟨u, rest, ?_, huclean, htail⟩
    simp only [List.map_cons, readCodes, hfeed, hread, hreads, andThen_next]

/-- Unread bits that are zeros, fewer than a byte of them, are all pending. -/
theorem State.unreadBits_padding {s : State} {bs : List Byte} {pad : Nat} (hc : s.pendingClean) (hpad : pad < 8)
    (h : s.unreadBits bs = List.replicate pad false) :
    bs = [] ∧ s.pendingBits = 0 ∧ s.pendingCount.toNat = pad := by
  have hlen : s.pendingCount.toNat + 8 * bs.length = pad := by simpa using congrArg List.length h
  obtain rfl : bs = [] := List.length_eq_zero_iff.1 (by omega)
  obtain rfl : s.pendingCount.toNat = pad := hlen
  exact ⟨rfl, State.pendingBits_eq_zero hc (by simpa [State.unreadBits] using h), rfl⟩

/-! ## The obligations -/

/-- Settles O24: the bytes written hold the values' bits and the padding, and the reads take the values off again. -/
theorem bpWriteThenReadIsSymmetric : Obligations.BpWriteThenReadIsSymmetric := by
  intro pairs s r hok hsbits hscount hsout hrbits hrcount
  obtain ⟨t, pad, hwrite, hpad, hout⟩ :=
    writeCodes_appends hok (by simp [hscount]) (State.pendingClean_of_zero hsbits)
  replace hout : byteBits t.out = pairsBits pairs ++ List.replicate pad false := by
    simpa [State.streamBits, State.pendingList, hsout, hscount] using hout
  have hunread : r.unreadBits t.out = pairsBits pairs ++ List.replicate pad false := by
    simpa [State.unreadBits, State.pendingList, hrcount] using hout
  obtain ⟨u, rest, hread, huclean, htail⟩ := readCodes_returns hok (State.pendingClean_of_zero hrbits) hunread
  obtain ⟨rfl, hubits, hucount⟩ := State.unreadBits_padding huclean hpad htail
  have hlen : 8 * t.out.length = (pairs.map (·.2.toNat)).sum + pad := by
    simpa [pairsBits_length] using congrArg List.length hout
  exact ⟨t, u, hwrite, hread, hubits, by omega, by omega⟩

/-- Settles O19: the stream's bits, the bytes that leave and the register that stays. -/
theorem bpWriteAppendsTheLowBits : Obligations.BpWriteAppendsTheLowBits := by
  intro c w s h1 h2 hp hc
  have h := bpWrite_eq (c := c) h1 h2 hp
  obtain ⟨hcount, hclean⟩ := bpWrite_next_register h hc
  exact ⟨_, h, bpWrite_next_streamBits h hc, List.prefix_append _ _, by simp, hcount, hclean, rfl⟩

/-- Settles O20: the byte's bits go in above a clean register. -/
theorem bpFeedAppendsTheByte : Obligations.BpFeedAppendsTheByte := by
  intro b s hp hc
  obtain ⟨hlist, hcount, hclean⟩ := bpFeed_next_pending (bpFeed_eq hp) hc
  exact ⟨_, bpFeed_eq hp, hlist, hcount, hclean, rfl⟩

/-- Settles O21: too few bits, or the oldest split off. -/
theorem bpReadTakesTheOldestBits : Obligations.BpReadTakesTheOldestBits := by
  intro w s h1 h2 hc
  refine ⟨fun hshort => exec_bpRead_of_next (bpRead_exhausted h1 h2 hshort), fun hle => ?_⟩
  have hread := bpRead_code h1 h2 hle
  obtain ⟨hcode, hsplit, hcount, hclean⟩ := bpRead_next_splits hread hc
  exact ⟨_, _, exec_bpRead_of_next hread, rfl, hcode, hsplit, hcount, hclean, rfl⟩

/-- Settles O22: no byte from an empty register, else one, padded. -/
theorem bpFlushPadsToAByte : Obligations.BpFlushPadsToAByte := by
  intro s hp hc
  obtain ⟨t, h⟩ := bpFlush_completes hp
  obtain ⟨pad, hpad, hbits⟩ := bpFlush_next_padded h hc
  refine ⟨t, pad, h, hpad, hbits, ?_⟩
  obtain ⟨-, ⟨-, rfl⟩ | ⟨hpos, rfl⟩⟩ := bpFlush_next h
  · exact ⟨fun _ => rfl, rfl, rfl, rfl⟩
  · exact ⟨fun h0 => absurd h0 hpos.ne', rfl, rfl, rfl⟩

/-- Settles O18: BP_INIT clears the register, and an empty register has no byte to flush. -/
theorem bpInitEmptiesThePendingRegister : Obligations.BpInitEmptiesThePendingRegister := fun s =>
  ⟨rfl, bpFlush_empty (s := bpInit s) rfl⟩

/-- Settles O23: the guards of the four calls. -/
theorem bpCallsOutsideTheContractAreRefused : Obligations.BpCallsOutsideTheContractAreRefused := fun _ _ _ _ =>
  ⟨fun hw => ⟨bpWrite_width_outside hw, exec_bpRead_of_refused (bpRead_width_outside hw)⟩,
    fun hp => ⟨bpFlush_not_normalized hp, fun h1 h2 => bpWrite_not_normalized h1 h2 hp⟩, bpFeed_too_full⟩

end Sys2Proof.Machine
end

section
/-! PROOFS, part 10. The encoder state machine: a start command by the status it meets, what the two halves of ENC_BYTE
write and create, and the stream ENC_END closes. -/

namespace Sys2Proof.Machine

/-! A start command by the status it meets (R105). -/

section
variable {op : BitVec 3} {begin : State → State} {d : Byte} {s : State}

theorem startCommand_begins (h : s.status = .idle ∨ s.status = .done) :
    startCommand op begin d s = .next (begin s) := by
  rcases h with h | h <;> rw [startCommand, h]

theorem startCommand_misplaced (h : s.status = .enc ∨ s.status = .dec) :
    startCommand op begin d s = .next (s.raise .protocol (commandInfo op d)) := by
  rcases h with h | h <;> rw [startCommand, h]

theorem startCommand_absorbed (h : s.status = .err) : startCommand op begin d s = .next s := by
  rw [startCommand, h]

end

/-- What an error records of a command word, as a number (R63). -/
theorem commandInfo_eq_ofNat (op : BitVec 3) (d : Byte) :
    commandInfo op d = BitVec.ofNat 20 (op.toNat * 256 + d.toNat) := by
  rw [← commandInfo_toNat, BitVec.ofNat_toNat, BitVec.setWidth_eq]

/-! The commands of an encode pass. -/

section
variable {c d : Byte} {m : Code} {s t : State}

theorem exec_dataEncByte_of_enc (h : s.status = .enc) : exec (.dataEncByte c) s = encByte c s := by
  show dataCommand c s = _
  rw [dataCommand, h]

theorem exec_endEncEnd_of_enc (h : s.status = .enc) : exec (.endEncEnd d) s = encEnd s := by
  show endCommand d s = _
  rw [endCommand, h]

/-- Step 1 of R86. -/
theorem encByte_hit (h : s.lkRead s.prefixCode c = some m) : encByte c s = .next (s.setPrefixCode (some m)) := by
  rw [encByte, dictLookup, h]

/-! The first half: the match's code goes out. -/

/-- The bits of the match's code at the width in force; none without a match (R86, R87). -/
def State.matchBits (s : State) : List Bool := s.prefixCode.elim [] fun p => lsbBits s.codeSize.toNat p.toNat

theorem State.matchBits_none (h : s.prefixCode = none) : s.matchBits = [] := by rw [matchBits, h, Option.elim_none]

theorem State.matchBits_some (h : s.prefixCode = some m) : s.matchBits = lsbBits s.codeSize.toNat m.toNat := by
  rw [matchBits, h, Option.elim_some]

theorem State.matchBits_length_le (s : State) : s.matchBits.length ≤ s.codeSize.toNat := by
  cases hp : s.prefixCode with
  | none => simp [matchBits_none hp]
  | some p => simp [matchBits_some hp]

theorem State.streamBits_length (s : State) : s.streamBits.length = 8 * s.out.length + s.pendingCount.toNat := by
  simp [streamBits, pendingList]

theorem EncInv.encEmit_completes (h : EncInv s) : ∃ t, encEmit s = .next t := by
  cases hp : s.prefixCode with
  | none => exact ⟨s, by rw [encEmit, hp]⟩
  | some p =>
    have hsize := h.codeSize_bounds
    rw [encEmit, hp]
    exact ⟨_, bpWrite_eq (by omega) hsize.2 (Nat.le_of_lt_succ h.pending)⟩

theorem encEmit_next_streamBits (hc : s.pendingClean) (h : encEmit s = .next t) :
    t.streamBits = s.streamBits ++ s.matchBits := by
  obtain ⟨hp, rfl⟩ | ⟨p, hp, hw⟩ := encEmit_next h
  · rw [State.matchBits_none hp, List.append_nil]
  · rw [State.matchBits_some hp]
    exact bpWrite_next_streamBits hw hc

/-! The second half: the entry and the growth. -/

/-- ENC_BYTE's creating half changes the dictionary and the width alone. -/
theorem encCreate_frame (h : encCreate c s = .next t) :
    t = { s with ent := t.ent, lk := t.lk, nextCode := t.nextCode, codeSize := t.codeSize } := by
  obtain ⟨-, rfl⟩ | ⟨-, p, -, -, rfl⟩ := encCreate_next_appended h <;> rfl

/-- Entry, pair and growth below the cap, nothing at it (R86, R88, R89). -/
theorem encCreate_encoderCreates {p : Code} (hc : s.canonical) (hp : s.prefixCode = some p)
    (h : encCreate c s = .next t) : EncoderCreates s t p c := by
  obtain ⟨hfull, rfl⟩ | ⟨hn, q, hq, -, rfl⟩ := encCreate_next_appended h
  · exact ⟨fun hle => absurd hle hfull.not_ge, fun _ => ⟨rfl, rfl, rfl, rfl⟩⟩
  · obtain rfl : p = q := Option.some_inj.1 (hp.symm.trans hq)
    refine ⟨fun _ => ⟨appended_entryAppended true p c hc hn, fun x hx => ?_,
      fun _ _ hne => appended_lkRead_ne true p c hne, ?_⟩, fun hfull => absurd hn hfull.not_ge⟩
    · have hx : s.nextCode.setWidth 20 = x := BitVec.eq_of_toNat_eq ((newCode_toNat hn).trans hx.symm)
      exact (appended_lkRead_same p c hc).trans (congrArg some hx)
    · show (grownSize (encoderGrows (s.nextCode + 1) s.codeSize) s.codeSize).toNat = _
      rw [grownSize_toNat fun hg => (encoderGrows_iff.1 hg).2]
      simp only [encoderGrows_iff, nextCode_succ_toNat (Nat.le_succ_of_le hn), Config.maxBits]

/-! ENC_BYTE on a miss, and ENC_END. -/

/-- A lookup without a match finds the root of the byte, so a miss has a match (R86). -/
theorem EncInv.prefixCode_of_miss (h : EncInv s) (hmiss : s.lkRead s.prefixCode c = none) :
    ∃ p, s.prefixCode = some p := by
  refine Option.ne_none_iff_exists'.1 fun hnone => ?_
  rw [hnone, (h.index _ _ _).2 (h.dict.entRead_rootCode c)] at hmiss
  cases hmiss

/-- ENC_BYTE on a miss completes both halves, and the match starts anew from the byte. -/
theorem EncInv.encByte_miss (h : EncInv s) (hmiss : s.lkRead s.prefixCode c = none) :
    ∃ s1 s2, encEmit s = .next s1 ∧ encCreate c s1 = .next s2 ∧
      encByte c s = .next (s2.setPrefixCode (some (rootCode c))) := by
  obtain ⟨p, hp⟩ := h.prefixCode_of_miss hmiss
  obtain ⟨s1, hemit⟩ := h.encEmit_completes
  obtain ⟨bs, bits, count, rfl, -, -⟩ := encEmit_next_pending h hemit
  obtain ⟨s2, hcreate⟩ :=
    encCreate_completes (b := c) (s := (s.emit bs).setPending bits count) hp (h.pfxLow p hp)
  refine ⟨_, s2, hemit, hcreate, ?_⟩
  rw [encByte, dictLookup, hmiss]
  simp only [hemit, hcreate, andThen_next]

theorem EncInv.encEnd_completes (h : EncInv s) : ∃ t, encEnd s = .next t := by
  obtain ⟨s1, hemit⟩ := h.encEmit_completes
  obtain ⟨bs, bits, count, rfl, hcount, hbits⟩ := encEmit_next_pending h hemit
  obtain ⟨s2, hflush⟩ := bpFlush_completes (Nat.le_of_lt_succ (h.emit_setPending bs hcount hbits).pending)
  refine ⟨s2.setStatus .done, ?_⟩
  simp only [encEnd, hemit, hflush, andThen_next]

/-- ENC_END writes the match's code and pads the stream to a byte (R87). -/
theorem encEnd_next_padded (h : EncInv s) (he : encEnd s = .next t) :
    ∃ pad, pad < 8 ∧ byteBits t.out = s.streamBits ++ s.matchBits ++ List.replicate pad false := by
  obtain ⟨s1, s2, hemit, hflush, rfl⟩ := encEnd_next he
  obtain ⟨bs, bits, count, rfl, hcount, hbits⟩ := encEmit_next_pending h hemit
  obtain ⟨pad, hpad, hout⟩ := bpFlush_next_padded hflush (h.emit_setPending bs hcount hbits).clean
  exact ⟨pad, hpad, hout.trans (by rw [encEmit_next_streamBits h.clean hemit])⟩

end

/-! ## The obligations -/

/-- Settles O9: the pass begins with nothing listed, which reads as the roots. -/
theorem encStartBeginsAFreshPass : Obligations.EncStartBeginsAFreshPass := by
  intro d s
  refine ⟨fun h => ?_, fun h => ?_, fun h => startCommand_absorbed h⟩
  · exact ⟨encStart s, startCommand_begins h, rfl, rfl, rfl, rfl, rfl, rfl, rfl, rfl, entRead_of_nil rfl rfl,
      lkRead_none_of_nil rfl, lkRead_some_of_nil rfl, rfl⟩
  · refine (startCommand_misplaced h).trans ?_
    rw [commandInfo_eq_ofNat]
    rfl

/-- Settles O32: step 1 of R86 is one register write. -/
theorem encByteHitExtendsTheMatch : Obligations.EncByteHitExtendsTheMatch := fun _ _ _ hs hm =>
  (exec_dataEncByte_of_enc hs).trans (encByte_hit hm)

/-- Settles O33: the two halves of ENC_BYTE in turn; the number of bytes follows from the number of bits. -/
theorem encByteMissWritesThenAppendsThenGrows : Obligations.EncByteMissWritesThenAppendsThenGrows := by
  intro c s hs h hmiss
  obtain ⟨p, hp⟩ := h.prefixCode_of_miss hmiss
  obtain ⟨s1, s2, hemit, hcreate, hbyte⟩ := h.encByte_miss hmiss
  have hstream := encEmit_next_streamBits h.clean hemit
  rw [State.matchBits_some hp] at hstream
  obtain ⟨bs, bits, count, rfl, hcount, -⟩ := encEmit_next_pending h hemit
  have hcreates := encCreate_encoderCreates (s := (s.emit bs).setPending bits count) h.dict.canon hp hcreate
  have hframe := encCreate_frame hcreate
  have hout : s2.out = s.out ++ bs := congrArg State.out hframe
  have hlen := congrArg List.length hstream
  rw [List.length_append, lsbBits_length, State.streamBits_length, State.streamBits_length,
    State.setPending_pendingCount_toNat _ (by omega), State.setPending_out, State.emit_out, ← hout] at hlen
  have hsize := h.codeSize_bounds
  have hpending := h.pending
  refine ⟨s2.setPrefixCode (some (rootCode c)), p, hp, (exec_dataEncByte_of_enc hs).trans hbyte,
    (encCreate_streamBits hcreate).trans hstream, ?_, ?_, hout ▸ List.prefix_append _ _,
    hcreates, congrArg some (rootCode_eq_ofNat c), ?_⟩
  · rw [State.setPrefixCode_out]; omega
  · rw [State.setPrefixCode_out]; omega
  · rw [hframe]
    rfl

/-- Settles O34: the last code, then the padding; the number of bytes follows from the number of bits. -/
theorem encEndWritesAndFlushes : Obligations.EncEndWritesAndFlushes := by
  intro d s hs h
  obtain ⟨t, hend⟩ := h.encEnd_completes
  obtain ⟨pad, hpad, hbits⟩ := encEnd_next_padded h hend
  obtain ⟨bs, rfl⟩ := encEnd_next_flushed h hend
  have hlen := congrArg List.length hbits
  simp only [State.setStatus_out, State.setPending_out, State.emit_out, byteBits_length, List.length_append,
    State.streamBits_length, List.length_replicate] at hlen
  have hmatch := s.matchBits_length_le
  have hsize := h.codeSize_bounds
  have hpending := h.pending
  refine ⟨_, pad, (exec_endEncEnd_of_enc hs).trans hend, rfl, hpad, ?_, fun hnone hzero => ?_, ?_, rfl, rfl, rfl⟩
  · cases hp : s.prefixCode with
    | none => rwa [State.matchBits_none hp] at hbits
    | some p => rwa [State.matchBits_some hp] at hbits
  · have hcount : s.pendingCount.toNat = 0 := congrArg BitVec.toNat hzero
    rw [State.matchBits_none hnone, List.length_nil] at hlen
    obtain rfl : bs = [] := List.length_eq_zero_iff.1 (by omega)
    exact List.append_nil _
  · rw [State.setStatus_out, State.setPending_out, State.emit_out, List.length_append]
    omega

end Sys2Proof.Machine
end

section
/-! PROOFS, part 11. The decoder state machine: DEC_BYTE as a feed and a read, DEC_CODE by the class of the code under
the invariant of a decode pass, and what its creating half leaves. -/

namespace Sys2Proof.Machine

/-! The commands of a decode pass, and a code as a step of a trace. -/

section
variable {b d : Byte} {c : Code} {m : Mode} {s : State}

theorem exec_dataDecByte_of_dec (h : s.status = .dec) : exec (.dataDecByte b) s = decByte b s := by
  show dataCommand b s = _
  rw [dataCommand, h]

theorem exec_endDecEnd_of_dec (h : s.status = .dec) : exec (.endDecEnd d) s = .next (s.setStatus .done) := by
  show endCommand d s = _
  rw [endCommand, h]
  rfl

theorem decCodeInPass_of_dec (h : s.status = .dec) : decCodeInPass c s = decCode c s := by
  rw [decCodeInPass, h]

theorem decCodeInPass_outside (h : s.status ≠ .dec) : decCodeInPass c s = .refused .noDecodePass := by
  cases hs : s.status
  case dec => exact absurd hs h
  all_goals rw [decCodeInPass, hs]

/-- Whichever row the mode selects, a code's rows share one meaning (log entry 8). -/
theorem exec_decodeCode : exec (decodeCode m c) s = decCodeInPass c s := by
  rw [decodeCode]
  cases classify m c <;> rfl

end

/-! DEC_BYTE (R93): whether the byte completes a code. -/

section
variable {b : Byte} {s t : State}

/-- A change of the pending register alone, to a clean one with fewer bits than a code, keeps the invariant of a decode
pass. -/
theorem DecInv.of_pending (h : DecInv s)
    (ht : t = { s with pendingBits := t.pendingBits, pendingCount := t.pendingCount })
    (hp : t.pendingCount.toNat < s.codeSize.toNat) (hc : t.pendingClean) : DecInv t := by
  have hset : s.setPending t.pendingBits t.pendingCount.toNat = t := by
    rw [State.setPending, BitVec.ofNat_toNat, BitVec.setWidth_eq]
    exact ht.symm
  exact hset ▸ h.setPending hp hc

theorem DecInv.bpFeed_completes (h : DecInv s) :
    ∃ t, bpFeed b s = .next t ∧ t = { s with pendingBits := t.pendingBits, pendingCount := t.pendingCount } := by
  have hsize := h.codeSize_bounds
  have hpending := h.pending
  exact ⟨_, bpFeed_eq (by omega), rfl⟩

/-- Too few bits for a code: DEC_BYTE is the feed alone. -/
theorem DecInv.decByte_short (h : DecInv s) (hshort : s.pendingCount.toNat + 8 < s.codeSize.toNat)
    (hfed : bpFeed b s = .next t) : decByte b s = .next t := by
  have hsize := h.codeSize_bounds
  obtain ⟨-, hcount, -⟩ := bpFeed_next_pending hfed h.clean
  have hw : t.codeSize = s.codeSize := by rw [(bpFeed_next hfed).2, State.setPending_codeSize]
  rw [decByte, hfed, andThen_next, hw, bpRead_exhausted (by omega) hsize.2 (by omega), andThen_next]

/-- Enough bits: DEC_BYTE is DEC_CODE on the code the oldest bits make, from the state BP_READ leaves (R56, R93). -/
theorem DecInv.decByte_full (h : DecInv s) (hfull : s.codeSize.toNat ≤ s.pendingCount.toNat + 8) :
    ∃ (c : Code) (r : State), decByte b s = decCode c r ∧ c.toNat < 2 ^ s.codeSize.toNat ∧
      s.pendingList ++ lsbBits 8 b.toNat = lsbBits s.codeSize.toNat c.toNat ++ r.pendingList ∧
      r.pendingCount.toNat < 8 ∧ r.pendingClean ∧
      r = { s with pendingBits := r.pendingBits, pendingCount := r.pendingCount } := by
  have hsize := h.codeSize_bounds
  have hpending := h.pending
  obtain ⟨s1, hfed, hs1⟩ := h.bpFeed_completes (b := b)
  obtain ⟨hlist, hcount, hclean⟩ := bpFeed_next_pending hfed h.clean
  have hw : s1.codeSize = s.codeSize := by rw [hs1]
  obtain ⟨r, c, hread, hr⟩ : ∃ r c, bpRead s.codeSize s1 = .next (r, some c) ∧
      r = { s1 with pendingBits := r.pendingBits, pendingCount := r.pendingCount } :=
    ⟨_, _, bpRead_code (by omega) hsize.2 (by omega), rfl⟩
  obtain ⟨hcode, hsplit, hrcount, hrclean⟩ := bpRead_next_splits hread hclean
  refine ⟨c, r, ?_, hcode, hlist.symm.trans hsplit, by omega, hrclean, ?_⟩
  · simp only [decByte, hfed, andThen_next, hw, hread]
  · rw [hr, hs1]

end

/-! DEC_UPDATE (R99). -/

section
variable {fb : Byte} {o : Code} {s t : State}

theorem decUpdate_nextCode (h : decUpdate fb s = .next t) (hle : s.nextCode.toNat ≤ 2 ^ 20) :
    t.nextCode.toNat = min (s.nextCode.toNat + 1) (2 ^ 20) := by
  obtain ⟨hfull, rfl⟩ | ⟨hn, p, -, -, rfl⟩ := decUpdate_next_appended h
  · omega
  · exact (appended_nextCode_toNat false p fb hn).trans (by omega)

/-- DEC_UPDATE completes when the old code is an entry. -/
theorem decUpdate_completes (fb : Byte) (ho : s.oldCode = some o) (hlt : o.toNat < s.nextCode.toNat) :
    ∃ t, decUpdate fb s = .next t := by
  unfold decUpdate
  split
  · next hc =>
    rw [ho, dictAppend_eq (of_decide_eq_true hc) hlt]
    exact ⟨_, rfl⟩
  · exact ⟨s, rfl⟩

/-- Entry and growth below the cap, nothing at it (R99). -/
theorem decUpdate_decoderUpdates (hc : s.canonical) (ho : s.oldCode = some o) (h : decUpdate fb s = .next t) :
    DecoderUpdates s t o fb := by
  obtain ⟨hfull, rfl⟩ | ⟨hn, q, hq, -, rfl⟩ := decUpdate_next_appended h
  · exact ⟨fun hle => absurd hle hfull.not_ge, fun _ => ⟨rfl, rfl, rfl⟩⟩
  · obtain rfl : o = q := Option.some_inj.1 (ho.symm.trans hq)
    refine ⟨fun _ => ⟨appended_entryAppended false o fb hc hn, ?_⟩, fun hfull => absurd hn hfull.not_ge⟩
    show (grownSize (decoderGrows (s.nextCode + 1) s.codeSize) s.codeSize).toNat = _
    rw [grownSize_toNat fun hg => (decoderGrows_iff.1 hg).2]
    simp only [decoderGrows_iff, nextCode_succ_toNat (Nat.le_succ_of_le hn), Config.maxBits]

end

/-! DEC_CODE by the class of the code (R94 to R98). -/

section
variable {c o : Code} {s t : State}

theorem DictInv.reconstruct_ne_nil {str : List Byte} (h : DictInv s) (hr : dictReconstruct c s = .next str) :
    str ≠ [] := by
  obtain ⟨str', hne, hr', -⟩ := h.reconstruct c (dictReconstruct_next hr).1
  rwa [dictReconstruct_unique hr hr']

/-- The frame of the codes that make an entry: LK, the pending register and the control registers stay. -/
theorem decUpdate_decCommit_frame {fb : Byte} {str : List Byte} (h : decUpdate fb s = .next t) :
    decCommit c str t = { s with
      oldCode := some c, oldString := str, out := t.out ++ str, ent := t.ent, nextCode := t.nextCode,
      codeSize := t.codeSize } := by
  rw [decUpdate_frame h]
  rfl

theorem decUpdate_decCommit_out {fb : Byte} {str : List Byte} (h : decUpdate fb s = .next t) :
    (decCommit c str t).out = s.out ++ str := by
  rw [decUpdate_frame h]
  rfl

/-- Case FIRST: a root's one byte, committed (R95). -/
theorem DecInv.decCode_first (h : DecInv s) (ho : s.oldCode = none) (hc : c.toNat < s.nextCode.toNat) :
    decCode c s = .next (Machine.decCommit c [BitVec.ofNat 8 c.toNat] s) := by
  have hclass : classify s.mode c = .first := by simp [classify, State.mode, ho, hc]
  have hroot : c.toNat < 256 := hc.trans_eq (h.first ho).2
  simp only [decCode, hclass, decFirst, h.dict.reconstruct_root hroot, andThen_next]

/-- Case LOOKUP: the table's string, committed after the update with its first byte (R97). -/
theorem DecInv.decCode_lookup (h : DecInv s) (ho : s.oldCode = some o) (hc : c.toNat < s.nextCode.toNat) :
    ∃ b0 rest s1, dictReconstruct c s = .next (b0 :: rest) ∧ decUpdate b0 s = .next s1 ∧
      decCode c s = .next (Machine.decCommit c (b0 :: rest) s1) := by
  have hclass : classify s.mode c = .lookup := by simp [classify, State.mode, ho, hc, hc.ne]
  obtain ⟨str, hne, hr, -⟩ := h.dict.reconstruct c hc
  obtain ⟨b0, rest, rfl⟩ := List.exists_cons_of_ne_nil hne
  obtain ⟨s1, hup⟩ := decUpdate_completes b0 ho (h.old o ho).1
  refine ⟨b0, rest, s1, hr, hup, ?_⟩
  simp only [decCode, hclass, decLookup, hr, decUpdateCommit, hup, andThen_next]

/-- Case KWKWK: the old string and its first byte, committed after the update with that byte (R96). -/
theorem DecInv.decCode_kwkwk (h : DecInv s) (ho : s.oldCode = some o) (hc : c.toNat = s.nextCode.toNat) :
    ∃ b0 rest s1, s.oldString = b0 :: rest ∧ decUpdate b0 s = .next s1 ∧
      decCode c s = .next (Machine.decCommit c (s.oldString ++ [b0]) s1) := by
  have hclass : classify s.mode c = .kwkwk := by simp [classify, State.mode, ho, hc]
  obtain ⟨hlt, hr⟩ := h.old o ho
  obtain ⟨b0, rest, hold⟩ := List.exists_cons_of_ne_nil (h.dict.reconstruct_ne_nil hr)
  obtain ⟨s1, hup⟩ := decUpdate_completes b0 ho hlt
  refine ⟨b0, rest, s1, hold, hup, ?_⟩
  simp only [decCode, hclass, decKwkwk, hold, decUpdateCommit, List.cons_append, hup, andThen_next]

/-- Case INVALID: a first code that is no entry, or a later one above `nextCode` (R98). -/
theorem decCode_invalid
    (h : (s.oldCode = none ∧ s.nextCode.toNat ≤ c.toNat) ∨ (s.oldCode ≠ none ∧ s.nextCode.toNat < c.toNat)) :
    decCode c s = .next (s.raise .invalidCode c) := by
  have hclass : classify s.mode c = .invalid := by
    obtain ⟨ho, hc⟩ | ⟨ho, hc⟩ := h
    · simp [classify, State.mode, ho, hc]
    · obtain ⟨o, ho⟩ := Option.ne_none_iff_exists'.1 ho
      simp [classify, State.mode, ho, hc.ne', hc.not_gt]
  simp only [decCode, hclass, decInvalid]

/-- DEC_CODE completes whatever the code: the four classes leave none out (R94). -/
theorem DecInv.decCode_completes (h : DecInv s) (c : Code) : ∃ t, decCode c s = .next t := by
  cases ho : s.oldCode with
  | none =>
    rcases Nat.lt_or_ge c.toNat s.nextCode.toNat with hc | hc
    · exact ⟨_, h.decCode_first ho hc⟩
    · exact ⟨_, decCode_invalid (.inl ⟨ho, hc⟩)⟩
  | some o =>
    rcases Nat.lt_trichotomy c.toNat s.nextCode.toNat with hc | hc | hc
    · obtain ⟨b0, rest, s1, -, -, hcode⟩ := h.decCode_lookup ho hc
      exact ⟨_, hcode⟩
    · obtain ⟨b0, rest, s1, -, -, hcode⟩ := h.decCode_kwkwk ho hc
      exact ⟨_, hcode⟩
    · exact ⟨_, decCode_invalid (.inr ⟨by simp [ho], hc⟩)⟩

end

/-! ## The obligations -/

/-- Settles O10: the pass begins with nothing listed, which reads as the roots. -/
theorem decStartBeginsAFreshPass : Obligations.DecStartBeginsAFreshPass := by
  intro d s
  refine ⟨fun h => ?_, fun h => ?_, fun h => startCommand_absorbed h⟩
  · exact ⟨decStart s, startCommand_begins h, rfl, rfl, rfl, rfl, rfl, rfl, rfl, rfl, rfl, entRead_of_nil rfl rfl, rfl⟩
  · refine (startCommand_misplaced h).trans ?_
    rw [commandInfo_eq_ofNat]
    rfl

/-- Settles O35: the feed alone. -/
theorem decByteWaitsForAWholeCode : Obligations.DecByteWaitsForAWholeCode := by
  intro b s hs h hshort
  obtain ⟨t, hfed, hframe⟩ := h.bpFeed_completes (b := b)
  obtain ⟨hlist, -, hclean⟩ := bpFeed_next_pending hfed h.clean
  exact ⟨t, (exec_dataDecByte_of_dec hs).trans (h.decByte_short hshort hfed), hlist, hclean, hframe⟩

/-- Settles O36: the state BP_READ leaves is one of the pass, where DEC_CODE completes. -/
theorem decByteRunsTheCodeItCompletes : Obligations.DecByteRunsTheCodeItCompletes := by
  intro b s hs h hfull
  obtain ⟨c, r, hbyte, hcode, hsplit, hcount, hclean, hframe⟩ := h.decByte_full (b := b) hfull
  have hsize := h.codeSize_bounds
  obtain ⟨t, ht⟩ := (h.of_pending hframe (by omega) hclean).decCode_completes c
  have hrs : r.status = .dec := (congrArg State.status hframe).trans hs
  refine ⟨c, r, t, hsplit, hcode, hcount, hclean, hframe, ?_, ?_⟩
  · rw [exec_dataDecByte_of_dec hs, hbyte, ht]
  · rw [exec_decodeCode, decCodeInPass_of_dec hrs, ht]

/-- Settles O37: the code is a root, so its string is its byte. -/
theorem firstCodeIsEmittedWithoutAnEntry : Obligations.FirstCodeIsEmittedWithoutAnEntry :=
  fun _ _ hs h ho hc => (decCodeInPass_of_dec hs).trans (h.decCode_first ho hc)

/-- Settles O38: a code is below `2^20`, so the update creates its entry; its string afterwards is what the invariant
says of the old code. -/
theorem kwkwkCodeRepeatsTheOldString : Obligations.KwkwkCodeRepeatsTheOldString := by
  intro c o s hs h ho hc
  obtain ⟨b0, rest, s1, hold, hup, hcode⟩ := h.decCode_kwkwk ho hc
  have hupdates := decUpdate_decoderUpdates h.dict.canon ho hup
  have hroom : s.nextCode.toNat ≤ Config.maxCode := by
    have := c.isLt
    simp only [Config.maxCode]
    omega
  exact ⟨_, b0, rest, hold, (decCodeInPass_of_dec hs).trans hcode, rfl, rfl, decUpdate_decCommit_out hup,
    hupdates, (hupdates.1 hroom).1.1, ((decCode_decInv h hcode).old c rfl).2, decUpdate_decCommit_frame hup⟩

/-- Settles O39: the update with the first byte of the table's string, then the commit. -/
theorem lookupCodeUsesTheTable : Obligations.LookupCodeUsesTheTable := by
  intro c o s hs h ho hc
  obtain ⟨b0, rest, s1, hr, hup, hcode⟩ := h.decCode_lookup ho hc
  have hupdates := decUpdate_decoderUpdates h.dict.canon ho hup
  exact ⟨_, b0, rest, hr, (decCodeInPass_of_dec hs).trans hcode, rfl, rfl, decUpdate_decCommit_out hup,
    hupdates, decUpdate_decCommit_frame hup⟩

/-- Settles O40: the class INVALID by value. -/
theorem invalidCodeIsAnError : Obligations.InvalidCodeIsAnError :=
  fun _ _ hs h => (decCodeInPass_of_dec hs).trans (decCode_invalid h)

/-- Settles O41: DEC_END writes `status` alone. -/
theorem decEndIgnoresTheLeftoverBits : Obligations.DecEndIgnoresTheLeftoverBits :=
  fun _ _ hs => exec_endDecEnd_of_dec hs

/-- Settles O42: the four rows share the one meaning, which asks for a decode pass. -/
theorem codesOutsideADecodePassAreRefused : Obligations.CodesOutsideADecodePassAreRefused :=
  fun _ _ hs =>
    ⟨decCodeInPass_outside hs, decCodeInPass_outside hs, decCodeInPass_outside hs, decCodeInPass_outside hs⟩

end Sys2Proof.Machine
end

section
/-! PROOFS, part 12. The round trip (R102): the run of a script, the encode pass as the maker of entries that name the
codes written, and the decode pass that makes the same entries one code later. -/

namespace Sys2Proof.Machine

/-! The run of a script (R70, R104). -/

/-- The last of `n + 1` steps. -/
theorem runSteps_succ (n : Nat) (s : State) : runSteps (n + 1) s = andThen (runSteps n s) step := by
  induction n generalizing s with
  | zero => rw [runSteps, runSteps, andThen_next]; cases step s <;> rfl
  | succ n ih =>
    rw [runSteps]
    conv_rhs => rw [runSteps]
    cases step s with
    | next t => exact ih t
    | fault r => rfl
    | refused r => rfl

/-- What each byte keeps, with the bytes taken so far in view, holds after all of them. -/
theorem runSteps_bytes {P : List Byte → State → Prop} {all : List Byte}
    (onByte : ∀ bytes b rest s, bytes ++ [b] <+: all → P bytes s → s.input = commandEvent 3 b :: rest →
      ∃ t, step s = .next t ∧ t.input = rest ∧ P (bytes ++ [b]) t)
    {last : List Event} (more : List Byte) {bytes : List Byte} {s : State} (hall : bytes ++ more = all)
    (h : P bytes s) (hi : s.input = more.map (commandEvent 3) ++ last) :
    ∃ t, runSteps more.length s = .next t ∧ t.input = last ∧ P all t := by
  induction more generalizing bytes s with
  | nil => exact ⟨s, rfl, hi, by rwa [← hall, List.append_nil]⟩
  | cons b more ih =>
    have hall' : (bytes ++ [b]) ++ more = all := by rw [List.append_assoc, List.singleton_append, hall]
    obtain ⟨s1, hstep, hi1, h1⟩ := onByte bytes b _ s (hall' ▸ List.prefix_append _ _) h hi
    obtain ⟨t, hrun, hlast, ht⟩ := ih hall' h1 hi1
    exact ⟨t, by rw [List.length_cons, runSteps, hstep, andThen_next, hrun], hlast, ht⟩

/-- A start command, the bytes, and the end, run from a state in which the start begins a pass. -/
theorem runCommands_script {P : List Byte → State → Prop} {Q : State → Prop} {op : BitVec 3} {begin : State → State}
    {bytes : List Byte} {s : State}
    (onStart : ∀ rest, step (s.withInput (commandEvent op 0 :: rest)) = .next (begin (s.withInput rest)))
    (hbegin : ∀ rest, (begin (s.withInput rest)).input = rest ∧ P [] (begin (s.withInput rest)))
    (onByte : ∀ fed b rest u, fed ++ [b] <+: bytes → P fed u → u.input = commandEvent 3 b :: rest →
      ∃ t, step u = .next t ∧ t.input = rest ∧ P (fed ++ [b]) t)
    (onEnd : ∀ u, P bytes u → u.input = [commandEvent 4 0] → ∃ t, step u = .next t ∧ Q t) :
    ∃ t, runCommands ([commandWord op 0] ++ bytes.map (commandWord 3) ++ [commandWord 4 0]) s = .next t ∧ Q t := by
  have hrun : runCommands ([commandWord op 0] ++ bytes.map (commandWord 3) ++ [commandWord 4 0]) s =
      runSteps (bytes.length + 2)
        (s.withInput (commandEvent op 0 :: (bytes.map (commandEvent 3) ++ [commandEvent 4 0]))) := by
    unfold commandEvent
    simp [runCommands, Function.comp_def]
  obtain ⟨hi, h0⟩ := hbegin (bytes.map (commandEvent 3) ++ [commandEvent 4 0])
  obtain ⟨u, hbytes, hlast, hu⟩ := runSteps_bytes onByte bytes rfl h0 hi
  obtain ⟨t, hend, ht⟩ := onEnd u hu hlast
  refine ⟨t, ?_, ht⟩
  rw [hrun, runSteps, onStart, andThen_next, runSteps_succ, hbytes, andThen_next, hend]

section
variable {s : State} {rest : List Event}

theorem step_decStart {d : Byte} (h : s.input = commandEvent 2 d :: rest) (hs : s.status = .idle ∨ s.status = .done) :
    step s = .next (decStart (s.withInput rest)) := by
  rw [step_of_command h, exec_decodeCommand, opField_commandWord]
  exact startCommand_begins (s := s.withInput rest) hs

theorem step_decByte {b : Byte} (h : s.input = commandEvent 3 b :: rest) (hs : s.status = .dec) :
    step s = decByte b (s.withInput rest) := by
  rw [step_of_command h, exec_decodeCommand, opField_commandWord, dataField_commandWord]
  exact exec_dataDecByte_of_dec (s := s.withInput rest) hs

theorem step_decEnd {d : Byte} (h : s.input = commandEvent 4 d :: rest) (hs : s.status = .dec) :
    step s = .next ((s.withInput rest).setStatus .done) := by
  rw [step_of_command h, exec_decodeCommand, opField_commandWord]
  exact exec_endDecEnd_of_dec (s := s.withInput rest) hs

end

/-! What the encode pass's entries say of the codes written. -/

/-- Each code written is an entry the decoder has or is about to create (R94, R102): code number `k`, from 0, is below
`256 + k`. -/
def CodesKnown (codes : List Code) : Prop :=
  ∀ front c, front ++ [c] <+: codes → c.toNat < 256 + front.length

/-- Dynamic entry number `k`, from 0, is the pair of code number `k` and the byte that follows this code's string in the
input (R86, R102). -/
def EntriesFollow (bytes : List Byte) (codes : List Code) (strs : List (List Byte)) (s : State) : Prop :=
  ∀ c p b, s.entRead c = some { pfx := some p, byte := b } →
    ∃ front fstrs, c.toNat = 256 + front.length ∧ fstrs.length = front.length + 1 ∧ front ++ [p] <+: codes ∧
      fstrs <+: strs ∧ fstrs.flatten ++ [b] <+: bytes

section
variable {bytes bytes' : List Byte} {codes codes' : List Code} {strs strs' : List (List Byte)} {s t : State}

theorem CodesKnown.concat {c : Code} (h : CodesKnown codes) (hc : c.toNat < 256 + codes.length) :
    CodesKnown (codes ++ [c]) := by
  intro front x hx
  obtain heq | hpre := List.prefix_concat_iff.1 hx
  · obtain ⟨rfl, rfl⟩ := List.append_singleton_inj.1 heq
    exact hc
  · exact h front x hpre

/-- More codes and more input leave what the entries say. -/
theorem EntriesFollow.mono (h : EntriesFollow bytes codes strs s) (hb : bytes <+: bytes') (hc : codes <+: codes')
    (hs : strs <+: strs') (ht : ∀ c, t.entRead c = s.entRead c) : EntriesFollow bytes' codes' strs' t := by
  intro c p b he
  obtain ⟨front, fstrs, hk, hlen, hfront, hfstrs, hbytes⟩ := h c p b (ht c ▸ he)
  exact ⟨front, fstrs, hk, hlen, hfront.trans hc, hfstrs.trans hs, hbytes.trans hb⟩

/-- The entry a miss makes, if the dictionary has room, is for the code just written and the byte that follows all the
strings (R86). -/
theorem EntriesFollow.encCreate {p : Code} {b : Byte} (h : EntriesFollow (bytes ++ [b]) (codes ++ [p]) strs s)
    (hcanon : s.canonical) (hp : s.prefixCode = some p) (hnext : s.nextCode.toNat = min (256 + codes.length) (2 ^ 20))
    (hlen : strs.length = codes.length + 1) (hbytes : strs.flatten = bytes) (hcreate : encCreate b s = .next t) :
    EntriesFollow (bytes ++ [b]) (codes ++ [p]) strs t := by
  obtain ⟨hbelow, hcap⟩ := encCreate_encoderCreates hcanon hp hcreate
  rcases Nat.lt_or_ge Config.maxCode s.nextCode.toNat with hfull | hroom
  · obtain ⟨hn, -, hent, -⟩ := hcap hfull
    exact h.mono (List.prefix_refl _) (List.prefix_refl _) (List.prefix_refl _) (State.entRead_congr hent hn)
  · obtain ⟨⟨-, hnew, hold⟩, -⟩ := hbelow hroom
    simp only [Config.maxCode] at hroom
    intro c q d he
    by_cases hc : c.toNat = s.nextCode.toNat
    · rw [hnew c hc] at he
      cases he
      exact ⟨codes, strs, by omega, hlen, List.prefix_refl _, List.prefix_refl _, by rw [hbytes]⟩
    · exact h c q d (hold c hc ▸ he)

/-! The encode pass. -/

/-- An encode pass in which the codes written and the entries made name each other. -/
structure EncodedInStep (bytes : List Byte) (codes : List Code) (strs : List (List Byte)) (s : State) : Prop where
  pass    : EncodedSoFar bytes codes strs s
  known   : CodesKnown codes
  entries : EntriesFollow bytes codes strs s
  fresh   : s.prefixCode = none → codes = []

/-- A finished encode pass with one entry fewer than codes, up to the cap. -/
structure PackedInStep (bytes : List Byte) (codes : List Code) (strs : List (List Byte)) (t : State) : Prop where
  stream  : PackedStream bytes codes strs t
  dict    : DictInv t
  next    : t.nextCode.toNat = min (256 + (codes.length - 1)) (2 ^ 20)
  known   : CodesKnown codes
  entries : EntriesFollow bytes codes strs t

theorem encStart_encodedInStep (s : State) : EncodedInStep [] [] [] (encStart s) := by
  refine ⟨encStart_encodedSoFar s, fun front c h => ?_, fun c p b he => ?_, fun _ => rfl⟩
  · simp at h
  · rw [entRead_of_nil rfl rfl] at he
    split at he <;> cases he

theorem EncodedInStep.withInput (h : EncodedInStep bytes codes strs s) (l : List Event) :
    EncodedInStep bytes codes strs (s.withInput l) :=
  ⟨h.pass.withInput l, h.known, h.entries, h.fresh⟩

/-- The first half of ENC_BYTE and ENC_END writes the match, if there is one, as the next code; the strings of the codes
written are then all the bytes taken. -/
theorem EncodedInStep.emit (h : EncodedInStep bytes codes strs s) (he : encEmit s = .next t) :
    ∃ strs', strs <+: strs' ∧ CodesWritten (codes ++ s.prefixCode.toList) strs' t ∧ strs'.flatten = bytes ∧
      CodesKnown (codes ++ s.prefixCode.toList) ∧ (codes ++ s.prefixCode.toList).length - 1 = codes.length := by
  obtain ⟨tail, htail, hbytes⟩ := h.pass.input
  obtain ⟨hp, rfl⟩ | ⟨p, hp, -⟩ := encEmit_next he
  · rw [hp] at htail ⊢
    cases htail
    obtain rfl := h.fresh hp
    exact ⟨strs, List.prefix_refl _, h.pass.written, by simpa using hbytes, h.known, rfl⟩
  · rw [hp] at htail ⊢
    have hstream := encEmit_next_streamBits h.pass.inv.clean he
    obtain ⟨bs, bits, count, rfl, -, -⟩ := encEmit_next_pending h.pass.inv he
    have hprog : PassProgress s ((s.emit bs).setPending bits count) :=
      .of_out rfl rfl rfl (List.prefix_append _ _) rfl
    have hlt := h.pass.inv.pfxLow p hp
    have hfit := h.pass.codeSize_eq ▸ h.pass.inv.lt_two_pow_codeSize hlt
    have hnext := h.pass.next
    refine ⟨strs ++ [tail], List.prefix_append _ _, ⟨?_, h.pass.written.fit.concat hfit, ?_⟩, by simpa using hbytes,
      h.known.concat (by omega), by simp⟩
    · rw [hstream, State.matchBits_some hp, h.pass.written.bits, h.pass.codeSize_eq]
      exact (codesBits_concat codes p).symm
    · exact StringsOf.of_progress (List.rel_append h.pass.written.strings (.cons htail .nil)) h.pass.inv.dict hprog

/-- A hit lengthens the match and makes no entry. -/
theorem EncodedInStep.encByte_hit {b : Byte} {m : Code} (h : EncodedInStep bytes codes strs s)
    (hm : s.lkRead s.prefixCode b = some m) : EncodedInStep (bytes ++ [b]) codes strs (s.setPrefixCode (some m)) := by
  have he := (h.pass.inv.index _ _ _).1 hm
  have hprog : PassProgress s (s.setPrefixCode (some m)) := .of_out rfl rfl rfl (List.prefix_refl _) rfl
  obtain ⟨tail, htail, hbytes⟩ := h.pass.input
  have hstr := h.pass.inv.dict.reconstruct_entry he htail
  have hpass : EncodedSoFar (bytes ++ [b]) codes strs (s.setPrefixCode (some m)) :=
    ⟨h.pass.status, h.pass.inv.setPrefixCode (State.entRead_lt he), h.pass.next,
      h.pass.written.of_progress h.pass.inv.dict hprog rfl, tail ++ [b],
      h.pass.inv.dict.reconstruct_extends hprog.entries hprog.nextLe hstr, by rw [← List.append_assoc, hbytes]⟩
  exact ⟨hpass, h.known,
    h.entries.mono (List.prefix_append _ _) (List.prefix_refl _) (List.prefix_refl _) fun _ => rfl, nofun⟩

/-- A miss writes the match, makes its entry below the cap, and starts the match anew. -/
theorem EncodedInStep.encByte_miss {b : Byte} (h : EncodedInStep bytes codes strs s)
    (hmiss : s.lkRead s.prefixCode b = none) :
    ∃ t codes' strs', encByte b s = .next t ∧ EncodedInStep (bytes ++ [b]) codes' strs' t := by
  obtain ⟨p, hp⟩ := h.pass.inv.prefixCode_of_miss hmiss
  obtain ⟨s1, s2, hemit, hcreate, hbyte⟩ := h.pass.inv.encByte_miss hmiss
  obtain ⟨strs', hstrs, hwritten, hbytes, hknown, -⟩ := h.emit hemit
  rw [hp] at hwritten hknown
  have hlen : codes.length + 1 = strs'.length := by simpa using hwritten.strings.length_eq
  obtain ⟨bs, bits, count, rfl, hcount, hbits⟩ := encEmit_next_pending h.pass.inv hemit
  have hi1 := h.pass.inv.emit_setPending bs hcount hbits
  have hi := encByte_encInv h.pass.inv hbyte
  have hnext : s2.nextCode.toNat = min (256 + (codes ++ [p]).length) (2 ^ 20) := by
    rw [encCreate_nextCode hcreate h.pass.inv.dict.high, State.setPending_nextCode, State.emit_nextCode, h.pass.next,
      List.length_append, List.length_singleton]
    omega
  have hpass : EncodedSoFar (bytes ++ [b]) (codes ++ [p]) strs' (s2.setPrefixCode (some (rootCode b))) :=
    ⟨(encByte_sameControl h.pass.inv hbyte).status.trans h.pass.status, hi, hnext,
      hwritten.of_progress hi1.dict { encCreate_progress hcreate with } (encCreate_streamBits (t := s2) hcreate),
      [b], hi.dict.reconstruct_entry (hi.dict.entRead_rootCode b) rfl, by rw [hbytes]⟩
  have hold : EntriesFollow (bytes ++ [b]) (codes ++ [p]) strs' ((s.emit bs).setPending bits count) :=
    h.entries.mono (List.prefix_append _ _) (List.prefix_append _ _) hstrs fun _ => rfl
  have hentries := hold.encCreate hi1.dict.canon hp h.pass.next hlen.symm hbytes hcreate
  exact ⟨_, codes ++ [p], strs', hbyte, hpass, hknown, hentries, nofun⟩

/-- ENC_BYTE keeps codes and entries in step. -/
theorem EncodedInStep.encByte (h : EncodedInStep bytes codes strs s) (b : Byte) :
    ∃ t codes' strs', encByte b s = .next t ∧ EncodedInStep (bytes ++ [b]) codes' strs' t := by
  cases hl : s.lkRead s.prefixCode b with
  | some m => exact ⟨_, codes, strs, Machine.encByte_hit hl, h.encByte_hit hl⟩
  | none => exact h.encByte_miss hl

/-- ENC_END closes the stream with one entry fewer than codes. -/
theorem EncodedInStep.encEnd (h : EncodedInStep bytes codes strs s) :
    ∃ t codes' strs', encEnd s = .next t ∧ PackedInStep bytes codes' strs' t := by
  obtain ⟨t, hend⟩ := h.pass.inv.encEnd_completes
  obtain ⟨s1, s2, hemit, hflush, ht⟩ := encEnd_next hend
  obtain ⟨strs', hstrs, hwritten, hbytes, hknown, hlen⟩ := h.emit hemit
  have hstream := encEmit_next_streamBits h.pass.inv.clean hemit
  obtain ⟨pad, hpad, hbits⟩ := encEnd_next_padded h.pass.inv hend
  obtain ⟨bs, bits, count, rfl, hcount, hclean⟩ := encEmit_next_pending h.pass.inv hemit
  have hprog : PassProgress ((s.emit bs).setPending bits count) t := by
    rw [ht]
    exact { bpFlush_progress hflush with }
  obtain ⟨bs', rfl⟩ := encEnd_next_flushed h.pass.inv hend
  refine ⟨_, _, strs', hend, ⟨rfl, ⟨pad, hpad, ?_⟩, hwritten.fit, ?_, hbytes⟩, h.pass.inv.dict.congr rfl rfl rfl,
    hlen.symm ▸ h.pass.next, hknown,
    h.entries.mono (List.prefix_refl _) (List.prefix_append _ _) hstrs fun _ => rfl⟩
  · rw [hbits, ← hstream, hwritten.bits]
  · exact hwritten.strings.of_progress (h.pass.inv.emit_setPending bs hcount hclean).dict hprog

end

/-- Every encode pass from a state outside a pass packs its bytes, its entries in step with its codes. -/
theorem runCommands_encodeScript_inStep (bytes : List Byte) {s : State} (hs : s.status = .idle ∨ s.status = .done) :
    ∃ t, runCommands (encodeScript bytes) s = .next t ∧ ∃ codes strs, PackedInStep bytes codes strs t := by
  refine runCommands_script (P := fun fed u => ∃ codes strs, EncodedInStep fed codes strs u)
    (fun rest => step_encStart (s := s.withInput _) rfl hs) (fun rest => ⟨rfl, [], [], encStart_encodedInStep _⟩)
    (fun fed b rest u _ hu hi => ?_) (fun u hu hi => ?_)
  · obtain ⟨codes, strs, h⟩ := hu
    obtain ⟨t, codes', strs', hbyte, ht⟩ := (h.withInput rest).encByte b
    exact ⟨t, (step_encByte hi h.pass.status).trans hbyte,
      (encByte_sameControl (h.withInput rest).pass.inv hbyte).input, codes', strs', ht⟩
  · obtain ⟨codes, strs, h⟩ := hu
    obtain ⟨t, codes', strs', hend, ht⟩ := (h.withInput []).encEnd
    exact ⟨t, (step_encEnd hi h.pass.status).trans hend, codes', strs', ht⟩

/-! What the decoder finds in the finished stream. -/

theorem codesBits_mono {codes codes' : List Code} (h : codes <+: codes') : codesBits codes <+: codesBits codes' := by
  obtain ⟨rest, rfl⟩ := h
  rw [codesBits, codesBits, List.zipIdx_append, List.flatMap_append]
  exact List.prefix_append _ _

theorem CodesFit.of_prefix {codes front : List Code} {c : Code} (h : CodesFit codes) (hc : front ++ [c] <+: codes) :
    c.toNat < 2 ^ widthSchedule (front.length + 1) := by
  obtain ⟨rest, rfl⟩ := hc
  refine h (c, front.length + 1) ?_
  simp [List.zipIdx_append, Nat.add_comm]

/-- Each code's string stands at its place. -/
theorem StringsOf.of_prefix {t : State} {codes front : List Code} {strs fstrs : List (List Byte)} {c : Code}
    {str : List Byte} (h : StringsOf t codes strs) (hc : front ++ [c] <+: codes) (hs : fstrs ++ [str] <+: strs)
    (hlen : fstrs.length = front.length) : dictReconstruct c t = .next str := by
  obtain ⟨rest, rfl⟩ := hc
  obtain ⟨srest, rfl⟩ := hs
  refine (List.forall₂_iff_zip.1 h).2 ?_
  simp [List.zip_append hlen.symm]

section
variable {bytes : List Byte} {codes front : List Code} {strs fstrs : List (List Byte)} {o c : Code} {t : State}

/-- The entry numbered as a code written before another is that code with the next string's first byte (R102). -/
theorem PackedInStep.entRead_of_written {fb : Byte} {rest : List Byte} (h : PackedInStep bytes codes strs t)
    (hc : front ++ [o] ++ [c] <+: codes) (hs : fstrs ++ [fb :: rest] <+: strs) (hlen : fstrs.length = front.length + 1)
    {x : Code} (hx : x.toNat = 256 + front.length) : t.entRead x = some { pfx := some o, byte := fb } := by
  have hcodes : front.length + 2 ≤ codes.length := by simpa using hc.length_le
  have hnext := h.next
  have hxlt := x.isLt
  obtain ⟨q, d, he, -⟩ := h.dict.dynamic x (by simp only [Config.nRoot]; omega) (by omega)
  obtain ⟨front', fstrs', hx', hlen', hc', hs', hbytes⟩ := h.entries x q d he
  have hfront : front' ++ [q] = front ++ [o] :=
    (List.prefix_of_prefix_length_le hc' ((List.prefix_append _ _).trans hc) (by simp; omega)).eq_of_length
      (by simp; omega)
  obtain ⟨-, rfl⟩ := List.append_singleton_inj.1 hfront
  obtain rfl : fstrs' = fstrs :=
    (List.prefix_of_prefix_length_le hs' ((List.prefix_append _ _).trans hs) (by omega)).eq_of_length (by omega)
  have hflat : fstrs'.flatten ++ fb :: rest <+: bytes := by
    obtain ⟨srest, hsrest⟩ := hs
    exact ⟨srest.flatten, by rw [← h.stream.input, ← hsrest]; simp⟩
  have hbyte : [d] <+: fb :: rest :=
    (List.prefix_append_right_inj _).1 (List.prefix_of_prefix_length_le hbytes hflat (by simp))
  obtain rfl : d = fb := (List.cons_prefix_cons.1 hbyte).1
  exact he

end

/-! The decode pass. -/

/-- A decode pass that has run DEC_CODE on these codes, whose strings these are: its entries are the encoder's, one
fewer than codes up to the cap (R102). -/
structure DecodedCodes (done : List Code) (dstrs : List (List Byte)) (t u : State) : Prop where
  inv    : DecInv u
  next   : u.nextCode.toNat = min (256 + (done.length - 1)) (2 ^ 20)
  old    : u.oldCode = done.getLast?
  out    : u.out = dstrs.flatten
  agrees : ∀ c x, u.entRead c = some x → t.entRead c = some x

section
variable {bytes : List Byte} {codes done : List Code} {strs dstrs : List (List Byte)} {o c : Code} {str : List Byte}
  {s t u v : State}

/-- What the decoder knows is a string of the encoder's dictionary. -/
theorem DecodedCodes.reconstruct (h : DecodedCodes done dstrs t u) (hp : PackedInStep bytes codes strs t)
    (hd : done <+: codes) (hr : dictReconstruct c u = .next str) : dictReconstruct c t = .next str := by
  refine h.inv.dict.reconstruct_extends h.agrees ?_ hr
  have hu := h.next
  have ht := hp.next
  have hlen := hd.length_le
  omega

theorem widthFor_min_succ (n : Nat) : widthFor (min n (2 ^ 20) + 1) = widthFor (n + 1) := by
  rcases Nat.le_total n (2 ^ 20) with hle | hle
  · rw [min_eq_left hle]
  · rw [min_eq_right hle, widthFor_eq_twenty (by omega), widthFor_eq_twenty (by omega)]

/-- The width the decoder reads with is the schedule's (R57, R102). -/
theorem DecodedCodes.codeSize_eq (h : DecodedCodes done dstrs t u) :
    u.codeSize.toNat = widthSchedule (done.length + 1) := by
  rw [h.inv.width, h.next, widthFor_min_succ, widthSchedule]
  rcases Nat.eq_zero_or_pos done.length with h0 | hpos
  · rw [h0]
    decide
  · congr 1
    omega

/-- The update with the byte the encoder's entry has, and the commit of the code, are one code more. -/
theorem DecodedCodes.committed {fb : Byte} (h : DecodedCodes done dstrs t u) (ho : u.oldCode = some o)
    (hne : done ≠ []) (hnew : ∀ x : Code, x.toNat = u.nextCode.toNat → t.entRead x = some { pfx := some o, byte := fb })
    (hup : decUpdate fb u = .next s) (hcode : decCode c u = .next (decCommit c str s)) :
    DecodedCodes (done ++ [c]) (dstrs ++ [str]) t (decCommit c str s) := by
  have hpos := List.length_pos_of_ne_nil hne
  have hnext := h.next
  refine ⟨decCode_decInv h.inv hcode, ?_, by simp [decCommit], ?_, fun x e he => ?_⟩
  · have hs := decUpdate_nextCode hup h.inv.dict.high
    show s.nextCode.toNat = _
    rw [List.length_append, List.length_singleton]
    omega
  · rw [decUpdate_decCommit_out hup, h.out]
    simp
  · replace he : s.entRead x = some e := he
    obtain ⟨hbelow, hcap⟩ := decUpdate_decoderUpdates h.inv.dict.canon ho hup
    rcases Nat.lt_or_ge Config.maxCode u.nextCode.toNat with hfull | hroom
    · obtain ⟨hn, -, hent⟩ := hcap hfull
      exact h.agrees x e ((State.entRead_congr hent hn x).symm.trans he)
    · obtain ⟨⟨-, hsame, hother⟩, -⟩ := hbelow hroom
      by_cases hx : x.toNat = u.nextCode.toNat
      · rw [hnew x hx, ← hsame x hx, he]
      · exact h.agrees x e ((hother x hx).symm.trans he)

/-- What DEC_CODE leaves as it was when it emits a string. -/
def KeepsPending (s t : State) : Prop :=
  t.status = s.status ∧ t.input = s.input ∧ t.pendingBits = s.pendingBits ∧ t.pendingCount = s.pendingCount

theorem decUpdate_decCommit_keepsPending {fb : Byte} (hup : decUpdate fb u = .next s) :
    KeepsPending u (decCommit c str s) := by
  rw [decUpdate_decCommit_frame hup]
  exact ⟨rfl, rfl, rfl, rfl⟩

/-- DEC_CODE on the first code of the stream (R95). -/
theorem DecodedCodes.decCode_first (h : DecodedCodes [] [] t u) (hp : PackedInStep bytes codes strs t)
    (hc : [c] <+: codes) (hs : [str] <+: strs) :
    ∃ v, decCode c u = .next v ∧ KeepsPending u v ∧ DecodedCodes [c] [str] t v := by
  have hroot : c.toNat < 256 := hp.known [] c hc
  have hnext : u.nextCode.toNat = 256 := h.next
  obtain rfl : str = [BitVec.ofNat 8 c.toNat] :=
    dictReconstruct_unique (hp.stream.strings.of_prefix (front := []) (fstrs := []) hc hs rfl)
      (hp.dict.reconstruct_root hroot)
  have hcode := h.inv.decCode_first h.old (hroot.trans_eq hnext.symm)
  exact ⟨_, hcode, ⟨rfl, rfl, rfl, rfl⟩, decCode_decInv h.inv hcode, h.next, rfl, by simp [decCommit, h.out], h.agrees⟩

/-- DEC_CODE on a later code: the table has its string, or its entry is the one being made, whose string the encoder's
dictionary gives (R96, R97). -/
theorem DecodedCodes.decCode_later (h : DecodedCodes (done ++ [o]) dstrs t u) (hp : PackedInStep bytes codes strs t)
    (hc : done ++ [o] ++ [c] <+: codes) (hs : dstrs ++ [str] <+: strs) (hlen : dstrs.length = done.length + 1) :
    ∃ v, decCode c u = .next v ∧ KeepsPending u v ∧ DecodedCodes (done ++ [o] ++ [c]) (dstrs ++ [str]) t v := by
  have hstr := hp.stream.strings.of_prefix hc hs (by simp [hlen])
  obtain ⟨fb, rest, rfl⟩ := List.exists_cons_of_ne_nil (hp.dict.reconstruct_ne_nil hstr)
  have ho : u.oldCode = some o := by simpa using h.old
  have hnext := h.next
  have hknown := hp.known _ c hc
  simp only [List.length_append, List.length_singleton] at hnext hknown
  have hnew : ∀ x : Code, x.toNat = u.nextCode.toNat → t.entRead x = some { pfx := some o, byte := fb } := fun x hx =>
    hp.entRead_of_written hc hs hlen (by have := x.isLt; omega)
  have hdone : done ++ [o] <+: codes := (List.prefix_append _ _).trans hc
  obtain ⟨s, hup, hcode⟩ : ∃ s, decUpdate fb u = .next s ∧ decCode c u = .next (decCommit c (fb :: rest) s) := by
    rcases Nat.lt_or_ge c.toNat u.nextCode.toNat with hlt | hge
    · obtain ⟨b0, rest0, s, hr, hup, hcode⟩ := h.inv.decCode_lookup ho hlt
      obtain ⟨rfl, rfl⟩ := List.cons.inj (dictReconstruct_unique hstr (h.reconstruct hp hdone hr))
      exact ⟨s, hup, hcode⟩
    · have hceq : c.toNat = u.nextCode.toNat := by have := c.isLt; omega
      obtain ⟨b0, rest0, s, hold, hup, hcode⟩ := h.inv.decCode_kwkwk ho hceq
      have hostr := h.reconstruct hp hdone (h.inv.old o ho).2
      have heq : fb :: rest = u.oldString ++ [fb] :=
        dictReconstruct_unique hstr (hp.dict.reconstruct_dynamic (hnew c hceq) hostr)
      obtain rfl : fb = b0 := by
        rw [hold] at heq
        exact (List.cons.inj heq).1
      exact ⟨s, hup, heq ▸ hcode⟩
  exact ⟨_, hcode, decUpdate_decCommit_keepsPending hup, h.committed ho (by simp) hnew hup hcode⟩

/-- DEC_CODE on the next code of the stream. -/
theorem DecodedCodes.decCode (h : DecodedCodes done dstrs t u) (hp : PackedInStep bytes codes strs t)
    (hc : done ++ [c] <+: codes) (hs : dstrs ++ [str] <+: strs) (hlen : dstrs.length = done.length) :
    ∃ v, decCode c u = .next v ∧ KeepsPending u v ∧ DecodedCodes (done ++ [c]) (dstrs ++ [str]) t v := by
  obtain rfl | ⟨front, o, rfl⟩ := List.eq_nil_or_concat' done
  · obtain rfl : dstrs = [] := List.length_eq_zero_iff.1 hlen
    exact h.decCode_first hp hc hs
  · exact h.decCode_later hp hc hs (by simpa using hlen)

end

/-! The decode pass over the bytes of the stream. -/

/-- A decode pass that has been fed these bytes of the stream: the codes decoded and the pending bits are theirs. -/
structure DecodedSoFar (codes : List Code) (strs : List (List Byte)) (t : State) (fed : List Byte) (done : List Code)
    (dstrs : List (List Byte)) (u : State) : Prop where
  status  : u.status = .dec
  decoded : DecodedCodes done dstrs t u
  bits    : codesBits done ++ u.pendingList = byteBits fed
  codes   : done <+: codes
  strs    : dstrs <+: strs
  length  : dstrs.length = done.length

section
variable {bytes fed : List Byte} {codes done : List Code} {strs dstrs : List (List Byte)} {t u v : State}

theorem PackedStream.codesBits_prefix (h : PackedStream bytes codes strs t) (hd : done <+: codes) :
    codesBits done <+: byteBits t.out := by
  obtain ⟨pad, -, hbits⟩ := h.bits
  exact (codesBits_mono hd).trans (hbits ▸ List.prefix_append _ _)

/-- Bits of the stream behind the codes decoded, as many as a code has, are the next code's: the padding is shorter than
a code (R57, R90). -/
theorem PackedStream.next_code (h : PackedStream bytes codes strs t) (hd : done <+: codes) {n : Nat}
    (hn : n < 2 ^ widthSchedule (done.length + 1))
    (hbits : codesBits done ++ lsbBits (widthSchedule (done.length + 1)) n <+: byteBits t.out) :
    ∃ c, done ++ [c] <+: codes ∧ c.toNat = n := by
  have hwidth := widthFor_bounds (255 + (done.length + 1))
  have hlt : done.length < codes.length := by
    by_contra hge
    obtain rfl := hd.eq_of_length_le (Nat.le_of_not_lt hge)
    obtain ⟨pad, hpad, hout⟩ := h.bits
    have hlen := hbits.length_le
    rw [hout] at hlen
    simp only [List.length_append, lsbBits_length, List.length_replicate, widthSchedule] at hlen
    omega
  have hc := List.concat_get_prefix hd hlt
  have hcbits := h.codesBits_prefix hc
  rw [codesBits_concat] at hcbits
  have heq := (List.prefix_of_prefix_length_le hcbits hbits (by simp)).eq_of_length (by simp)
  exact ⟨_, hc, eq_of_lsbBits (h.fit.of_prefix hc) hn (List.append_cancel_left heq)⟩

/-- What speaks of no pending bit and no event holds whatever they are. -/
theorem DecodedCodes.congr (h : DecodedCodes done dstrs t u) (hv : DecInv v)
    (hframe : v = { u with pendingBits := v.pendingBits, pendingCount := v.pendingCount, input := v.input }) :
    DecodedCodes done dstrs t v := by
  rw [hframe] at hv ⊢
  exact ⟨hv, h.next, h.old, h.out, h.agrees⟩

theorem decStart_decodedSoFar (hp : PackedInStep bytes codes strs t) (s : State) :
    DecodedSoFar codes strs t [] [] [] (decStart s) := by
  refine ⟨rfl, ⟨decStart_inv s, rfl, rfl, rfl, fun c x he => ?_⟩, rfl, List.nil_prefix, List.nil_prefix, rfl⟩
  rw [entRead_of_nil rfl rfl] at he
  split at he
  · next hc => rw [hp.dict.entRead_root hc, he]
  · cases he

theorem DecodedSoFar.withInput (h : DecodedSoFar codes strs t fed done dstrs u) (l : List Event) :
    DecodedSoFar codes strs t fed done dstrs (u.withInput l) :=
  ⟨h.status, h.decoded.congr (h.decoded.inv.congr rfl rfl rfl rfl rfl rfl rfl rfl) rfl, h.bits, h.codes, h.strs,
    h.length⟩

/-- A byte that completes no code. -/
theorem DecodedSoFar.decByte_short {b : Byte} (h : DecodedSoFar codes strs t fed done dstrs u)
    (hshort : u.pendingCount.toNat + 8 < u.codeSize.toNat) :
    ∃ v, decByte b u = .next v ∧ v.input = u.input ∧ DecodedSoFar codes strs t (fed ++ [b]) done dstrs v := by
  obtain ⟨v, hfed, hframe⟩ := h.decoded.inv.bpFeed_completes (b := b)
  have hbyte := h.decoded.inv.decByte_short hshort hfed
  obtain ⟨hlist, -, -⟩ := bpFeed_next_pending hfed h.decoded.inv.clean
  have hinput : v.input = u.input := by rw [hframe]
  have hinv := decByte_decInv h.decoded.inv hbyte
  refine ⟨v, hbyte, hinput, ⟨?_, h.decoded.congr hinv ?_, ?_, h.codes, h.strs, h.length⟩⟩
  · rw [hframe]
    exact h.status
  · rw [hinput]
    exact hframe
  · rw [hlist, ← List.append_assoc, h.bits]
    simp

/-- A byte that completes a code. -/
theorem DecodedSoFar.decByte_full {b : Byte} (h : DecodedSoFar codes strs t fed done dstrs u)
    (hp : PackedInStep bytes codes strs t) (hfed : fed ++ [b] <+: t.out)
    (hfull : u.codeSize.toNat ≤ u.pendingCount.toNat + 8) :
    ∃ v done' dstrs', decByte b u = .next v ∧ v.input = u.input ∧
      DecodedSoFar codes strs t (fed ++ [b]) done' dstrs' v := by
  obtain ⟨c, r, hbyte, hcode, hsplit, hcount, hclean, hframe⟩ := h.decoded.inv.decByte_full (b := b) hfull
  have hsize := h.decoded.inv.codeSize_bounds
  have hbits : codesBits done ++ lsbBits u.codeSize.toNat c.toNat ++ r.pendingList = byteBits (fed ++ [b]) := by
    rw [List.append_assoc, ← hsplit, ← List.append_assoc, h.bits]
    simp
  have hstream : byteBits (fed ++ [b]) <+: byteBits t.out := by
    obtain ⟨more, hmore⟩ := hfed
    exact ⟨byteBits more, by rw [← hmore, byteBits_append (fed ++ [b])]⟩
  rw [h.decoded.codeSize_eq] at hcode hbits
  obtain ⟨c', hc, heq⟩ := hp.stream.next_code h.codes hcode ((hbits ▸ List.prefix_append _ _).trans hstream)
  obtain rfl : c' = c := BitVec.eq_of_toNat_eq heq
  have hroom : dstrs.length < strs.length := by
    have hlen := hc.length_le
    rw [List.length_append, List.length_singleton, hp.stream.strings.length_eq] at hlen
    have := h.length
    omega
  have hs := List.concat_get_prefix h.strs hroom
  have hrinput : r.input = u.input := by rw [hframe]
  have hr := h.decoded.congr (h.decoded.inv.of_pending hframe (by omega) hclean) (by rw [hrinput]; exact hframe)
  obtain ⟨v, hv, ⟨hstatus, hinput, hpbits, hpcount⟩, hdecoded⟩ := hr.decCode hp hc hs h.length
  refine ⟨v, _, _, hbyte.trans hv, hinput.trans hrinput, ⟨?_, hdecoded, ?_, hc, hs, by simp [h.length]⟩⟩
  · rw [hstatus, hframe]
    exact h.status
  · rw [State.pendingList, hpbits, hpcount, codesBits_concat]
    exact hbits

theorem DecodedSoFar.decByte {b : Byte} (h : DecodedSoFar codes strs t fed done dstrs u)
    (hp : PackedInStep bytes codes strs t) (hfed : fed ++ [b] <+: t.out) :
    ∃ v done' dstrs', decByte b u = .next v ∧ v.input = u.input ∧
      DecodedSoFar codes strs t (fed ++ [b]) done' dstrs' v := by
  rcases Nat.lt_or_ge (u.pendingCount.toNat + 8) u.codeSize.toNat with hshort | hfull
  · obtain ⟨v, hv⟩ := h.decByte_short (b := b) hshort
    exact ⟨v, done, dstrs, hv⟩
  · exact h.decByte_full hp hfed hfull

/-- Fed the whole stream, the decoder has decoded every code: the bits left are fewer than a code has. -/
theorem DecodedSoFar.finished (h : DecodedSoFar codes strs t t.out done dstrs u)
    (hp : PackedInStep bytes codes strs t) : DecodedCodes codes strs t u := by
  have hcodes : done = codes := by
    refine h.codes.eq_of_length_le (Nat.le_of_not_lt fun hlt => ?_)
    have hlen := (hp.stream.codesBits_prefix (List.concat_get_prefix h.codes hlt)).length_le
    rw [codesBits_concat, ← h.bits, ← h.decoded.codeSize_eq] at hlen
    simp only [List.length_append, lsbBits_length, State.pendingList] at hlen
    have := h.decoded.inv.pending
    omega
  have hstrs : dstrs = strs :=
    h.strs.eq_of_length (by rw [h.length, hcodes, hp.stream.strings.length_eq])
  exact hcodes ▸ hstrs ▸ h.decoded

end

/-- A decode pass over a finished stream decodes all its codes. -/
theorem runCommands_decodeScript {bytes : List Byte} {codes : List Code} {strs : List (List Byte)} {t : State}
    (hp : PackedInStep bytes codes strs t) :
    ∃ u, runCommands (decodeScript t.out) t = .next u ∧ u.status = .done ∧ DecodedCodes codes strs t u := by
  refine runCommands_script (P := fun fed u => ∃ done dstrs, DecodedSoFar codes strs t fed done dstrs u)
    (fun rest => step_decStart (s := t.withInput _) rfl (.inr hp.stream.status))
    (fun rest => ⟨rfl, [], [], decStart_decodedSoFar hp _⟩) (fun fed b rest u hfed hu hi => ?_) (fun u hu hi => ?_)
  · obtain ⟨done, dstrs, h⟩ := hu
    obtain ⟨v, done', dstrs', hbyte, hinput, hv⟩ := (h.withInput rest).decByte hp hfed
    exact ⟨v, (step_decByte hi h.status).trans hbyte, hinput, done', dstrs', hv⟩
  · obtain ⟨done, dstrs, h⟩ := hu
    have hd := (h.withInput []).finished hp
    exact ⟨_, step_decEnd hi h.status, rfl, hd.inv.congr rfl rfl rfl rfl rfl rfl rfl rfl, hd.next, hd.old, hd.out,
      hd.agrees⟩

section
variable {bytes : List Byte} {codes : List Code} {strs : List (List Byte)} {t u : State}

theorem DictInv.entRead_exists (h : DictInv u) {c : Code} (hc : c.toNat < u.nextCode.toNat) :
    ∃ x, u.entRead c = some x := by
  by_cases hroot : c.toNat < 256
  · exact ⟨_, h.entRead_root hroot⟩
  · obtain ⟨p, b, he, -⟩ := h.dynamic c (Nat.le_of_not_lt hroot) hc
    exact ⟨_, he⟩

theorem DecodedCodes.nextCode_eq (h : DecodedCodes codes strs t u) (hp : PackedInStep bytes codes strs t) :
    u.nextCode = t.nextCode :=
  BitVec.eq_of_toNat_eq (h.next.trans hp.next.symm)

theorem DecodedCodes.entRead_eq (h : DecodedCodes codes strs t u) (hp : PackedInStep bytes codes strs t) (c : Code) :
    u.entRead c = t.entRead c := by
  rcases Nat.lt_or_ge c.toNat u.nextCode.toNat with hlt | hge
  · obtain ⟨x, hx⟩ := h.inv.dict.entRead_exists hlt
    rw [hx, h.agrees c x hx]
  · rw [State.entRead_of_le hge, State.entRead_of_le (h.nextCode_eq hp ▸ hge)]

end

/-! ## The obligations -/

/-- Settles O51: the decoder makes each of the encoder's entries from the code it has and the first byte of the next
string, so it decodes every code of the stream to its string and ends with the same entries. -/
theorem decodingAnEncodedStreamGivesTheInput : Obligations.DecodingAnEncodedStreamGivesTheInput := by
  intro bytes s hs
  obtain ⟨t, hencode, codes, strs, hp⟩ := runCommands_encodeScript_inStep bytes hs
  obtain ⟨u, hdecode, hstatus, hd⟩ := runCommands_decodeScript hp
  exact ⟨t, u, hencode, hp.stream.status, hdecode, hstatus, hd.out.trans hp.stream.input, hd.nextCode_eq hp,
    hd.entRead_eq hp⟩

end Sys2Proof.Machine
end

section
/-! PROOFS, part 13. The control: what a command word does by the status it meets, the transitions of `status`, and that
every host event completes while the invariant of the running pass holds. -/

namespace Sys2Proof.Machine

/-! The dispatch of R105, one row for each status. -/

/-- What a word that is not accepted raises: PROTOCOL for the four legal operations, ILLEGAL_CMD for the reserved ones
(R122, R123). -/
def misplacedError (op : BitVec 3) : ErrCode := if 1 ≤ op.toNat ∧ op.toNat ≤ 4 then .protocol else .illegalCmd

/-- The state after a word that is not accepted (R124). -/
def State.misplaced (s : State) (w : CommandWord) : State :=
  s.raise (misplacedError (opField w)) (commandInfo (opField w) (dataField w))

theorem op_cases : ∀ op : BitVec 3, op = 0 ∨ op = 1 ∨ op = 2 ∨ op = 3 ∨ op = 4 ∨ op = 5 ∨ op = 6 ∨ op = 7 := by
  decide

theorem reservedCommand_raises {op : BitVec 3} {d : Byte} {s : State} (hs : s.status ≠ .err) :
    reservedCommand op d s = .next (s.raise .illegalCmd (commandInfo op d)) := by
  unfold reservedCommand
  split
  case h_5 he => exact absurd he hs
  all_goals rfl

section
variable {s : State} (st : Status) (w : CommandWord)

/-- In ERR every word is absorbed (R110). -/
theorem exec_command_err (hs : s.status = .err) : exec (decodeCommand st w) s = .next s := by
  rw [exec_decodeCommand]
  split <;> simp only [reservedCommand, startCommand, dataCommand, endCommand, hs]

/-- Outside a pass the two start commands are accepted. -/
theorem exec_command_outside (hs : s.status = .idle ∨ s.status = .done) :
    exec (decodeCommand st w) s = .next
      (if (opField w).toNat = 1 then encStart s else if (opField w).toNat = 2 then decStart s else s.misplaced w) := by
  rw [exec_decodeCommand, State.misplaced]
  obtain h | h | h | h | h | h | h | h := op_cases (opField w) <;> rcases hs with hs | hs <;>
    simp [h, reservedCommand, startCommand, dataCommand, endCommand, hs, misplacedError]

/-- In an encode pass DATA and END are accepted. -/
theorem exec_command_enc (hs : s.status = .enc) :
    exec (decodeCommand st w) s =
      if (opField w).toNat = 3 then encByte (dataField w) s
      else if (opField w).toNat = 4 then encEnd s else .next (s.misplaced w) := by
  rw [exec_decodeCommand, State.misplaced]
  obtain h | h | h | h | h | h | h | h := op_cases (opField w) <;>
    simp [h, reservedCommand, startCommand, dataCommand, endCommand, hs, misplacedError]

/-- In a decode pass DATA and END are accepted. -/
theorem exec_command_dec (hs : s.status = .dec) :
    exec (decodeCommand st w) s =
      if (opField w).toNat = 3 then decByte (dataField w) s
      else .next (if (opField w).toNat = 4 then decEnd s else s.misplaced w) := by
  rw [exec_decodeCommand, State.misplaced]
  obtain h | h | h | h | h | h | h | h := op_cases (opField w) <;>
    simp [h, reservedCommand, startCommand, dataCommand, endCommand, hs, misplacedError]

end

/-- A status read changes the model's own `result` and `freeCount` at most, whatever the status (R111). -/
theorem step_of_select_frame {s : State} {sel : BitVec 3} {rest : List Event} (h : s.input = .word (.rd sel) :: rest) :
    ∃ r f, step s = .next { s with input := rest, result := r, freeCount := f } := by
  obtain ⟨r, f, hread⟩ := exec_decodeSelect sel (s.withInput rest)
  exact ⟨r, f, (step_of_select h).trans hread⟩

/-! The control registers after a command inside a pass, whatever the invariant (R24). -/

section
variable {s t : State}

/-- The first half of ENC_BYTE and ENC_END changes OUT and the pending register alone. -/
theorem encEmit_frame (h : encEmit s = .next t) :
    t = { s with out := t.out, pendingBits := t.pendingBits, pendingCount := t.pendingCount } := by
  obtain ⟨-, rfl⟩ | ⟨p, -, hw⟩ := encEmit_next h
  · rfl
  · obtain ⟨-, -, -, rfl⟩ := bpWrite_next hw
    rfl

theorem encByte_keeps_control {c : Byte} (h : encByte c s = .next t) : SameControl s t := by
  obtain ⟨m, -, rfl⟩ | ⟨-, s1, s2, hemit, hcreate, rfl⟩ := encByte_next h
  · exact ⟨rfl, rfl, rfl, rfl, rfl⟩
  · rw [encEmit_frame hemit] at hcreate
    exact { encCreate_sameControl hcreate with }

theorem encEnd_finishes (h : encEnd s = .next t) : t.status = .done ∧ t.input = s.input := by
  obtain ⟨s1, s2, hemit, hflush, rfl⟩ := encEnd_next h
  rw [encEmit_frame hemit] at hflush
  obtain ⟨-, ⟨-, rfl⟩ | ⟨-, rfl⟩⟩ := bpFlush_next hflush <;> exact ⟨rfl, rfl⟩

/-- DEC_BYTE keeps the control registers, or an invalid code ends the pass (R98). -/
theorem decByte_keeps_control {b : Byte} (h : decByte b s = .next t) :
    SameControl s t ∨ ∃ r c, SameControl s r ∧ t = r.raise .invalidCode c := by
  obtain ⟨s1, r, hfed, hread, hcode⟩ := decByte_next h
  have hr : SameControl s r.1 := by
    obtain ⟨-, rfl⟩ := bpFeed_next hfed
    obtain ⟨-, -, ⟨-, rfl⟩ | ⟨-, rfl⟩⟩ := bpRead_next hread <;> exact ⟨rfl, rfl, rfl, rfl, rfl⟩
  obtain ⟨-, rfl⟩ | ⟨c, -, hcode⟩ := hcode
  · exact .inl hr
  · obtain hsame | rfl := decCode_control hcode
    · exact .inl ⟨hsame.status.trans hr.status, hsame.errcode.trans hr.errcode, hsame.errinfo.trans hr.errinfo,
        hsame.started.trans hr.started, hsame.input.trans hr.input⟩
    · exact .inr ⟨r.1, c, hr, rfl⟩

/-- No command word takes a later event. -/
theorem CommandEffect.input_eq {w : CommandWord} (h : CommandEffect w s t) : t.input = s.input := by
  cases h with
  | absorbed | encStarts | decStarts | raises | decEnds => rfl
  | encByte _ _ _ hb => exact (encByte_keeps_control hb).input
  | encEnds _ _ he => exact (encEnd_finishes he).2
  | decByte _ _ _ hb =>
    obtain hsame | ⟨r, c, hr, rfl⟩ := decByte_keeps_control hb
    · exact hsame.input
    · exact hr.input

end

/-! The invariant of the running pass, which is all that a command needs to complete (R113). -/

/-- The pass that runs, if one does, has its invariant. -/
structure RunningInv (s : State) : Prop where
  enc : s.status = .enc → EncInv s
  dec : s.status = .dec → DecInv s

section
variable {s t : State}

theorem Inv.running (h : Inv s) : RunningInv s := ⟨h.enc, h.dec⟩

theorem RunningInv.withInput (h : RunningInv s) (l : List Event) : RunningInv (s.withInput l) :=
  ⟨fun hs => (h.enc hs).congr rfl rfl rfl rfl rfl rfl rfl,
    fun hs => (h.dec hs).congr rfl rfl rfl rfl rfl rfl rfl rfl⟩

theorem EncInv.encByte_completes (h : EncInv s) (c : Byte) : ∃ t, encByte c s = .next t := by
  cases hl : s.lkRead s.prefixCode c with
  | some m => exact ⟨_, encByte_hit hl⟩
  | none =>
    obtain ⟨s1, s2, -, -, hbyte⟩ := h.encByte_miss hl
    exact ⟨_, hbyte⟩

theorem DecInv.decByte_completes (h : DecInv s) (b : Byte) : ∃ t, decByte b s = .next t := by
  rcases Nat.lt_or_ge (s.pendingCount.toNat + 8) s.codeSize.toNat with hshort | hfull
  · obtain ⟨t, hfed, -⟩ := h.bpFeed_completes (b := b)
    exact ⟨t, h.decByte_short hshort hfed⟩
  · obtain ⟨c, r, hbyte, -, -, hcount, hclean, hframe⟩ := h.decByte_full (b := b) hfull
    have hsize := h.codeSize_bounds
    obtain ⟨t, ht⟩ := (h.of_pending hframe (by omega) hclean).decCode_completes c
    exact ⟨t, hbyte.trans ht⟩

/-- Every command word completes: in ERR it is absorbed, outside a pass it begins one or raises, in a pass it takes a
byte, ends the pass or raises. -/
theorem RunningInv.command_completes (h : RunningInv s) (st : Status) (w : CommandWord) :
    ∃ t, exec (decodeCommand st w) s = .next t := by
  cases hs : s.status with
  | idle => exact ⟨_, exec_command_outside st w (.inl hs)⟩
  | done => exact ⟨_, exec_command_outside st w (.inr hs)⟩
  | err => exact ⟨_, exec_command_err st w hs⟩
  | enc =>
    rw [exec_command_enc st w hs]
    split_ifs
    · exact (h.enc hs).encByte_completes _
    · exact (h.enc hs).encEnd_completes
    · exact ⟨_, rfl⟩
  | dec =>
    rw [exec_command_dec st w hs]
    split_ifs
    · exact (h.dec hs).decByte_completes _
    · exact ⟨_, rfl⟩
    · exact ⟨_, rfl⟩

/-- Every effect of a command word leaves the pass that then runs with its invariant. -/
theorem CommandEffect.running {w : CommandWord} (he : CommandEffect w s t) (h : RunningInv s) : RunningInv t := by
  cases he with
  | absorbed => exact h
  | encStarts => exact ⟨fun _ => encStart_inv s, nofun⟩
  | decStarts => exact ⟨nofun, fun _ => decStart_inv s⟩
  | raises | decEnds => exact ⟨nofun, nofun⟩
  | encByte _ b hs hb =>
    have hst := (encByte_keeps_control hb).status.trans hs
    exact ⟨fun _ => encByte_encInv (h.enc hs) hb, by simp [hst]⟩
  | decByte _ b hs hb =>
    refine ⟨fun hst => ?_, fun _ => decByte_decInv (h.dec hs) hb⟩
    obtain hsame | ⟨r, c, -, rfl⟩ := decByte_keeps_control hb
    · rw [hsame.status, hs] at hst
      cases hst
    · cases hst
  | encEnds _ _ he =>
    have hst := (encEnd_finishes he).1
    exact ⟨by simp [hst], by simp [hst]⟩

end

/-! ## The obligations -/

/-- Settles O46: a reset and a status read always complete, a command word does by the invariant of the running pass. -/
theorem hostEventsNeverStop : Obligations.HostEventsNeverStop := by
  intro s h
  cases hi : s.input with
  | nil => exact ⟨s, step_of_no_event hi⟩
  | cons e rest =>
    have hhost : e.isHost = true := h.host e (hi ▸ List.mem_cons_self)
    match e with
    | .reset => exact ⟨_, step_of_reset hi⟩
    | .word (.rd sel) =>
      obtain ⟨r, f, hread⟩ := step_of_select_frame hi
      exact ⟨_, hread⟩
    | .word (.cmd w) =>
      obtain ⟨t, ht⟩ := (h.running.withInput rest).command_completes s.status w
      exact ⟨t, (step_of_command hi).trans ht⟩

/-- Settles O13: the row of ERR absorbs every word; a status read changes no register, and the reset leads to IDLE. -/
theorem errAbsorbsEveryCommandWord : Obligations.ErrAbsorbsEveryCommandWord := by
  intro s hs
  have absorbed : ∀ w rest, s.input = .word (.cmd w) :: rest → step s = .next (s.withInput rest) := fun w rest hi =>
    (step_of_command hi).trans (exec_command_err (s := s.withInput rest) s.status w hs)
  refine ⟨absorbed, fun e rest t hi hhost hstep => ?_⟩
  match e with
  | .reset =>
    rw [step_of_reset hi] at hstep
    cases hstep
    exact iff_of_true nofun rfl
  | .word (.cmd w) =>
    rw [absorbed w rest hi] at hstep
    cases hstep
    exact iff_of_false (not_not.2 hs) nofun
  | .word (.rd sel) =>
    obtain ⟨r, f, hread⟩ := step_of_select_frame hi
    rw [hread] at hstep
    cases hstep
    exact iff_of_false (not_not.2 hs) nofun

/-- Settles O14: the rows of the dispatch, with what a byte and an end do to `status`. -/
theorem statusFollowsTheTransitionGraph : Obligations.StatusFollowsTheTransitionGraph := by
  intro s t e rest hi hstep
  refine ⟨?_, ?_, ?_⟩
  · rintro rfl
    rw [step_of_reset hi] at hstep
    cases hstep
    rfl
  · rintro sel rfl
    obtain ⟨r, f, hread⟩ := step_of_select_frame hi
    rw [hread] at hstep
    cases hstep
    rfl
  · rintro w rfl
    rw [step_of_command hi] at hstep
    rw [← opField_toNat w]
    refine ⟨fun hs => ?_, fun hs => ?_, fun hs hop => ?_, fun hs hop => ?_, fun hs => ?_⟩
    · rw [exec_command_outside (s := s.withInput rest) _ w hs] at hstep
      cases hstep
      split_ifs <;> rfl
    · rw [exec_command_enc (s := s.withInput rest) _ w hs] at hstep
      split_ifs at hstep ⊢
      · exact (encByte_keeps_control hstep).status.trans hs
      · exact (encEnd_finishes hstep).1
      · cases hstep
        rfl
    · rw [exec_command_dec (s := s.withInput rest) _ w hs, if_pos hop] at hstep
      obtain hsame | ⟨r, c, -, rfl⟩ := decByte_keeps_control hstep
      · exact .inl (hsame.status.trans hs)
      · exact .inr ⟨rfl, rfl⟩
    · rw [exec_command_dec (s := s.withInput rest) _ w hs, if_neg hop] at hstep
      cases hstep
      split_ifs <;> rfl
    · rw [exec_command_err (s := s.withInput rest) _ w hs] at hstep
      cases hstep
      exact hs

/-- Settles O12: a reserved operation raises ILLEGAL_CMD with the whole word. -/
theorem reservedOperationsRaiseIllegalCmd : Obligations.ReservedOperationsRaiseIllegalCmd := by
  intro d s hs
  have raised : ∀ op : BitVec 3, reservedCommand op d s = .next { s with
      status := .err, errcode := .illegalCmd, errinfo := BitVec.ofNat 20 (op.toNat * 256 + d.toNat) } := fun op => by
    rw [reservedCommand_raises hs, commandInfo_eq_ofNat]
    rfl
  have hzero : (0 : BitVec 3).toNat * 256 + d.toNat = d.toNat := Nat.zero_add _
  exact ⟨hzero ▸ raised 0, raised 5, raised 6, raised 7⟩

end Sys2Proof.Machine
end

section
/-! PROOFS, part 14. A pass depends on nothing before it: the registers that the running pass does not read, two states
that differ in those alone, and two runs of the same command words side by side. -/

namespace Sys2Proof.Machine

/-! The operations of a pass by the case they meet, and what a reconstruction depends on. -/

section
variable {s t : State} {p : Code} {b : Byte}

theorem encEmit_none (hp : s.prefixCode = none) : encEmit s = .next s := by rw [encEmit, hp]

theorem encEmit_some (hp : s.prefixCode = some p) : encEmit s = bpWrite p s.codeSize s := by rw [encEmit, hp]

theorem encCreate_full (h : 1048575 < s.nextCode.toNat) : encCreate b s = .next s :=
  if_neg (by simp [State.canAppend, h])

theorem encCreate_appended (hn : s.nextCode.toNat ≤ 1048575) (hp : s.prefixCode = some p)
    (hlt : p.toNat < s.nextCode.toNat) :
    encCreate b s = .next ((s.appended true p b).grownIf (encoderGrows (s.nextCode + 1) s.codeSize)) := by
  rw [encCreate, if_pos (by simp [State.canAppend, hn]), hp, dictAppend_appended hn hlt, andThen_next,
    ite_grow_eq_grownIf]
  rfl

theorem decUpdate_full (h : 1048575 < s.nextCode.toNat) : decUpdate b s = .next s :=
  if_neg (by simp [State.canAppend, h])

theorem decUpdate_appended (hn : s.nextCode.toNat ≤ 1048575) (hp : s.oldCode = some p)
    (hlt : p.toNat < s.nextCode.toNat) :
    decUpdate b s = .next ((s.appended false p b).grownIf (decoderGrows (s.nextCode + 1) s.codeSize)) := by
  rw [decUpdate, if_pos (by simp [State.canAppend, hn]), hp, dictAppend_appended hn hlt, andThen_next,
    ite_grow_eq_grownIf]
  rfl

/-- A chain walk reads ENT below `nextCode` and nothing else (R75). -/
theorem chainWalk_congr (he : t.ent = s.ent) (hn : t.nextCode = s.nextCode) (n : Nat) (c : Code) (acc : List Byte) :
    chainWalk t n c acc = chainWalk s n c acc := by
  induction n generalizing c acc with
  | zero => rfl
  | succ n ih => simp only [chainWalk, State.entRead_congr he hn, ih]

theorem dictReconstruct_congr (he : t.ent = s.ent) (hn : t.nextCode = s.nextCode) (c : Code) :
    dictReconstruct c t = dictReconstruct c s := by
  rw [dictReconstruct, dictReconstruct, hn, chainWalk_congr he hn]

end

/-! Registers that a pass does not read: what a command does is the same whatever they hold, and they stay. -/

/-- Other contents in the registers of the decoder, and in the model's own two that no command reads. -/
def State.withDecoderRegs (s : State) (o : CodeOrNone) (str : List Byte) (r : Result) (f : Nat) : State :=
  { s with oldCode := o, oldString := str, result := r, freeCount := f }

/-- Other contents in the register of the encoder, and in the model's own two that no command reads. -/
def State.withEncoderRegs (s : State) (p : CodeOrNone) (r : Result) (f : Nat) : State :=
  { s with prefixCode := p, result := r, freeCount := f }

section
variable {s t : State} {c : Byte} (o : CodeOrNone) (str : List Byte) (r : Result) (f : Nat)

theorem encEmit_withDecoderRegs (h : encEmit s = .next t) :
    encEmit (s.withDecoderRegs o str r f) = .next (t.withDecoderRegs o str r f) := by
  obtain ⟨hp, rfl⟩ | ⟨p, hp, hw⟩ := encEmit_next h
  · exact encEmit_none (s := t.withDecoderRegs o str r f) hp
  · obtain ⟨h1, h2, hn, rfl⟩ := bpWrite_next hw
    exact (encEmit_some (s := s.withDecoderRegs o str r f) hp).trans (bpWrite_eq h1 h2 hn)

theorem encCreate_withDecoderRegs (h : encCreate c s = .next t) :
    encCreate c (s.withDecoderRegs o str r f) = .next (t.withDecoderRegs o str r f) := by
  obtain ⟨hfull, rfl⟩ | ⟨hn, p, hp, hlt, rfl⟩ := encCreate_next_appended h
  · exact encCreate_full (s := t.withDecoderRegs o str r f) hfull
  · exact encCreate_appended (s := s.withDecoderRegs o str r f) hn hp hlt

theorem bpFlush_withDecoderRegs (h : bpFlush s = .next t) :
    bpFlush (s.withDecoderRegs o str r f) = .next (t.withDecoderRegs o str r f) := by
  obtain ⟨hn, ⟨h0, rfl⟩ | ⟨hpos, rfl⟩⟩ := bpFlush_next h
  · exact bpFlush_empty (s := s.withDecoderRegs o str r f) h0
  · exact bpFlush_some (s := s.withDecoderRegs o str r f) hpos hn

theorem encByte_withDecoderRegs (h : encByte c s = .next t) :
    encByte c (s.withDecoderRegs o str r f) = .next (t.withDecoderRegs o str r f) := by
  obtain ⟨m, hm, rfl⟩ | ⟨hmiss, s1, s2, hemit, hcreate, rfl⟩ := encByte_next h
  · exact encByte_hit (s := s.withDecoderRegs o str r f) hm
  · have hmiss : dictLookup (s.withDecoderRegs o str r f).prefixCode c (s.withDecoderRegs o str r f) = none := hmiss
    simp only [encByte, hmiss, encEmit_withDecoderRegs o str r f hemit, encCreate_withDecoderRegs o str r f hcreate,
      andThen_next]
    rfl

theorem encEnd_withDecoderRegs (h : encEnd s = .next t) :
    encEnd (s.withDecoderRegs o str r f) = .next (t.withDecoderRegs o str r f) := by
  obtain ⟨s1, s2, hemit, hflush, rfl⟩ := encEnd_next h
  simp only [encEnd, encEmit_withDecoderRegs o str r f hemit, bpFlush_withDecoderRegs o str r f hflush, andThen_next]
  rfl

end

section
variable {s t : State} (p : CodeOrNone) (r : Result) (f : Nat)

theorem decUpdate_withEncoderRegs {fb : Byte} (h : decUpdate fb s = .next t) :
    decUpdate fb (s.withEncoderRegs p r f) = .next (t.withEncoderRegs p r f) := by
  obtain ⟨hfull, rfl⟩ | ⟨hn, q, hq, hlt, rfl⟩ := decUpdate_next_appended h
  · exact decUpdate_full (s := t.withEncoderRegs p r f) hfull
  · exact decUpdate_appended (s := s.withEncoderRegs p r f) hn hq hlt

theorem decUpdateCommit_withEncoderRegs {c : Code} {str : List Byte} (h : decUpdateCommit c str s = .next t) :
    decUpdateCommit c str (s.withEncoderRegs p r f) = .next (t.withEncoderRegs p r f) := by
  obtain ⟨fb, rest, s1, rfl, hup, rfl⟩ := decUpdateCommit_next h
  rw [decUpdateCommit, decUpdate_withEncoderRegs p r f hup, andThen_next]
  rfl

theorem decCode_withEncoderRegs {c : Code} (h : decCode c s = .next t) :
    decCode c (s.withEncoderRegs p r f) = .next (t.withEncoderRegs p r f) := by
  have hmode : (s.withEncoderRegs p r f).mode = s.mode := rfl
  have hdict : dictReconstruct c (s.withEncoderRegs p r f) = dictReconstruct c s :=
    dictReconstruct_congr (s := s) (t := s.withEncoderRegs p r f) rfl rfl c
  obtain ⟨hc, str, hr, rfl⟩ | ⟨hc, b0, rest, ho, hu⟩ | ⟨hc, str, hr, hu⟩ | ⟨hc, rfl⟩ := decCode_next h
  · simp only [decCode, hmode, hc, decFirst, hdict, hr, andThen_next]
    rfl
  · have hold : (s.withEncoderRegs p r f).oldString = b0 :: rest := ho
    rw [ho] at hu
    simp only [decCode, hmode, hc, decKwkwk, hold]
    exact decUpdateCommit_withEncoderRegs p r f hu
  · simp only [decCode, hmode, hc, decLookup, hdict, hr, andThen_next]
    exact decUpdateCommit_withEncoderRegs p r f hu
  · simp only [decCode, hmode, hc]
    rfl

theorem bpFeed_withEncoderRegs {b : Byte} (h : bpFeed b s = .next t) :
    bpFeed b (s.withEncoderRegs p r f) = .next (t.withEncoderRegs p r f) := by
  obtain ⟨hroom, rfl⟩ := bpFeed_next h
  exact bpFeed_eq (s := s.withEncoderRegs p r f) hroom

theorem bpRead_withEncoderRegs {w : BitVec 5} {x : State × Option Code} (h : bpRead w s = .next x) :
    bpRead w (s.withEncoderRegs p r f) = .next (x.1.withEncoderRegs p r f, x.2) := by
  obtain ⟨h1, h2, ⟨hshort, rfl⟩ | ⟨hfull, rfl⟩⟩ := bpRead_next h
  · exact bpRead_exhausted (s := s.withEncoderRegs p r f) h1 h2 hshort
  · exact bpRead_code (s := s.withEncoderRegs p r f) h1 h2 hfull

theorem decByte_withEncoderRegs {b : Byte} (h : decByte b s = .next t) :
    decByte b (s.withEncoderRegs p r f) = .next (t.withEncoderRegs p r f) := by
  obtain ⟨s1, ⟨s2, code⟩, hfed, hread, hcode⟩ := decByte_next h
  have hw : (s1.withEncoderRegs p r f).codeSize = s1.codeSize := rfl
  simp only [decByte, bpFeed_withEncoderRegs p r f hfed, hw, bpRead_withEncoderRegs p r f hread, andThen_next]
  obtain ⟨rfl, rfl⟩ | ⟨c, rfl, hcode⟩ := hcode
  · rfl
  · exact decCode_withEncoderRegs p r f hcode

end

/-! Two runs side by side (R106, R52, R136). -/

/-- Two states that no later command word can tell apart: they differ only in the registers that the running pass does
not read and in the model's own `result` and `freeCount`. -/
inductive Alike (s : State) : State → Prop where
  | enc (hs : s.status = .enc) (o : CodeOrNone) (str : List Byte) (r : Result) (f : Nat) :
      Alike s (s.withDecoderRegs o str r f)
  | dec (hs : s.status = .dec) (p : CodeOrNone) (r : Result) (f : Nat) : Alike s (s.withEncoderRegs p r f)
  | outside (hs : s.status ≠ .enc ∧ s.status ≠ .dec) (p o : CodeOrNone) (str : List Byte) (r : Result) (f : Nat) :
      Alike s { s with prefixCode := p, oldCode := o, oldString := str, result := r, freeCount := f }

section
variable {s t u : State}

theorem Alike.withInput (h : Alike s t) (l : List Event) : Alike (s.withInput l) (t.withInput l) := by
  cases h with
  | enc hs o str r f => exact .enc (s := s.withInput l) hs o str r f
  | dec hs p r f => exact .dec (s := s.withInput l) hs p r f
  | outside hs p o str r f => exact .outside (s := s.withInput l) hs p o str r f

theorem Alike.input_eq (h : Alike s t) : t.input = s.input := by cases h <;> rfl

theorem Alike.sameView (h : Alike s t) : SameView s t := by cases h <;> exact ⟨rfl, rfl, rfl, rfl, rfl, rfl⟩

/-- An encode pass begins alike in states with the same error registers and the same events waiting: the start writes
every other register that the pass reads. -/
theorem encStart_alike (he : t.errcode = s.errcode) (hi : t.errinfo = s.errinfo) (hin : t.input = s.input) :
    Alike (encStart s) (encStart t) := by
  have ht : encStart t = (encStart s).withDecoderRegs t.oldCode t.oldString t.result t.freeCount := by
    simp only [encStart, bpInit, dictInit, State.setPending, State.withDecoderRegs, he, hi, hin]
  exact ht ▸ .enc rfl _ _ _ _

theorem decStart_alike (he : t.errcode = s.errcode) (hi : t.errinfo = s.errinfo) (hin : t.input = s.input) :
    Alike (decStart s) (decStart t) := by
  have ht : decStart t = (decStart s).withEncoderRegs t.prefixCode t.result t.freeCount := by
    simp only [decStart, bpInit, dictInit, State.setPending, State.withEncoderRegs, he, hi, hin]
  exact ht ▸ .dec rfl _ _ _

/-- The decoder's registers tell apart only states in which a decode pass runs. -/
theorem alike_withDecoderRegs (hs : s.status ≠ .dec) (o : CodeOrNone) (str : List Byte) (r : Result) (f : Nat) :
    Alike s (s.withDecoderRegs o str r f) := by
  by_cases he : s.status = .enc
  · exact .enc he o str r f
  · exact .outside ⟨he, hs⟩ s.prefixCode o str r f

/-- The encoder's register tells apart only states in which an encode pass runs. -/
theorem alike_withEncoderRegs (hs : s.status ≠ .enc) (p : CodeOrNone) (r : Result) (f : Nat) :
    Alike s (s.withEncoderRegs p r f) := by
  by_cases hd : s.status = .dec
  · exact .dec hd p r f
  · exact .outside ⟨hs, hd⟩ p s.oldCode s.oldString r f

section
variable {st st' : Status} {w : CommandWord}

theorem command_withDecoderRegs (hs : s.status = .enc) (h : exec (decodeCommand st w) s = .next u) (o : CodeOrNone)
    (str : List Byte) (r : Result) (f : Nat) :
    exec (decodeCommand st' w) (s.withDecoderRegs o str r f) = .next (u.withDecoderRegs o str r f) ∧
      u.status ≠ .dec := by
  rw [exec_command_enc st w hs] at h
  rw [exec_command_enc (s := s.withDecoderRegs o str r f) st' w hs]
  split_ifs at h ⊢
  · have hu := (encByte_keeps_control h).status.trans hs
    exact ⟨encByte_withDecoderRegs o str r f h, by simp [hu]⟩
  · have hu := (encEnd_finishes h).1
    exact ⟨encEnd_withDecoderRegs o str r f h, by simp [hu]⟩
  · cases h
    exact ⟨rfl, nofun⟩

theorem command_withEncoderRegs (hs : s.status = .dec) (h : exec (decodeCommand st w) s = .next u) (p : CodeOrNone)
    (r : Result) (f : Nat) :
    exec (decodeCommand st' w) (s.withEncoderRegs p r f) = .next (u.withEncoderRegs p r f) ∧ u.status ≠ .enc := by
  rw [exec_command_dec st w hs] at h
  rw [exec_command_dec (s := s.withEncoderRegs p r f) st' w hs]
  split_ifs at h ⊢
  · refine ⟨decByte_withEncoderRegs p r f h, ?_⟩
    obtain hsame | ⟨v, c, -, rfl⟩ := decByte_keeps_control h
    · simp [hsame.status, hs]
    · nofun
  · cases h
    exact ⟨rfl, nofun⟩
  · cases h
    exact ⟨rfl, nofun⟩

theorem command_outside_alike (hs : s.status ≠ .enc ∧ s.status ≠ .dec) (h : exec (decodeCommand st w) s = .next u)
    (p o : CodeOrNone) (str : List Byte) (r : Result) (f : Nat) :
    ∃ v, exec (decodeCommand st' w)
        { s with prefixCode := p, oldCode := o, oldString := str, result := r, freeCount := f } = .next v ∧
      Alike u v := by
  by_cases herr : s.status = .err
  · rw [exec_command_err st w herr] at h
    cases h
    exact ⟨_, exec_command_err st' w herr, .outside hs p o str r f⟩
  · have hout : s.status = .idle ∨ s.status = .done := by
      cases hst : s.status <;> simp_all
    rw [exec_command_outside st w hout] at h
    refine ⟨_, exec_command_outside st' w hout, ?_⟩
    cases h
    split_ifs
    · exact encStart_alike rfl rfl rfl
    · exact decStart_alike rfl rfl rfl
    · exact .outside (s := s.misplaced w) ⟨nofun, nofun⟩ p o str r f

/-- A command word does the same to both. -/
theorem Alike.command (h : Alike s t) (hs : exec (decodeCommand st w) s = .next u) :
    ∃ v, exec (decodeCommand st' w) t = .next v ∧ Alike u v := by
  cases h with
  | enc hst o str r f =>
    obtain ⟨hv, hu⟩ := command_withDecoderRegs hst hs o str r f
    exact ⟨_, hv, alike_withDecoderRegs hu o str r f⟩
  | dec hst p r f =>
    obtain ⟨hv, hu⟩ := command_withEncoderRegs hst hs p r f
    exact ⟨_, hv, alike_withEncoderRegs hu p r f⟩
  | outside hst p o str r f => exact command_outside_alike hst hs p o str r f

end

/-- The events of a list of command words, as a run places them. -/
def wordEvents (ws : List CommandWord) : List Event := ws.map fun w => .word (.cmd w)

/-- From two states alike, with the same command words waiting, both runs complete and end alike. -/
theorem Alike.run (ws : List CommandWord) (h : Alike s t) (hr : RunningInv s) (hi : s.input = wordEvents ws) :
    ∃ u v, runSteps ws.length s = .next u ∧ runSteps ws.length t = .next v ∧ Alike u v := by
  induction ws generalizing s t with
  | nil => exact ⟨s, t, rfl, rfl, h⟩
  | cons w ws ih =>
    obtain ⟨s1, hs⟩ := (hr.withInput (wordEvents ws)).command_completes s.status w
    obtain ⟨t1, ht, h1⟩ := (h.withInput (wordEvents ws)).command (st' := t.status) hs
    have he := exec_decodeCommand_effect hs
    obtain ⟨u, v, hu, hv, huv⟩ := ih h1 (he.running (hr.withInput _)) he.input_eq
    have hsstep : step s = .next s1 := (step_of_command hi).trans hs
    have htstep : step t = .next t1 := (step_of_command (h.input_eq.trans hi)).trans ht
    refine ⟨u, v, ?_, ?_, huv⟩
    · rw [List.length_cons, runSteps, hsstep, andThen_next, hu]
    · rw [List.length_cons, runSteps, htstep, andThen_next, hv]

/-- A run is its first command, then the run of the rest. -/
theorem runCommands_cons {w : CommandWord} {ws : List CommandWord}
    (h : step (s.withInput (.word (.cmd w) :: wordEvents ws)) = .next t) :
    runCommands (w :: ws) s = runSteps ws.length t := by
  rw [runCommands, List.length_cons, runSteps, List.map_cons]
  exact congrArg (andThen · (runSteps ws.length)) h

/-- Two runs whose first command leads to states alike complete and show the host the same. -/
theorem runCommands_alike {w : CommandWord} {ws : List CommandWord} {s1 t1 : State}
    (hs : step (s.withInput (.word (.cmd w) :: wordEvents ws)) = .next s1)
    (ht : step (t.withInput (.word (.cmd w) :: wordEvents ws)) = .next t1) (h : Alike s1 t1) (hr : RunningInv s1)
    (hi : s1.input = wordEvents ws) :
    ∃ u v, runCommands (w :: ws) s = .next u ∧ runCommands (w :: ws) t = .next v ∧ SameView u v := by
  obtain ⟨u, v, hu, hv, huv⟩ := h.run ws hr hi
  exact ⟨u, v, (runCommands_cons hs).trans hu, (runCommands_cons ht).trans hv, huv.sameView⟩

end

/-! ## The obligations -/

/-- Settles O49: the start command makes the two states alike, and every command word keeps them so. -/
theorem passesForgetTheStateBefore : Obligations.PassesForgetTheStateBefore := by
  intro s1 s2 op d ws h1 h2 hop he hi
  rcases hop with rfl | rfl
  · exact runCommands_alike (step_encStart (rest := wordEvents ws) rfl h1) (step_encStart rfl h2)
      (encStart_alike he.symm hi.symm rfl) ⟨fun _ => encStart_inv _, nofun⟩ rfl
  · exact runCommands_alike (step_decStart (rest := wordEvents ws) rfl h1) (step_decStart rfl h2)
      (decStart_alike he.symm hi.symm rfl) ⟨nofun, fun _ => decStart_inv _⟩ rfl

end Sys2Proof.Machine
end

section
/-! PROOFS, part 15. The exceptions: a command in a status that does not accept it, and the level outputs beside the
value a read of STATUS returns. -/

namespace Sys2Proof.Machine

section
variable {op : BitVec 3} {d : Byte} {s : State}

/-! DATA and END with no pass running (R105), beside `startCommand_misplaced`. -/

theorem dataCommand_misplaced (h : s.status = .idle ∨ s.status = .done) :
    dataCommand d s = .next (s.raise .protocol (commandInfo 3 d)) := by
  rcases h with h | h <;> rw [dataCommand, h]

theorem endCommand_misplaced (h : s.status = .idle ∨ s.status = .done) :
    endCommand d s = .next (s.raise .protocol (commandInfo 4 d)) := by
  rcases h with h | h <;> rw [endCommand, h]

/-- Error entry writes three registers; of a command word it records the number (R63, R124). -/
theorem State.raise_commandInfo (e : ErrCode) :
    s.raise e (commandInfo op d) =
      { s with status := .err, errcode := e, errinfo := BitVec.ofNat 20 (op.toNat * 256 + d.toNat) } := by
  rw [State.raise, commandInfo_eq_ofNat]

end

/-! The level outputs, and the codes of STATUS they stand for (R65, R131). -/

@[simp] theorem State.doneOutput_iff (s : State) : s.doneOutput = true ↔ s.status = .done := decide_eq_true_iff

@[simp] theorem State.errOutput_iff (s : State) : s.errOutput = true ↔ s.status = .err := decide_eq_true_iff

/-- STATUS values are distinct on the port: a read tells the status. -/
theorem statusBits_port_inj {st st' : Status} :
    (statusBits st).setWidth 21 = (statusBits st').setWidth 21 ↔ st = st' := by
  cases st <;> cases st' <;> decide

/-! ## The obligations -/

/-- Settles O11: each command takes its PROTOCOL row of the dispatch and records its own operation with its data. -/
theorem misplacedCommandsRaiseProtocol : Obligations.MisplacedCommandsRaiseProtocol := by
  intro d s
  refine ⟨fun h => ⟨?_, ?_⟩, fun h => ⟨?_, ?_⟩⟩
  · exact (dataCommand_misplaced h).trans (congrArg _ (State.raise_commandInfo _))
  · exact (endCommand_misplaced h).trans (congrArg _ (State.raise_commandInfo _))
  · exact (startCommand_misplaced h).trans (congrArg _ (State.raise_commandInfo _))
  · exact (startCommand_misplaced h).trans (congrArg _ (State.raise_commandInfo _))

/-- Settles O17: 3 and 4 are the codes of DONE and ERR, and no status is both. -/
theorem levelOutputsDecodeTheStatus : Obligations.LevelOutputsDecodeTheStatus := by
  intro s
  refine ⟨(statusBits s.status).setWidth 21, rfl, ?_, ?_, ?_⟩
  · exact s.doneOutput_iff.trans (statusBits_port_inj (st' := .done)).symm
  · exact s.errOutput_iff.trans (statusBits_port_inj (st' := .err)).symm
  · rw [s.doneOutput_iff, s.errOutput_iff]
    rintro ⟨hdone, herr⟩
    exact absurd (hdone.symm.trans herr) nofun

end Sys2Proof.Machine
end
